-- ==== Sys2Proof/Word.lean ====
section
/-! DEFINITION. The word types of the block and the numeral `bit(p)` of 00_scope.md rule R12. -/

namespace Sys2Proof

/-- A 32-bit word: a command or response word, a time, a pin mask (R80, R84). -/
abbrev Word := BitVec 32

/-- A byte of a table space or of the byte transport (R61, R63). -/
abbrev Byte := BitVec 8

/-- The output levels of GPIO pins 0..15 (R37). -/
abbrev Levels := BitVec 16

/-- `bit(p)`, the number `2^p`, at the width of a pin mask (R12). -/
def bit (p : Nat) : Word := BitVec.twoPow 32 p

/-- `bit(p)` at the width of the GPIO output register (R12, R37). -/
def levelBit (p : Nat) : Levels := BitVec.twoPow 16 p

end Sys2Proof
end

