-- ==== Sys2Proof/Syntax.lean ====
section
/-! DEFINITION. The commands of the block: one constructor for each row of spec/opcode_table.json
(30_encoding.md rules R85, R86, R90). -/

namespace Sys2Proof

/-- A command of the command stream, with the operands R86 assembles from its words. -/
inductive Instr where
  /-- START, opcode 0x01, format N (R160). -/
  | start
  /-- STOP, opcode 0x02, format N (R165). -/
  | stop
  /-- SETPER, opcode 0x03, format W: `value = cmd(1)` (R120). -/
  | setper (value : Word)
  /-- SETCH, opcode 0x04, format C: `ch = header[23:16]`, `times = t_0 .. t_(count-1)` (R110). -/
  | setch (ch : BitVec 8) (times : List Word)
  /-- GETPER, opcode 0x05, format N (R210). -/
  | getper
  /-- GETCH, opcode 0x06, format C: `ch = header[23:16]` (R212). -/
  | getch (ch : BitVec 8)
  /-- GETALL, opcode 0x07, format N (R216). -/
  | getall
  /-- PING, opcode 0x08, format N (R218). -/
  | ping
  /-- SETADDR, opcode 0x09, format A: `addr = header[7:0]` (R219). -/
  | setaddr (addr : BitVec 8)
  /-- GETADDR, opcode 0x0A, format N (R220). -/
  | getaddr
  /-- RESET, opcode 0x0B, format N (R222). -/
  | reset
  /-- A reserved header, opcode 0x00 or 0x0C..0xFF (R91, R224). -/
  | reserved (opcode : BitVec 8)
deriving DecidableEq, Repr

end Sys2Proof
end

