-- ==== Sys2Proof/WellFormed.lean ====
section
/-! DEFINITION. Which commands the encoding of 30_encoding.md can hold. -/

namespace Sys2Proof

/-- The opcodes outside the map of R90: 0x00 and 0x0C..0xFF (R91). -/
def reservedOpcode (op : BitVec 8) : Bool := decide (op = 0x00#8) || decide (0x0C#8 ≤ op)

/-- SETCH's `count` is an 8-bit field (R85, R86). -/
def countFits (times : List Word) : Bool := decide (times.length ≤ 255)

/-- A command is well formed when its operands fit their fields and a reserved header has a reserved
opcode. -/
def Instr.wf : Instr → Bool
  | .start => true
  | .stop => true
  | .setper _ => true
  | .setch _ times => countFits times
  | .getper => true
  | .getch _ => true
  | .getall => true
  | .ping => true
  | .setaddr _ => true
  | .getaddr => true
  | .reset => true
  | .reserved op => reservedOpcode op

end Sys2Proof
end

