-- ==== Sys2Proof/Decode.lean ====
section
/-! DEFINITION. Decoding of the command stream (30_encoding.md rules R85 to R93, R97), the encoder
written from the same formats, the byte form of words (20_memory.md rule R63), the assembler line of a
command (R99), and the host's window on the decoder. -/

namespace Sys2Proof

/-- `header[31:24]` (R85). -/
def opcodeOf (h : Word) : BitVec 8 := h.extractLsb' 24 8

/-- `header[23:16]`, the channel of format C (R86). -/
def channelOf (h : Word) : BitVec 8 := h.extractLsb' 16 8

/-- `header[7:0]`, the count of SETCH (R86). -/
def countOf (h : Word) : BitVec 8 := h.extractLsb' 0 8

/-- `header[7:0]`, the address of format A (R86). -/
def addressOf (h : Word) : BitVec 8 := h.extractLsb' 0 8

/-- `len(header)`, the command's length in words (R92). -/
def commandLength (h : Word) : Nat :=
  if opcodeOf h = 0x03#8 then 2
  else if opcodeOf h = 0x04#8 then 1 + (countOf h).toNat
  else 1

/-- Why no command could be read. The command agent holds on either (R41, R92); no header word is
refused (R243). -/
inductive DecodeError where
  /-- There is no header word yet. -/
  | noHeader
  /-- The header is there and some of its operand words are not. -/
  | incomplete
deriving DecidableEq, Repr

/-- The command a header selects, by `header[31:24]` alone (R90), with its operands taken from the words
after it (R86). Bits marked x are ignored (R93); an opcode outside the map is reserved (R91). -/
def commandOf (h : Word) (operands : List Word) : Instr :=
  if opcodeOf h = 0x01#8 then .start
  else if opcodeOf h = 0x02#8 then .stop
  else if opcodeOf h = 0x03#8 then .setper (operands.headD 0)
  else if opcodeOf h = 0x04#8 then .setch (channelOf h) (operands.take (countOf h).toNat)
  else if opcodeOf h = 0x05#8 then .getper
  else if opcodeOf h = 0x06#8 then .getch (channelOf h)
  else if opcodeOf h = 0x07#8 then .getall
  else if opcodeOf h = 0x08#8 then .ping
  else if opcodeOf h = 0x09#8 then .setaddr (addressOf h)
  else if opcodeOf h = 0x0A#8 then .getaddr
  else if opcodeOf h = 0x0B#8 then .reset
  else .reserved (opcodeOf h)

/-- Reads one command from the front of a word sequence: the command and the words after it. It is
complete when all `len(header)` words are there (R92). -/
def decode : List Word → Except DecodeError (Instr × List Word)
  | [] => .error .noHeader
  | h :: ws =>
    if ws.length < commandLength h - 1 then .error .incomplete
    else .ok (commandOf h ws, ws.drop (commandLength h - 1))

/-- The length in words of a command's encoding (R90). -/
def Instr.words : Instr → Nat
  | .setper _ => 2
  | .setch _ times => 1 + times.length
  | _ => 1

/-- A header of R85: opcode, bits 23:16 and bits 7:0, the ignored bits zero. -/
def commandHeader (op hi lo : BitVec 8) : Word := op ++ hi ++ 0#8 ++ lo

/-- The words of a command (R85, R99). -/
def encode : Instr → List Word
  | .start => [commandHeader 0x01 0 0]
  | .stop => [commandHeader 0x02 0 0]
  | .setper value => [commandHeader 0x03 0 0, value]
  | .setch ch times => commandHeader 0x04 ch (BitVec.ofNat 8 times.length) :: times
  | .getper => [commandHeader 0x05 0 0]
  | .getch ch => [commandHeader 0x06 ch 0]
  | .getall => [commandHeader 0x07 0 0]
  | .ping => [commandHeader 0x08 0 0]
  | .setaddr addr => [commandHeader 0x09 0 addr]
  | .getaddr => [commandHeader 0x0A 0 0]
  | .reset => [commandHeader 0x0B 0 0]
  | .reserved op => [commandHeader op 0 0]

/-- A word as the byte transport carries it: four bytes, least significant first (R63). -/
def bytesOfWord (w : Word) : List Byte :=
  [w.extractLsb' 0 8, w.extractLsb' 8 8, w.extractLsb' 16 8, w.extractLsb' 24 8]

/-- How a byte stream is read as words (R63); fewer than four bytes at the end are no word yet. -/
def wordsOfBytes : List Byte → List Word
  | b0 :: b1 :: b2 :: b3 :: bs => (b3 ++ b2 ++ b1 ++ b0) :: wordsOfBytes bs
  | _ => []

/-- Reads one command from a byte stream (R63, R92). -/
def decodeBytes (bs : List Byte) : Except DecodeError (Instr × List Word) := decode (wordsOfBytes bs)

/-- Operands written in decimal and separated by commas (R99). -/
def asmOperands : List Nat → String
  | [] => ""
  | [n] => toString n
  | n :: ns => toString n ++ ", " ++ asmOperands ns

/-- A command in the spec's assembler syntax (R99); a reserved header is a raw word. -/
def Instr.asm : Instr → String
  | .start => "START"
  | .stop => "STOP"
  | .setper value => "SETPER " ++ toString value.toNat
  | .setch ch times => "SETCH " ++ asmOperands (ch.toNat :: times.map BitVec.toNat)
  | .getper => "GETPER"
  | .getch ch => "GETCH " ++ toString ch.toNat
  | .getall => "GETALL"
  | .ping => "PING"
  | .setaddr addr => "SETADDR " ++ toString addr.toNat
  | .getaddr => "GETADDR"
  | .reset => "RESET"
  | .reserved op => ".word " ++ toString (op.toNat * 2 ^ 24)

/-- The longest command: a SETCH with `count` 255 (R97). -/
def longestCommand : Nat := 256

/-- The words of an instruction whose bits are `w` (bit 0 the least significant of the first word), every
bit from `nbits` on zero, up to the longest command. -/
def tableWords (nbits w : Nat) : List Word :=
  (List.range longestCommand).map fun k => BitVec.ofNat 32 (w % 2 ^ nbits / 2 ^ (32 * k))

/-- What the decoder reads from those words, given to it as the byte transport would store them. -/
def decodeTableWord (nbits w : Nat) : Option Instr :=
  match decodeBytes ((tableWords nbits w).flatMap bytesOfWord) with
  | .ok (i, _) => some i
  | .error _ => none

end Sys2Proof
end

