-- ==== Sys2Proof/Config.lean ====
section
/-! DEFINITION. The parameters of the block (00_scope.md rules R5 to R8), their validity, and the free
values: quantities the spec does not state, which nothing in Lean can evaluate. -/

namespace Sys2Proof

/-- ChannelSpec (R6): a channel's output pin and its polarity (`true` = inverted), fixed at build time. -/
structure ChannelSpec where
  /-- `CHANNEL_PIN[c]`, a GPIO pin number; R7 (b) asks for 0..15. -/
  pin : Nat
  /-- `CHANNEL_INVERTED[c]`. -/
  inverted : Bool
deriving DecidableEq, Repr

/-- The parameters of R5. `CHANNEL_COUNT` is the length of `channels` (log 19). -/
structure Config where
  /-- `MAX_STATES`, the capacity of each event table, in entries. -/
  maxStates : Nat
  /-- `MAX_TOGGLES`, the largest number of toggle times one SETCH uses. -/
  maxToggles : Nat
  /-- `CHANNEL_PIN` and `CHANNEL_INVERTED`, one record for each channel. -/
  channels : List ChannelSpec
  /-- `TICK_MULT`, hardware ticks per time unit. -/
  tickMult : Nat
  /-- `TIMER_BITS`, the width of the timer's registers. -/
  timerBits : Nat
  /-- `CYCLE_EXTRA`, 0 or 1: ticks a cycle lasts beyond `TIM_PERIOD`. -/
  cycleExtra : Fin 2
  /-- `RESET_PERIOD_US`, the value of `PERIOD_US` after reset; OPEN in the spec (log 2). -/
  resetPeriodUs : Word
  /-- `DMA_LATENCY_TICKS`. -/
  dmaLatencyTicks : Nat
  /-- `RESP_TOKENS`, the spelling of the textual reply tokens by reply opcode; OPEN, and read by no rule
  of the block (R95, log 17). -/
  respTokens : List (BitVec 8 × String)
deriving DecidableEq, Repr

/-- `CHANNEL_COUNT`. -/
def Config.channelCount (c : Config) : Nat := c.channels.length

/-- `pin(ch)` (R14). -/
def Config.pin (c : Config) (ch : Nat) : Nat := (c.channels[ch]?.map ChannelSpec.pin).getD 0

/-- `inv(ch) = 1` (R14). -/
def Config.inv (c : Config) (ch : Nat) : Bool := (c.channels[ch]?.map ChannelSpec.inverted).getD false

/-- The constraints of R7 (a), (b), (c) and of R8. -/
def Config.valid (c : Config) : Bool :=
  decide (1 ≤ c.channelCount) && decide (c.channelCount ≤ 16)
    && c.channels.all (fun ch => decide (ch.pin < 16))
    && decide (c.channels.map ChannelSpec.pin).Nodup
    && decide (1 ≤ c.tickMult) && decide (1 ≤ c.maxStates) && decide (1 ≤ c.maxToggles)

/-- The defaults of R5: identity pin map, every channel normal. `RESET_PERIOD_US` is OPEN in the spec;
0 is the model's choice (DESIGN CHOICE, unsafe, log 2). `RESP_TOKENS` is OPEN and empty here (log 17). -/
def Config.default : Config where
  maxStates := 64
  maxToggles := 20
  channels := (List.range 16).map fun c => ⟨c, false⟩
  tickMult := 4
  timerBits := 32
  cycleExtra := 0
  resetPeriodUs := 0
  dmaLatencyTicks := 0
  respTokens := []

/-- Free value (DESIGN CHOICE, safe, log 7). The `time` field TimeCorrection stores when the scaled time
passes the check of R144 (below `2^TIMER_BITS`) and yet does not fit the 32-bit field of R80, which takes
`TIMER_BITS > 32`. The spec states no value there. -/
opaque Config.overlongTime : Nat → Word

/-- Free value (DESIGN CHOICE, safe, log 8). The header word of a reply whose payload count does not fit
the 16-bit `count` field of R95, which takes `MAX_STATES > 65535`. The spec states no value there. -/
opaque Config.overlongHeader : BitVec 8 → Nat → Nat → Word

/-- Free value (DESIGN CHOICE, safe, log 3). Which agent takes the `n`-th turn that no schedule fixes: 0 the
host, 1 the command agent, 2 the timer agent. The spec leaves the interleaving open (R10). -/
opaque Config.freeAgent : Nat → Fin 3

/-- Free value (DESIGN CHOICE, safe, log 3). The words the host appends in the `n`-th turn that no schedule
fixes, when that turn is the host's. -/
opaque Config.freeWords : Nat → List Word

end Sys2Proof
end

