-- ==== Sys2Proof/Machine/Memory.lean ====
section
/-! DEFINITION. A table space as byte memory (20_memory.md rules R60 to R64): one canonical list of
(address, byte) pairs, its 32-bit little-endian accesses, and the entry notation of R14 and R61. -/

namespace Sys2Proof.Machine

/-- A table space: (address, byte) pairs, addresses strictly rising, no byte equal to what an unlisted
address reads as. -/
abbrev Memory := List Host.Cell

/-- What an unlisted address reads as: 0, the reset contents of both tables (R39, R43, R270). -/
def unlistedByte : Byte := 0

/-- `m` has every address at or above `lo`, in strictly rising order, and lists no unlisted byte. -/
def Memory.wfFrom : Nat → Memory → Bool
  | _, [] => true
  | lo, (a, b) :: m => decide (lo ≤ a) && (b != unlistedByte) && Memory.wfFrom (a + 1) m

/-- The canonical form. -/
def Memory.wf (m : Memory) : Bool := Memory.wfFrom 0 m

/-- The byte at an address. -/
def Memory.readByte : Memory → Nat → Byte
  | [], _ => unlistedByte
  | (k, b) :: m, a => if a = k then b else Memory.readByte m a

/-- Stores a byte, keeping the canonical form: the unlisted byte is stored by listing nothing. -/
def Memory.writeByte (a : Nat) (b : Byte) : Memory → Memory
  | [] => if b = unlistedByte then [] else [(a, b)]
  | (k, c) :: m =>
    if a < k then (if b = unlistedByte then (k, c) :: m else (a, b) :: (k, c) :: m)
    else if a = k then (if b = unlistedByte then m else (a, b) :: m)
    else (k, c) :: Memory.writeByte a b m

/-- `MemRead(space, a, 4)`: byte `j` of the value is the byte at `a + j` (R62; little-endian is PRESUMED
by the spec itself, log 14). -/
def Memory.read32 (m : Memory) (a : Nat) : Word :=
  m.readByte (a + 3) ++ m.readByte (a + 2) ++ m.readByte (a + 1) ++ m.readByte a

/-- `MemWrite(space, a, 4, v)`: byte `j` of `v` goes to `a + j` (R62). -/
def Memory.write32 (m : Memory) (a : Nat) (v : Word) : Memory :=
  (((m.writeByte a (v.extractLsb' 0 8)).writeByte (a + 1) (v.extractLsb' 8 8)).writeByte (a + 2)
    (v.extractLsb' 16 8)).writeByte (a + 3) (v.extractLsb' 24 8)

/-- An EventEntry (R80). -/
structure EventEntry where
  time : Word
  mask : Word
deriving DecidableEq, Repr

/-- The byte offset of an entry's `time` (R61). -/
def timeAddr (k : Nat) : Nat := 8 * k

/-- The byte offset of an entry's `mask` (R61). -/
def maskAddr (k : Nat) : Nat := 8 * k + 4

/-- `table[k].time`. -/
def Memory.timeAt (m : Memory) (k : Nat) : Word := m.read32 (timeAddr k)

/-- `table[k].mask`. -/
def Memory.maskAt (m : Memory) (k : Nat) : Word := m.read32 (maskAddr k)

/-- `table[k]`. -/
def Memory.entry (m : Memory) (k : Nat) : EventEntry := ⟨m.timeAt k, m.maskAt k⟩

/-- `table[k].time <- t`. -/
def Memory.setTime (m : Memory) (k : Nat) (t : Word) : Memory := m.write32 (timeAddr k) t

/-- `table[k].mask <- b`. -/
def Memory.setMask (m : Memory) (k : Nat) (b : Word) : Memory := m.write32 (maskAddr k) b

/-- `table[k] <- e`. -/
def Memory.setEntry (m : Memory) (k : Nat) (e : EventEntry) : Memory :=
  (m.setTime k e.time).setMask k e.mask

/-- `for j = pos + d down to pos + 1: table[j] <- table[j-1]` (R113, the shift of `Insert`). -/
def Memory.shiftUp (m : Memory) (pos : Nat) : Nat → Memory
  | 0 => m
  | d + 1 => (m.setEntry (pos + d + 1) (m.entry (pos + d))).shiftUp pos d

/-- The size of a table space in bytes, `8 x MAX_STATES` (R60). -/
def spaceBytes (c : Config) : Nat := 8 * c.maxStates

/-- `for j in 0 .. MAX_STATES-1: table[j] <- (0, 0)` (R111, R270): every byte of the space reads 0. -/
def Memory.clearTable (c : Config) (m : Memory) : Memory :=
  m.filter fun cell => decide (spaceBytes c ≤ cell.1)

/-- `for j in 0 .. MAX_STATES-1: dst[j] <- src[j]` (R140): every byte of the space is the source's. -/
def Memory.copyTable (c : Config) (src dst : Memory) : Memory :=
  (src.filter fun cell => decide (cell.1 < spaceBytes c)) ++ dst.clearTable c

end Sys2Proof.Machine
end

