-- ==== Sys2Proof/Machine/Pins.lean ====
section
/-! DEFINITION. Pin masks: a channel's bits in a mask, toggle polarity, the GPIO set/reset write and the
idle levels (30_encoding.md R81, R82; 40_config_commands.md R112; 43_playback.md R186 to R188;
70_reset_and_hazards.md R270). -/

namespace Sys2Proof.Machine

/-- The set bit of channel `ch` in a mask (R82). -/
def setBit (c : Config) (ch : Nat) : Word := bit (c.pin ch)

/-- The reset bit of channel `ch` in a mask (R82). -/
def resetBit (c : Config) (ch : Nat) : Word := bit (16 + c.pin ch)

/-- A mask touches a channel when it has the channel's set bit or its reset bit (R82). -/
def touches (c : Config) (mask : Word) (ch : Nat) : Bool :=
  mask &&& (setBit c ch ||| resetBit c ch) != 0

/-- `ToggleBit(ch, i)`: the `i`-th time of a list is a set toggle when `(i mod 2 == 0) XOR inv(ch)`, else a
reset toggle (R112). -/
def toggleBit (c : Config) (ch i : Nat) : Word :=
  if (i % 2 == 0) != c.inv ch then setBit c ch else resetBit c ch

/-- `ODR_apply(m)`: the pins of `m[31:16]` go to 0, then those of `m[15:0]` to 1, so set wins (R186; set
wins is PRESUMED by the spec itself, log 12). -/
def odrApply (odr : Levels) (m : Word) : Levels :=
  (odr &&& ~~~(m.extractLsb' 16 16)) ||| m.extractLsb' 0 16

/-- `IDLE_MASK` (R188). -/
def idleMask (c : Config) : Word :=
  (List.range c.channelCount).foldl
    (fun m ch => m ||| (if c.inv ch then setBit c ch else resetBit c ch)) 0

/-- `IDLE_LEVELS`: bit `pin(c)` is `inv(c)` for every channel, and 0 on a pin no channel uses (R270). -/
def idleLevels (c : Config) : Levels :=
  (List.range c.channelCount).foldl
    (fun l ch => l ||| (if c.inv ch then levelBit (c.pin ch) else 0)) 0

end Sys2Proof.Machine
end

