-- ==== Sys2Proof/Machine/State.lean ====
section
/-! DEFINITION. The state of the block (10_state.md), the reasons a step can stop, and the state after
reset (70_reset_and_hazards.md rules R270 to R272). -/

namespace Sys2Proof.Machine

/-- `ENG_STATE` (R22); the numbers are `EngState.code`. -/
inductive EngState where
  | idle
  | running
  | stopRequested
  | stopping
deriving DecidableEq, Repr

/-- The causes of the sticky fault bits of `FAULT` (R28, R241). A step that raises one is a NEXT state
with that bit set and nothing else changed (R11, R242). -/
inductive FaultKind where
  /-- Bit 0: a SETCH of an in-range channel uses a time of 0 (R116). -/
  | zeroTime
  /-- Bit 1: a scaled time reaches `2^TIMER_BITS` at the commit (R144). -/
  | timeOverflow
  /-- Bit 2: the period in ticks reaches `2^TIMER_BITS` at the commit (R146). -/
  | periodOverflow
  /-- Bit 3: `TIM_PERIOD = 0` at arm (R163). -/
  | zeroPeriod
  /-- Bit 4: two events no further apart than the DMA latency, at arm (R189). -/
  | dmaSpacing
deriving DecidableEq, Repr

/-- Why the model stops where the spec has no state to go to. -/
inductive Fault where
  /-- Raised by SETCH, START, GETCH, GETALL and the tick when a count or an index of the state would
  reach past the `8 x MAX_STATES` bytes of a table space (R33, R36, R39, R60). Safe: no reachable state
  holds such a count (log 5). -/
  | tableBounds
deriving DecidableEq, Repr

/-- What the model gives no meaning to. -/
inductive Refusal where
  /-- Raised by exec's arm of an instruction that has no meaning yet. Safe. -/
  | notModelled (mnemonic : String)
  /-- Raised by every step and every command when the configuration breaks R7 or R8 (R243). Safe. -/
  | configInvalid
deriving DecidableEq, Repr

/-- One turn of the free schedule (R9, R10): which agent takes the next step, and for the host what it
appends. -/
inductive Turn where
  /-- The host appends words to `CMD_IN` (R41). -/
  | host (words : List Word)
  /-- The command agent executes the command at `CMD_PC`, or holds. -/
  | command
  /-- The timer agent makes one tick, or has no step because `TIM_CR.CEN = 0`. -/
  | timer
deriving DecidableEq, Repr

/-- The state elements of R21, and three fields of the model's own: `cfg`, `schedule` and `turnCount`. -/
structure State where
  /-- The parameters (R5), written by no step (R6, log 1). -/
  cfg : Config
  /-- `ENG_STATE` (R22). -/
  engState : EngState
  /-- `FLAGS.COMMIT_PENDING` (R24). -/
  commitPending : Bool
  /-- `FLAGS.FRESH_SEQUENCE` (R25). -/
  freshSequence : Bool
  /-- `FLAGS.NEEDS_CORRECTION` (R26). -/
  needsCorrection : Bool
  /-- `PERIOD_US` (R27). -/
  periodUs : Word
  /-- `FAULT` (R28). -/
  fault : BitVec 5
  /-- `TIM_CNT` (R30; a natural number, its width an invariant, log 9). -/
  timCnt : Nat
  /-- `TIM_PERIOD` (R31). -/
  timPeriod : Nat
  /-- `TIM_CCR` (R32). -/
  timCcr : Nat
  /-- `TIM_CR.CEN` (R34). -/
  timCen : Bool
  /-- `TIM_CR.OPM` (R34). -/
  timOpm : Bool
  /-- `DMA_EN` (R35). -/
  dmaEn : Bool
  /-- `DMA_LEN` (R36). -/
  dmaLen : Nat
  /-- `DMA_IDX` (R33). -/
  dmaIdx : Nat
  /-- `GPIO_ODR` (R37). -/
  gpioOdr : Levels
  /-- The shadow table's space (R39, R60). -/
  shadow : Memory
  /-- `SHADOW_COUNT` (R39). -/
  shadowCount : Nat
  /-- The live table's space (R43, R60). -/
  live : Memory
  /-- `CMD_PC` (R40). -/
  cmdPc : Nat
  /-- `CMD_IN` (R41). -/
  cmdIn : List Word
  /-- `RESP_OUT` (R42). -/
  respOut : List Word
  /-- The turns the agents take next (R10, log 3). -/
  schedule : List Turn
  /-- How many turns have been taken that no schedule fixed: the index of the free values of log 3. -/
  turnCount : Nat
deriving DecidableEq, Repr

/-- The state at the start of a run (R271): the state of `Reset()` with `FAULT = 0`, `CMD_PC = 0` and
`RESP_OUT` empty, for a configuration, the host's initial words and a schedule. -/
def State.boot (c : Config) (words : List Word) (turns : List Turn) : State where
  cfg := c
  engState := .idle
  commitPending := false
  freshSequence := true
  needsCorrection := false
  periodUs := c.resetPeriodUs
  fault := 0
  timCnt := 0
  timPeriod := 0
  timCcr := 0
  timCen := false
  timOpm := false
  dmaEn := false
  dmaLen := 0
  dmaIdx := 0
  gpioOdr := idleLevels c
  shadow := []
  shadowCount := 0
  live := []
  cmdPc := 0
  cmdIn := words
  respOut := []
  schedule := turns
  turnCount := 0

/-- The machine right after reset, with the default configuration, no word sent yet and no turn fixed
(R271, log 16). -/
def State.reset : State := State.boot Config.default [] []

end Sys2Proof.Machine
end

