-- ==== Sys2Proof/Machine/Flags.lean ====
section
/-! DEFINITION. The flags and their bit positions: `FLAGS` (10_state.md R24 to R26, R44), `ENG_STATE`'s
encoding (R22), `FAULT`'s bits (R28), `TIM_CR`'s bits (R34), and the updates the commands make. -/

namespace Sys2Proof.Machine

/-- The encoding of `ENG_STATE` (R22). -/
def EngState.code : EngState → BitVec 2
  | .idle => 0
  | .running => 1
  | .stopRequested => 2
  | .stopping => 3

/-- A fault's cause code, its bit number in `FAULT` (R28, R241). -/
def FaultKind.code : FaultKind → Nat
  | .zeroTime => 0
  | .timeOverflow => 1
  | .periodOverflow => 2
  | .zeroPeriod => 3
  | .dmaSpacing => 4

/-- The fault's bit of `FAULT`. -/
def FaultKind.bit (k : FaultKind) : BitVec 5 := BitVec.twoPow 5 k.code

/-- The `FLAGS` word: bit 0 `COMMIT_PENDING`, bit 1 `FRESH_SEQUENCE`, bit 2 `NEEDS_CORRECTION`. -/
def flagsWord (s : State) : BitVec 3 :=
  BitVec.ofBool s.needsCorrection ++ BitVec.ofBool s.freshSequence ++ BitVec.ofBool s.commitPending

/-- The `TIM_CR` word: bit 0 `CEN`, bit 1 `OPM` (R34). -/
def timCrWord (s : State) : BitVec 2 := BitVec.ofBool s.timOpm ++ BitVec.ofBool s.timCen

/-- `FLAGS.COMMIT_PENDING <- 1` (SETCH and SETPER, R24). -/
def markPending (s : State) : State := { s with commitPending := true }

/-- `FLAGS.FRESH_SEQUENCE <- 1` (every START and STOP on completion, R25). -/
def markFresh (s : State) : State := { s with freshSequence := true }

/-- `FLAGS.NEEDS_CORRECTION <- 1` and `FLAGS.FRESH_SEQUENCE <- 0`, the flags of a sequence's first SETCH
(R111). -/
def beginSequence (s : State) : State := { s with needsCorrection := true, freshSequence := false }

end Sys2Proof.Machine
end

