-- ==== Sys2Proof/Machine/Operands.lean ====
section
/-! DEFINITION. The operand forms of the commands (30_encoding.md R86) and the reply words (R95, R96). -/

namespace Sys2Proof.Machine

/-- A channel operand is in range when `ch < CHANNEL_COUNT` (R110, R212). -/
def channelInRange (c : Config) (ch : BitVec 8) : Bool := decide (ch.toNat < c.channelCount)

/-- The times a SETCH uses: the first `k = min(count, MAX_TOGGLES)` (R110, R117 item 7). -/
def usedTimes (c : Config) (times : List Word) : List Word := times.take c.maxToggles

/-- Some used time is 0 (R116). -/
def hasZeroTime (c : Config) (times : List Word) : Bool := (usedTimes c times).any (· == 0)

/-- The values a SETCH merges, each with the bit of its position in the list (R110, R112). -/
def toggles (c : Config) (ch : BitVec 8) (times : List Word) : List (Word × Word) :=
  (usedTimes c times).zipIdx.map fun ti => (ti.1, toggleBit c ch.toNat ti.2)

/-- `{a, b, n}`, the header word `(a << 24) | (b << 16) | n` of a response line: opcode in bits 31:24,
channel in 23:16, count in 15:0 (R95, R96). A count that does not fit its 16 bits has no stated header: a
free value (log 8). -/
def replyHeader (a : BitVec 8) (b n : Nat) : Word :=
  if n < 2 ^ 16 then a ++ BitVec.ofNat 8 b ++ BitVec.ofNat 16 n
  else Config.overlongHeader a b n

/-- A response line: its header and its payload words (R95). -/
def replyLine (opcode : BitVec 8) (ch : Nat) (payload : List Word) : List Word :=
  replyHeader opcode ch payload.length :: payload

/-- The period line, the reply of SETPER (0x03) and GETPER (0x05) (R96). -/
def periodLine (opcode : BitVec 8) (s : State) : List Word := replyLine opcode 0 [s.periodUs]

end Sys2Proof.Machine
end

