-- ==== Sys2Proof/Machine/Ops.lean ====
section
/-! DEFINITION. The shared operations of the three agents: the outcomes of R11 with the one operation that
takes a fault, the command agent's own moves, the GPIO set/reset write, and `Reset()`. -/

namespace Sys2Proof.Machine

/-- The outcomes of an agent's step in R11, before they are settled against the state the step began
in; `stop` is the model's own, for an access outside a table space. -/
inductive Result where
  /-- `Next(s')`. -/
  | next (s : State)
  /-- `Hold`: the agent has no step now. -/
  | hold
  /-- `Fault(kind)`. -/
  | raise (k : FaultKind)
  /-- `Refuse(reason)`. -/
  | refuse (r : Refusal)
  /-- The step would reach outside a table space. -/
  | stop (f : Fault)
deriving DecidableEq, Repr

/-- One part of a step after another: a part that is not a next state ends the step, and none of the
writes before it take effect (R161, all-or-nothing). -/
def Result.andThen (r : Result) (k : State → Result) : Result :=
  match r with
  | .next s => k s
  | .hold => .hold
  | .raise f => .raise f
  | .refuse e => .refuse e
  | .stop f => .stop f

/-- TAKING A FAULT: the one bit of `FAULT` is set and nothing else changes (R11, R242). There is no return
from a fault and no saved state (R247, R248); the bit is never cleared (R28). -/
def raiseFault (k : FaultKind) (s : State) : State := { s with fault := s.fault ||| k.bit }

/-- The outcome of a step that began in `s` (R11). A hold leaves the state as it is: the agent has no
step, and a later turn tries again (log 4). -/
def settle (s : State) : Result → Host.Outcome State Fault Refusal
  | .next t => .next t
  | .hold => .next s
  | .raise k => .next (raiseFault k s)
  | .refuse r => .refused r
  | .stop f => .fault f

/-- A command's step: refused outright under an invalid configuration (R243), else its outcome. -/
def runCommand (s : State) (r : Result) : Host.Outcome State Fault Refusal :=
  if s.cfg.valid then settle s r else .refused .configInvalid

/-- `CMD_PC <- CMD_PC + n` (R92). -/
def advance (n : Nat) (s : State) : State := { s with cmdPc := s.cmdPc + n }

/-- `reply(w0, ..., wn)`: appends the words to `RESP_OUT` (R95). -/
def reply (ws : List Word) (s : State) : State := { s with respOut := s.respOut ++ ws }

/-- A write of `m` to `GPIO_BSRR` (R38, R66, R186). -/
def bsrrWrite (m : Word) (s : State) : State := { s with gpioOdr := odrApply s.gpioOdr m }

/-- An entry number past the end of a table space (R60). A count of entries may equal `MAX_STATES`. -/
def countOutside (s : State) (n : Nat) : Bool := decide (s.cfg.maxStates < n)

/-- `Reset()` (R270): every element at its reset value. `FAULT`, `CMD_IN` and `RESP_OUT` are not touched,
and `CMD_PC` is set by the caller. -/
def resetBlock (s : State) : State :=
  { s with
    engState := .idle
    commitPending := false
    freshSequence := true
    needsCorrection := false
    periodUs := s.cfg.resetPeriodUs
    timCnt := 0
    timPeriod := 0
    timCcr := 0
    timCen := false
    timOpm := false
    dmaEn := false
    dmaLen := 0
    dmaIdx := 0
    gpioOdr := idleLevels s.cfg
    shadow := s.shadow.clearTable s.cfg
    shadowCount := 0
    live := s.live.clearTable s.cfg }

end Sys2Proof.Machine
end

