-- ==== Sys2Proof/Machine/ConfigCommands.lean ====
section
/-! DEFINITION. SETCH with its merge-insert, and SETPER (40_config_commands.md rules R110 to R120). -/

namespace Sys2Proof.Machine

/-- `FreshSequenceCheck()` (R111). -/
def freshSequenceCheck (s : State) : State :=
  if s.freshSequence then
    beginSequence { s with shadow := s.shadow.clearTable s.cfg, shadowCount := 0 }
  else s

/-- `Insert(pos, t, b)`: dropped silently when the table is full (R113, R114). -/
def insertEntry (pos : Nat) (t b : Word) (s : State) : State :=
  if s.cfg.maxStates ≤ s.shadowCount then s
  else
    { s with
      shadow := (s.shadow.shiftUp pos (s.shadowCount - pos)).setEntry pos ⟨t, b⟩
      shadowCount := s.shadowCount + 1 }

/-- `minT` (R113): 0 when the table is empty, since it is cleared. -/
def minTime (s : State) : Word := s.shadow.timeAt 0

/-- `maxT` (R113): the zero sentinel when the table is empty. -/
def maxTime (s : State) : Word := if s.shadowCount = 0 then 0 else s.shadow.timeAt (s.shadowCount - 1)

/-- The entry below `n` whose time is `t` (R113). -/
def entryWithTime (s : State) (t : Word) : Option Nat :=
  (List.range s.shadowCount).find? fun j => s.shadow.timeAt j == t

/-- `min { j < n : shadow[j].time > t }` (R113). The minimum exists wherever the rule asks for it with
`t >= 1`; `n` stands for a missing one (log 21). -/
def firstAbove (s : State) (t : Word) : Nat :=
  ((List.range s.shadowCount).find? fun j => decide (t < s.shadow.timeAt j)).getD s.shadowCount

/-- `shadow[j].mask <- shadow[j].mask | b` (R113). -/
def orMask (j : Nat) (b : Word) (s : State) : State :=
  { s with shadow := s.shadow.setMask j (s.shadow.maskAt j ||| b) }

/-- `MergeInsert(t, b)` (R113). -/
def mergeInsert (t b : Word) (s : State) : State :=
  if t < minTime s then insertEntry 0 t b s
  else if maxTime s < t then insertEntry s.shadowCount t b s
  else
    match entryWithTime s t with
    | some j => orMask j b s
    | none => insertEntry (firstAbove s t) t b s

/-- The merges of one SETCH, in list order (R110). -/
def mergeAll (tbs : List (Word × Word)) (s : State) : State :=
  tbs.foldl (fun s tb => mergeInsert tb.1 tb.2 s) s

/-- SETCH's effect on an in-range channel, after the zero check (R110). -/
def setchStaged (ch : BitVec 8) (times : List Word) (s : State) : State :=
  mergeAll (toggles s.cfg ch times) (markPending (freshSequenceCheck s))

/-- SETCH (R110 to R117). -/
def setchResult (ch : BitVec 8) (times : List Word) (s : State) : Result :=
  if !channelInRange s.cfg ch then .next (advance (1 + times.length) s)
  else if hasZeroTime s.cfg times then .raise .zeroTime
  else if countOutside s (freshSequenceCheck s).shadowCount then .stop .tableBounds
  else
    .next (advance (1 + times.length)
      (reply (replyLine 0x04 ch.toNat (usedTimes s.cfg times)) (setchStaged ch times s)))

/-- The meaning of SETCH (R110). -/
def execSetch (ch : BitVec 8) (times : List Word) (s : State) : Host.Outcome State Fault Refusal :=
  runCommand s (setchResult ch times s)

/-- `PERIOD_US <- p` and the pending flag, for a non-zero `p` (R120). -/
def stagePeriod (p : Word) (s : State) : State :=
  if p = 0 then s else markPending { s with periodUs := p }

/-- The meaning of SETPER (R120). -/
def execSetper (p : Word) (s : State) : Host.Outcome State Fault Refusal :=
  runCommand s (.next (advance 2 (reply (periodLine 0x03 (stagePeriod p s)) (stagePeriod p s))))

end Sys2Proof.Machine
end

