-- ==== Sys2Proof/Machine/Commit.lean ====
section
/-! DEFINITION. The commit and TimeCorrection (41_commit.md rules R140 to R148). -/

namespace Sys2Proof.Machine

/-- `t x TICK_MULT`, on unbounded naturals (R13, R143). -/
def scaledTime (c : Config) (t : Word) : Nat := t.toNat * c.tickMult

/-- The scaled time as it is stored in a 32-bit `time` field; one that does not fit is a free value
(log 7). It always fits when `TIMER_BITS <= 32`, by the check of R144. -/
def storedTime (n : Nat) : Word := if n < 2 ^ 32 then BitVec.ofNat 32 n else Config.overlongTime n

/-- `for j in 0 .. d-1: shadow[j].time <- shadow[j+1].time * TICK_MULT` (R143). -/
def rotateTimes (c : Config) (d : Nat) (m : Memory) : Memory :=
  (List.range d).foldl (fun m j => m.setTime j (storedTime (scaledTime c (m.timeAt (j + 1))))) m

/-- `TimeCorrection()` of the first `n` entries (R143). -/
def timeCorrection (c : Config) (n : Nat) (m : Memory) : Memory :=
  if n = 0 then m
  else (rotateTimes c (n - 1) m).setTime (n - 1) (storedTime (scaledTime c (m.timeAt 0)))

/-- Some shadow time overflows the timer (R140, R144). -/
def timeOverflows (s : State) : Bool :=
  s.needsCorrection &&
    (List.range s.shadowCount).any fun j =>
      decide (2 ^ s.cfg.timerBits ≤ scaledTime s.cfg (s.shadow.timeAt j))

/-- `ptick = PERIOD_US * TICK_MULT` (R140, R145). -/
def periodTicks (s : State) : Nat := s.periodUs.toNat * s.cfg.tickMult

/-- The period overflows the timer (R146). -/
def periodOverflows (s : State) : Bool := decide (2 ^ s.cfg.timerBits ≤ periodTicks s)

/-- The shadow table the commit copies: corrected when `NEEDS_CORRECTION = 1`, else as it is (R142). -/
def correctedShadow (s : State) : Memory :=
  if s.needsCorrection then timeCorrection s.cfg s.shadowCount s.shadow else s.shadow

/-- The commit's writes, once its checks have passed (R140). -/
def committed (s : State) : State :=
  { s with
    shadow := correctedShadow s
    needsCorrection := false
    timPeriod := periodTicks s
    live := (correctedShadow s).copyTable s.cfg s.live
    dmaLen := s.shadowCount
    commitPending := false }

/-- `Commit()` (R140). The hold of the gate R141 is lifted by the timer agent's halting wrap, whose service
clears `DMA_EN` (R185). -/
def commit (s : State) : Result :=
  if s.dmaEn then .hold
  else if countOutside s s.shadowCount then .stop .tableBounds
  else if timeOverflows s then .raise .timeOverflow
  else if periodOverflows s then .raise .periodOverflow
  else .next (committed s)

end Sys2Proof.Machine
end

