-- ==== Sys2Proof/Machine/EngineCommands.lean ====
section
/-! DEFINITION. START with the arm step, and STOP (42_engine_commands.md rules R160 to R167;
43_playback.md rule R189). -/

namespace Sys2Proof.Machine

/-- The cycle length `L = TIM_PERIOD + CYCLE_EXTRA` (R181). -/
def cycleLength (s : State) : Nat := s.timPeriod + s.cfg.cycleExtra.val

/-- `T_k = live[(k - 1) mod N].time`, the counter value of a cycle's `k`-th event (R189). -/
def eventTime (s : State) (k : Nat) : Nat :=
  (s.live.timeAt ((k + s.dmaLen - 1) % s.dmaLen)).toNat

/-- `SpacingViolation()` (R189). The differences are exact, so each comparison is written with both
subtrahends moved across: `T_(k+1) - T_k <= d` and `(L - T_(N-1)) + T_0 <= d` (DEDUCED, log 10). -/
def spacingViolation (s : State) : Bool :=
  decide (1 ≤ s.dmaLen) &&
    ((List.range (s.dmaLen - 1)).any
        (fun k => decide (eventTime s (k + 1) ≤ eventTime s k + s.cfg.dmaLatencyTicks))
      || decide (cycleLength s + eventTime s 0
          ≤ eventTime s (s.dmaLen - 1) + s.cfg.dmaLatencyTicks))

/-- Arm's writes, once its checks have passed (R162). -/
def armed (s : State) : State :=
  { s with
    timCnt := 0
    dmaIdx := 0
    timCcr := if 0 < s.dmaLen then (s.live.timeAt (s.dmaLen - 1)).toNat else s.timCcr
    dmaEn := true
    timOpm := false
    timCen := true }

/-- `Arm()` (R162, R163, R189). -/
def arm (s : State) : Result :=
  if s.timPeriod = 0 then .raise .zeroPeriod
  else if countOutside s s.dmaLen then .stop .tableBounds
  else if decide (0 < s.cfg.dmaLatencyTicks) && spacingViolation s then .raise .dmaSpacing
  else .next (armed s)

/-- START's completion: `FRESH_SEQUENCE <- 1`, the reply and the next word (R161). -/
def startDone (s : State) : State := advance 1 (reply (replyLine 0x01 0 []) (markFresh s))

/-- START (R161). Its holds are lifted by the timer agent's halting wrap, whose service reaches IDLE
(R185). -/
def startResult (s : State) : Result :=
  match s.engState with
  | .stopRequested => .hold
  | .stopping => .hold
  | .running => .next (startDone s)
  | .idle =>
    (if s.commitPending then commit s else .next s).andThen fun s1 =>
      (arm s1).andThen fun s2 => .next (startDone { s2 with engState := .running })

/-- The meaning of START (R161). -/
def execStart (s : State) : Host.Outcome State Fault Refusal := runCommand s (startResult s)

/-- `ENG_STATE` after a STOP: STOP_REQUESTED from RUNNING, else unchanged (R165). -/
def stopRequest (s : State) : State :=
  match s.engState with
  | .running => { s with engState := .stopRequested }
  | .idle => s
  | .stopRequested => s
  | .stopping => s

/-- The meaning of STOP (R165). -/
def execStop (s : State) : Host.Outcome State Fault Refusal :=
  runCommand s (.next (advance 1 (reply (replyLine 0x02 0 []) (markFresh (stopRequest s)))))

end Sys2Proof.Machine
end

