-- ==== Sys2Proof/Machine/QueryCommands.lean ====
section
/-! DEFINITION. The readback and housekeeping commands (44_query_commands.md rules R210 to R224). -/

namespace Sys2Proof.Machine

/-- The time of entry `k` as it was sent: the one stored an index earlier, cyclically, divided by
`TICK_MULT` (R214). -/
def readbackTime (s : State) (k : Nat) : Word :=
  BitVec.ofNat 32 ((s.live.timeAt ((k + s.dmaLen - 1) % s.dmaLen)).toNat / s.cfg.tickMult)

/-- `ChannelTimes(ch)` (R214). -/
def channelTimes (s : State) (ch : Nat) : List Word :=
  ((List.range s.dmaLen).filter fun k => touches s.cfg (s.live.maskAt k) ch).map (readbackTime s)

/-- The channel line of GETCH and GETALL (R96). -/
def channelLine (s : State) (ch : Nat) : List Word := replyLine 0x06 ch (channelTimes s ch)

/-- GETALL's words: the period line, then a line for each channel with a toggle, ascending (R216). -/
def allLines (s : State) : List Word :=
  periodLine 0x05 s ++
    ((List.range s.cfg.channelCount).filter fun ch => !(channelTimes s ch).isEmpty).flatMap
      (channelLine s)

/-- The meaning of GETPER (R210). -/
def execGetper (s : State) : Host.Outcome State Fault Refusal :=
  runCommand s (.next (advance 1 (reply (periodLine 0x05 s) s)))

/-- GETCH (R212). -/
def getchResult (ch : BitVec 8) (s : State) : Result :=
  if !channelInRange s.cfg ch then .next (advance 1 s)
  else if countOutside s s.dmaLen then .stop .tableBounds
  else .next (advance 1 (reply (channelLine s ch.toNat) s))

/-- The meaning of GETCH (R212). -/
def execGetch (ch : BitVec 8) (s : State) : Host.Outcome State Fault Refusal :=
  runCommand s (getchResult ch s)

/-- GETALL (R216). -/
def getallResult (s : State) : Result :=
  if countOutside s s.dmaLen then .stop .tableBounds
  else .next (advance 1 (reply (allLines s) s))

/-- The meaning of GETALL (R216). -/
def execGetall (s : State) : Host.Outcome State Fault Refusal := runCommand s (getallResult s)

/-- The meaning of PING (R218). -/
def execPing (s : State) : Host.Outcome State Fault Refusal :=
  runCommand s (.next (advance 1 (reply (replyLine 0x08 0 []) s)))

/-- The meaning of SETADDR: no state of the block changes and the block sends no reply; the address and
its echo belong to the transport (R219, R4, log 20). -/
def execSetaddr (_addr : BitVec 8) (s : State) : Host.Outcome State Fault Refusal :=
  runCommand s (.next (advance 1 s))

/-- The meaning of GETADDR, as for SETADDR (R220). -/
def execGetaddr (s : State) : Host.Outcome State Fault Refusal := runCommand s (.next (advance 1 s))

/-- The meaning of RESET: the reply, then `Reset()`, then the word after it (R222). -/
def execReset (s : State) : Host.Outcome State Fault Refusal :=
  runCommand s (.next (advance 1 (resetBlock (reply (replyLine 0x0B 0 []) s))))

/-- The meaning of a reserved header: scanned past (R91, R224). -/
def execReserved (_opcode : BitVec 8) (s : State) : Host.Outcome State Fault Refusal :=
  runCommand s (.next (advance 1 s))

end Sys2Proof.Machine
end

