-- ==== Sys2Proof/Machine/Dispatch.lean ====
section
/-! DEFINITION. The meaning of each command, one arm per constructor of `Instr`. -/

namespace Sys2Proof.Machine

def exec (i : Instr) (s : State) : Host.Outcome State Fault Refusal :=
  match i with
  | .start => Sys2Proof.Machine.execStart s
  | .stop => Sys2Proof.Machine.execStop s
  | .setper value => Sys2Proof.Machine.execSetper value s
  | .setch ch times => Sys2Proof.Machine.execSetch ch times s
  | .getper => Sys2Proof.Machine.execGetper s
  | .getch ch => Sys2Proof.Machine.execGetch ch s
  | .getall => Sys2Proof.Machine.execGetall s
  | .ping => Sys2Proof.Machine.execPing s
  | .setaddr addr => Sys2Proof.Machine.execSetaddr addr s
  | .getaddr => Sys2Proof.Machine.execGetaddr s
  | .reset => Sys2Proof.Machine.execReset s
  | .reserved opcode => Sys2Proof.Machine.execReserved opcode s

end Sys2Proof.Machine
end

