-- ==== Sys2Proof/Machine/Playback.lean ====
section
/-! DEFINITION. The timer agent's step: counter, compare event with its DMA transfer, wrap service
(43_playback.md rules R180 to R188; the interrupts of 60_exceptions.md rules R244 to R246). -/

namespace Sys2Proof.Machine

/-- Whether the counter's step is a wrap (R181). -/
def wraps (s : State) : Bool := decide (cycleLength s ≤ s.timCnt + 1)

/-- `CounterStep()` (R181). -/
def counterStep (s : State) : State := { s with timCnt := if wraps s then 0 else s.timCnt + 1 }

/-- A compare event that moves an entry: the counter has just taken the compare value, the DMA is enabled
and the live table is not empty (R182, R184). -/
def transferDue (s : State) : Bool := s.timCnt == s.timCcr && s.dmaEn && decide (0 < s.dmaLen)

/-- The DMA transfer of entry `DMA_IDX`: its mask to `GPIO_BSRR`, its time to `TIM_CCR`, and the index on,
modulo `DMA_LEN` (R182, R183). -/
def dmaTransfer (s : State) : State :=
  { bsrrWrite (s.live.maskAt s.dmaIdx) s with
    timCcr := (s.live.timeAt s.dmaIdx).toNat
    dmaIdx := (s.dmaIdx + 1) % s.dmaLen }

/-- `CompareStep()` (R182). -/
def compareStep (s : State) : Result :=
  if !transferDue s then .next s
  else if countOutside s (s.dmaIdx + 1) then .stop .tableBounds
  else .next (dmaTransfer s)

/-- The halt of a one-shot timer at its wrap (R185; the hardware's clearing of `CEN` is PRESUMED by the
spec itself, log 13). -/
def halt (s : State) : State :=
  { bsrrWrite (idleMask s.cfg) s with
    timCen := false
    dmaEn := false
    timOpm := false
    engState := .idle }

/-- `WrapService()` (R185). In IDLE it does nothing: the case is unreachable (log 22). -/
def wrapService (s : State) : State :=
  match s.engState with
  | .running => s
  | .stopRequested => { s with timOpm := true, engState := .stopping }
  | .stopping => halt s
  | .idle => s

/-- `Tick()`: counter, compare, wrap service, in one atomic step (R180, R246). -/
def tick (s : State) : Result :=
  (compareStep (counterStep s)).andThen fun s1 => .next (if wraps s then wrapService s1 else s1)

/-- The timer agent's step: it has one exactly when `TIM_CR.CEN = 1` (R10, R180). The hold at `CEN = 0` is
lifted by the command agent's START, whose arm sets `CEN` (R161, R162). -/
def timerResult (s : State) : Result := if s.timCen then tick s else .hold

end Sys2Proof.Machine
end

