-- ==== Sys2Proof/Machine/Agents.lean ====
section
/-! DEFINITION. The three agents and their turns (00_scope.md rules R9 to R11, 10_state.md rules R40 and
R41, 30_encoding.md rule R92): what each does when it is its turn, and whose turn it is. -/

namespace Sys2Proof.Machine

/-- The command agent's fetch: the command at `CMD_PC`, once all of its words are present (R41, R92). -/
def fetch (s : State) : Option Instr :=
  match decode (s.cmdIn.drop s.cmdPc) with
  | .ok (i, _) => some i
  | .error _ => none

/-- The host's append (R41). -/
def hostAppend (ws : List Word) (s : State) : State := { s with cmdIn := s.cmdIn ++ ws }

/-- The command agent's turn: it executes the command at `CMD_PC`, or holds until the host has appended
all of it (R41). -/
def commandTurn (s : State) : Host.Outcome State Fault Refusal :=
  match fetch s with
  | some i => exec i s
  | none => .next s

/-- An agent's turn. Under an invalid configuration no agent has a meaning (R243, log 18). -/
def turn (t : Turn) (s : State) : Host.Outcome State Fault Refusal :=
  if s.cfg.valid then
    match t with
    | .host ws => .next (hostAppend ws s)
    | .command => commandTurn s
    | .timer => settle s (timerResult s)
  else .refused .configInvalid

/-- The turn taken when the schedule fixes none: a free value, so any agent's, with any words of the host
(log 3). -/
def freeTurn (s : State) : Turn :=
  if Config.freeAgent s.turnCount = 0 then .host (Config.freeWords s.turnCount)
  else if Config.freeAgent s.turnCount = 1 then .command
  else .timer

/-- The turn taken next. -/
def nextTurn (s : State) : Turn := s.schedule.headD (freeTurn s)

/-- The state in which it is taken: its turn is gone from the schedule, or is counted if none fixed it. -/
def turnTaken (s : State) : State :=
  { s with
    schedule := s.schedule.tail
    turnCount := if s.schedule.isEmpty then s.turnCount + 1 else s.turnCount }

/-- `CMD_IN` with the words `ws` at `CMD_PC`, the words before it and after them as they are; positions
the host has not reached are filled with zero words. -/
def placeWords (ws : List Word) (s : State) : List Word :=
  s.cmdIn.take s.cmdPc ++ List.replicate (s.cmdPc - s.cmdIn.length) 0 ++ ws
    ++ s.cmdIn.drop (s.cmdPc + ws.length)

/-- The words of a table instruction: as many as its header's length asks for (R92). -/
def fetchWords (nbits w : Nat) : List Word :=
  (tableWords nbits w).take (commandLength ((tableWords nbits w).headD 0))

/-- The interface functions of the source, which the protocol layer calls (R3, R15). -/
inductive ApiCall where
  | setPeriod (periodUs : Word)
  | setChannel (channel : BitVec 8) (times : List Word)
  | setChannelToggles (channel : BitVec 8) (times : List Word)
  | start
  | stop
  | getPeriod
  | getChannel (channel : BitVec 8)
  | getAllSettings
deriving DecidableEq, Repr

/-- The command each interface function maps to; `sortedTimesIgnored` is its default (R15). -/
def apiCommand : ApiCall → Instr
  | .setPeriod p => .setper p
  | .setChannel ch times => .setch ch times
  | .setChannelToggles ch times => .setch ch times
  | .start => .start
  | .stop => .stop
  | .getPeriod => .getper
  | .getChannel ch => .getch ch
  | .getAllSettings => .getall

end Sys2Proof.Machine
end

