-- ==== Sys2Proof/Machine/Step.lean ====
section
/-! DEFINITION. One step of the machine, and the host's window for a single instruction. -/

namespace Sys2Proof.Machine

/-- One step: the agent whose turn it is takes its turn (R9 to R11). -/
def step (s : State) : Host.Outcome State Fault Refusal := turn (nextTurn s) (turnTaken s)

/-- The state in which the instruction's words stand at `CMD_PC` and the command agent's turn is next, so
that the very next step fetches and runs exactly it (log 16). -/
def State.withFetchWord (s : State) (nbits w : Nat) : State :=
  { s with cmdIn := placeWords (fetchWords nbits w) s, schedule := .command :: s.schedule }

end Sys2Proof.Machine
end

