-- ==== Sys2Proof/Machine/RegisterMap.lean ====
section
/-! DEFINITION. The element numbers of 10_state.md rule R21, the register map of 60_exceptions.md rule
R262: what each element holds, and each element's width. The host cannot reach them. -/

namespace Sys2Proof.Machine

/-- `clog2(n)`: the least `w` with `n <= 2^w`. -/
def clog2 (n : Nat) : Nat := if n ≤ 1 then 0 else Nat.log2 (n - 1) + 1

/-- What an element of R21 holds. -/
inductive Element where
  /-- One number. -/
  | scalar (value : Nat)
  /-- A count and its table, `SHADOW_COUNT` and `shadow`. -/
  | countedTable (count : Nat) (entries : List EventEntry)
  /-- A table whose count is an element of its own, `live` with `DMA_LEN`. -/
  | table (entries : List EventEntry)
  /-- A port with no storage, which is never read (R38). -/
  | writeOnly
deriving DecidableEq, Repr

/-- `table[0..MAX_STATES-1]`. -/
def tableEntries (c : Config) (m : Memory) : List EventEntry := (List.range c.maxStates).map m.entry

/-- What the element with this number holds (R21). None for a number that names no element. -/
def elementValue (s : State) (no : Nat) : Option Element :=
  if no = 0x00 then some (.scalar s.engState.code.toNat)
  else if no = 0x01 then some (.scalar (flagsWord s).toNat)
  else if no = 0x02 then some (.scalar s.periodUs.toNat)
  else if no = 0x03 then some (.scalar s.fault.toNat)
  else if no = 0x10 then some (.scalar s.timCnt)
  else if no = 0x11 then some (.scalar s.timPeriod)
  else if no = 0x12 then some (.scalar s.timCcr)
  else if no = 0x13 then some (.scalar (timCrWord s).toNat)
  else if no = 0x20 then some (.scalar s.dmaEn.toNat)
  else if no = 0x21 then some (.scalar s.dmaLen)
  else if no = 0x22 then some (.scalar s.dmaIdx)
  else if no = 0x30 then some (.scalar s.gpioOdr.toNat)
  else if no = 0x31 then some .writeOnly
  else if no = 0x40 then some (.countedTable s.shadowCount (tableEntries s.cfg s.shadow))
  else if no = 0x41 then some (.table (tableEntries s.cfg s.live))
  else if no = 0x50 then some (.scalar s.cmdPc)
  else none

/-- The width of the element with this number, in bits (R21). None for `CMD_PC`, which is unbounded, and
for a number that names no element. -/
def elementWidth (c : Config) (no : Nat) : Option Nat :=
  if no = 0x00 then some 2
  else if no = 0x01 then some 3
  else if no = 0x02 then some 32
  else if no = 0x03 then some 5
  else if no = 0x10 then some c.timerBits
  else if no = 0x11 then some c.timerBits
  else if no = 0x12 then some c.timerBits
  else if no = 0x13 then some 2
  else if no = 0x20 then some 1
  else if no = 0x21 then some (clog2 (c.maxStates + 1))
  else if no = 0x22 then some (clog2 c.maxStates)
  else if no = 0x30 then some 16
  else if no = 0x31 then some 32
  else if no = 0x40 then some (clog2 (c.maxStates + 1) + c.maxStates * 64)
  else if no = 0x41 then some (c.maxStates * 64)
  else none

end Sys2Proof.Machine
end

