-- ==== Sys2Proof/Safety.lean ====
section
/-! DEFINITION. What counts as a good state and a good run, in the terms the statements use: the invariants
of 10_state.md (R23, R33, R39), the widths of R21, the spacing of events (43_playback.md R189), runs of ticks,
fair runs (00_scope.md R10), and what the host can observe (R42, R46, 60_exceptions.md R242). -/

namespace Sys2Proof.Machine

/-- The table of R23: `DMA_EN`, `TIM_CR.CEN` and `TIM_CR.OPM` in each `ENG_STATE`. -/
def engineModes (s : State) : Bool :=
  match s.engState with
  | .idle => !s.dmaEn && !s.timCen && !s.timOpm
  | .running => s.dmaEn && s.timCen && !s.timOpm
  | .stopRequested => s.dmaEn && s.timCen && !s.timOpm
  | .stopping => s.dmaEn && s.timCen && s.timOpm

/-- Both table spaces are in canonical form. -/
def memoriesCanonical (s : State) : Bool := s.shadow.wf && s.live.wf

/-- The first `n` entries of a table have strictly increasing times (R39, R118). -/
abbrev TimesIncrease (m : Memory) (n : Nat) : Prop :=
  ∀ k, k < n → ∀ j, j < k → m.timeAt j < m.timeAt k

/-- The first `n` entries of a table have non-zero times (R118). -/
abbrev TimesNonzero (m : Memory) (n : Nat) : Prop := ∀ j, j < n → m.timeAt j ≠ 0

/-- The first `n` entries of a table have times that fit the timer's registers (R144). -/
abbrev TimesFit (c : Config) (m : Memory) (n : Nat) : Prop :=
  ∀ j, j < n → (m.timeAt j).toNat < 2 ^ c.timerBits

/-- Every entry from `n` on is `(0, 0)` (R39). -/
def TailClear (m : Memory) (n : Nat) : Prop := ∀ k, n ≤ k → m.entry k = ⟨0, 0⟩

/-- The invariants of the tables and their counts. The order of the shadow table is claimed only while it
holds uncorrected times: TimeCorrection rotates it (log 11). -/
structure TableInv (s : State) : Prop where
  canonical : memoriesCanonical s = true
  shadowCount_le : s.shadowCount ≤ s.cfg.maxStates
  dmaLen_le : s.dmaLen ≤ s.cfg.maxStates
  dmaIdx_lt : s.dmaIdx = 0 ∨ s.dmaIdx < s.dmaLen
  tail : TailClear s.shadow s.shadowCount
  staged : s.freshSequence = false → s.needsCorrection = true
  increase : s.needsCorrection = true → TimesIncrease s.shadow s.shadowCount
  nonzero : s.needsCorrection = true → TimesNonzero s.shadow s.shadowCount

/-- The invariants of the timer: its registers fit `TIMER_BITS`, the counter runs below the cycle length,
and it stands at 0 while it is disabled (R21, R30, R31, R32, R181, R185). -/
structure TimerInv (s : State) : Prop where
  cnt : s.timCnt < 2 ^ s.cfg.timerBits
  period : s.timPeriod < 2 ^ s.cfg.timerBits
  ccr : s.timCcr < 2 ^ s.cfg.timerBits
  liveFit : TimesFit s.cfg s.live s.dmaLen
  shadowFit : s.needsCorrection = false → TimesFit s.cfg s.shadow s.shadowCount
  counting : s.timCen = true → 0 < s.timPeriod ∧ s.timCnt < cycleLength s
  stopped : s.timCen = false → s.timCnt = 0

/-- The invariant of the block. -/
structure BlockInv (s : State) : Prop where
  config : s.cfg.valid = true
  modes : engineModes s = true
  tables : TableInv s
  timer : TimerInv s

/-- `n` steps of the timer agent in a row, with no step of another agent between them. -/
def ticks : Nat → State → Result
  | 0, s => .next s
  | n + 1, s => (timerResult s).andThen (ticks n)

/-- A run: `r i` is the state before turn `t i`, and each turn has a next state (R9, R10). -/
def IsRun (r : Nat → State) (t : Nat → Turn) : Prop := ∀ i, turn (t i) (r i) = .next (r (i + 1))

/-- Weak fairness of the timer agent: from any point on at which it stays enabled, it takes a turn
(R10, D49). -/
def FairToTimer (r : Nat → State) (t : Nat → Turn) : Prop :=
  ∀ i, (∀ j, i ≤ j → (r j).timCen = true) → ∃ j, i ≤ j ∧ t j = .timer

/-- `T_k`, the counter value of a cycle's `k`-th event over a table of `n` entries (R189). -/
def cyclicTime (m : Memory) (n k : Nat) : Nat := (m.timeAt ((k + n - 1) % n)).toNat

/-- `T_k` over the table a commit leaves: the `k`-th shadow time scaled, if the commit corrects the shadow
(R142, R147; a scaled time past its field is a free value, log 7), else as the shadow stands. -/
def committedTime (s : State) (k : Nat) : Nat :=
  if s.needsCorrection then (storedTime ((s.shadow.timeAt k).toNat * s.cfg.tickMult)).toNat
  else cyclicTime s.shadow s.shadowCount k

/-- R189 in the spec's own form, over `n` events at the counter values `T` in a cycle of `L` ticks: with a
DMA latency `d` above 0, two successive events, or the last and the first across the cycle, are no further
apart than `d`. The differences are exact (DEDUCED, log 10). -/
abbrev EventsTooClose (d n L : Nat) (T : Nat → Nat) : Prop :=
  0 < d ∧ 1 ≤ n ∧
    ((∃ k, k < n - 1 ∧ (T (k + 1) : Int) - T k ≤ d) ∨ ((L : Int) - T (n - 1)) + T 0 ≤ d)

/-- No fault bit is set (R242): a state with one is never final. -/
def faultFree (s : State) : Bool := s.fault == 0

/-- What the host and the pins can see (R42, R46, D42). -/
def observe (s : State) : List Word × Levels := (s.respOut, s.gpioOdr)

/-- What the first `n` entries of a table do at a time: the OR of the masks of the entries there, 0 when
there is none (R118). -/
def maskForTime (m : Memory) (n : Nat) (t : Word) : Word :=
  ((List.range n).filter fun j => m.timeAt j == t).foldl (fun acc j => acc ||| m.maskAt j) 0

/-- The OR of the bits a list of merges gives a time value (R118). -/
def bitsForTime (tbs : List (Word × Word)) (t : Word) : Word :=
  (tbs.filter fun tb => tb.1 == t).foldl (fun acc tb => acc ||| tb.2) 0

end Sys2Proof.Machine
end

