-- ==== Sys2Proof/Certificates/Slice0/Obligations.lean ====
section
/-! DEFINITION. The statements for the provers. Each docstring names the rules of spec/ it formalises. The
header words of replies are written out from 30_encoding.md R95 and R96. -/

open Sys2Proof Sys2Proof.Machine

/-! ## Steps, fetch and decoding -/

/-- R41, R92: when the words at `CMD_PC` decode to a command and it is the command agent's turn, scheduled or
free, the step is that command's meaning in the state with the turn taken. Taking a turn drops it from the
schedule, or counts it if none fixed it, and changes nothing else (the model's form of R10, log 3). -/
def Obligations.StepRunsTheFetchedCommand : Prop :=
  (∀ (s : State) (i : Instr) (rest : List Word),
    s.cfg.valid = true → nextTurn s = .command →
    decode (s.cmdIn.drop s.cmdPc) = .ok (i, rest) →
    step s = exec i (turnTaken s)) ∧
  (∀ (s : State) (t : Turn) (ts : List Turn), s.schedule = t :: ts →
    nextTurn s = t ∧ turnTaken s = { s with schedule := ts }) ∧
  (∀ s : State, s.schedule = [] → turnTaken s = { s with turnCount := s.turnCount + 1 })

/-- R90, R86: some words written out from the encoding tables, and the commands they stand for. -/
def Obligations.CommandWordsDecode : Prop :=
  decode [0x01000000#32] = .ok (.start, []) ∧
  decode [0x02000000#32] = .ok (.stop, []) ∧
  decode [0x03000000#32, 0x00009C40#32] = .ok (.setper 40000#32, []) ∧
  decode [0x04050002#32, 0x000001EA#32, 0x000001F6#32, 0x01000000#32] =
    .ok (.setch 5#8 [490#32, 502#32], [0x01000000#32]) ∧
  decode [0x06C80000#32] = .ok (.getch 200#8, []) ∧
  decode [0x09000005#32] = .ok (.setaddr 5#8, []) ∧
  decode [0x0C000000#32] = .ok (.reserved 0x0C#8, [])

/-- R41, R92: the command agent holds while the header or an operand word of the command at `CMD_PC` is
missing; the host's turn appends to `CMD_IN` and changes nothing else. Each turn may be scheduled or free
(log 3). -/
def Obligations.IncompleteCommandHolds : Prop :=
  (∀ s : State, s.cfg.valid = true → nextTurn s = .command →
    s.cmdIn.length ≤ s.cmdPc → step s = .next (turnTaken s)) ∧
  (∀ (s : State) (h : Word) (ops : List Word),
    s.cfg.valid = true → nextTurn s = .command →
    s.cmdIn.drop s.cmdPc = h :: ops → 1 + ops.length < commandLength h →
    step s = .next (turnTaken s)) ∧
  (∀ (s : State) (ws : List Word),
    s.cfg.valid = true → nextTurn s = .host ws →
    step s = .next { turnTaken s with cmdIn := s.cmdIn ++ ws })

/-- R243, R7, R8: a configuration that breaks a constraint has no meaning: every command and every step is
refused with `ConfigInvalid`. -/
def Obligations.InvalidConfigIsRefused : Prop :=
  ∀ (s : State) (i : Instr),
    (s.cfg.channelCount = 0 ∨ 16 < s.cfg.channelCount ∨
      (∃ c, c < s.cfg.channelCount ∧ 16 ≤ s.cfg.pin c) ∨
      (∃ c d, c < d ∧ d < s.cfg.channelCount ∧ s.cfg.pin c = s.cfg.pin d) ∨
      s.cfg.tickMult = 0 ∨ s.cfg.maxStates = 0 ∨ s.cfg.maxToggles = 0) →
    exec i s = .refused .configInvalid ∧ step s = .refused .configInvalid

/-- R84 to R92: decoding the words of a well-formed command, with any words after them, gives the command
and those words back, whatever its operands. -/
def Obligations.DecodeOfEncodeIsTheCommand : Prop :=
  ∀ (i : Instr) (rest : List Word), i.wf = true → decode (encode i ++ rest) = .ok (i, rest)

/-- R93: two headers that agree in the opcode and in the fields their format names decode to the same
command, whatever their ignored bits. -/
def Obligations.IgnoredBitsMeanNothing : Prop :=
  ∀ (h h' : Word) (ws : List Word),
    h.extractLsb' 24 8 = h'.extractLsb' 24 8 →
    (h.extractLsb' 24 8 = 0x04#8 → h.extractLsb' 16 8 = h'.extractLsb' 16 8 ∧
      h.extractLsb' 0 8 = h'.extractLsb' 0 8) →
    (h.extractLsb' 24 8 = 0x06#8 → h.extractLsb' 16 8 = h'.extractLsb' 16 8) →
    (h.extractLsb' 24 8 = 0x09#8 → h.extractLsb' 0 8 = h'.extractLsb' 0 8) →
    decode (h :: ws) = decode (h' :: ws)

/-- R91, R92, R243: every header with its operand words decodes to a well-formed command of the length R92
gives, and the words after it are left. -/
def Obligations.EveryHeaderDecodes : Prop :=
  ∀ (h : Word) (ops rest : List Word),
    1 + ops.length =
      (if h.extractLsb' 24 8 = 0x03#8 then 2
        else if h.extractLsb' 24 8 = 0x04#8 then 1 + (h.extractLsb' 0 8).toNat else 1) →
    ∃ i, decode (h :: (ops ++ rest)) = .ok (i, rest) ∧ i.wf = true ∧ i.words = 1 + ops.length ∧
      (reservedOpcode (h.extractLsb' 24 8) = true → i = .reserved (h.extractLsb' 24 8))

/-- R63: words carried as four bytes each, least significant first, are read back as the same words. -/
def Obligations.ByteTransportRoundTrip : Prop :=
  ∀ ws : List Word, wordsOfBytes (ws.flatMap bytesOfWord) = ws

/-! ## Reset -/

/-- R270, R271, R272: the state at the start of a run. -/
def Obligations.StartOfRunValues : Prop :=
  ∀ (c : Config) (ws : List Word) (ts : List Turn),
    (State.boot c ws ts).engState = .idle ∧
    flagsWord (State.boot c ws ts) = 0b010#3 ∧
    (State.boot c ws ts).periodUs = c.resetPeriodUs ∧
    (State.boot c ws ts).fault = 0 ∧
    (State.boot c ws ts).timCnt = 0 ∧ (State.boot c ws ts).timPeriod = 0 ∧
    (State.boot c ws ts).timCcr = 0 ∧ timCrWord (State.boot c ws ts) = 0 ∧
    (State.boot c ws ts).dmaEn = false ∧ (State.boot c ws ts).dmaLen = 0 ∧
    (State.boot c ws ts).dmaIdx = 0 ∧ (State.boot c ws ts).gpioOdr = idleLevels c ∧
    (∀ k, (State.boot c ws ts).shadow.entry k = ⟨0, 0⟩) ∧ (State.boot c ws ts).shadowCount = 0 ∧
    (∀ k, (State.boot c ws ts).live.entry k = ⟨0, 0⟩) ∧
    (State.boot c ws ts).cmdPc = 0 ∧ (State.boot c ws ts).cmdIn = ws ∧
    (State.boot c ws ts).respOut = [] ∧
    resetBlock (State.boot c ws ts) = State.boot c ws ts

/-- R222, R270: RESET's encoding; it replies, resets every element and clears both tables, and keeps
`FAULT`, `CMD_IN` and `RESP_OUT`; the command after it is next. -/
def Obligations.ResetCommandResets : Prop :=
  (∀ (h : Word) (ws : List Word), h.extractLsb' 24 8 = 0x0B#8 → decode (h :: ws) = .ok (.reset, ws)) ∧
  ∀ s : State, s.cfg.valid = true → memoriesCanonical s = true →
    ∃ t, exec .reset s = .next t ∧
      t = { s with
        engState := .idle, commitPending := false, freshSequence := true, needsCorrection := false
        periodUs := s.cfg.resetPeriodUs, timCnt := 0, timPeriod := 0, timCcr := 0
        timCen := false, timOpm := false, dmaEn := false, dmaLen := 0, dmaIdx := 0
        gpioOdr := idleLevels s.cfg, shadow := t.shadow, shadowCount := 0, live := t.live
        respOut := s.respOut ++ [0x0B000000#32], cmdPc := s.cmdPc + 1 } ∧
      (∀ k, k < s.cfg.maxStates → t.shadow.entry k = ⟨0, 0⟩ ∧ t.live.entry k = ⟨0, 0⟩) ∧
      (∀ a, 8 * s.cfg.maxStates ≤ a →
        t.shadow.readByte a = s.shadow.readByte a ∧ t.live.readByte a = s.live.readByte a)

/-- R273: what the host observes right after reset: the period, the empty tables, the idle levels, and a
START that faults because no period has been committed. -/
def Obligations.HostSeesTheResetState : Prop :=
  ∀ (c : Config) (ws : List Word) (ts : List Turn) (s : State), c.valid = true →
    s = State.boot c ws ts →
    exec .getper s = .next { s with respOut := [0x05000001#32, c.resetPeriodUs], cmdPc := 1 } ∧
    (∀ ch : BitVec 8, ch.toNat < c.channelCount →
      exec (.getch ch) s = .next { s with respOut := [0x06#8 ++ ch ++ 0#16], cmdPc := 1 }) ∧
    exec .getall s = .next { s with respOut := [0x05000001#32, c.resetPeriodUs], cmdPc := 1 } ∧
    (∀ ch, ch < c.channelCount → s.gpioOdr.getLsbD (c.pin ch) = c.inv ch) ∧
    exec .start s = .next { s with fault := 0b01000#5 }

/-- R37, R270: `IDLE_LEVELS` has `inv(c)` at the pin of every channel and 0 at every other pin. -/
def Obligations.IdleLevelsOfEveryPin : Prop :=
  ∀ c : Config, c.valid = true →
    (∀ ch, ch < c.channelCount → (idleLevels c).getLsbD (c.pin ch) = c.inv ch) ∧
    (∀ p, p < 16 → (∀ ch, ch < c.channelCount → c.pin ch ≠ p) → (idleLevels c).getLsbD p = false)

/-! ## The GPIO set/reset write -/

/-- R186, R187: each pin's new level is a function of its old level and of its two mask bits alone. That set
wins is marked by the spec as general knowledge (log 12). -/
def Obligations.OdrApplyWorksLaneByLane : Prop :=
  ∀ (odr : Levels) (m : Word) (p : Nat), p < 16 →
    (odrApply odr m).getLsbD p =
      (if m.getLsbD p then true else if m.getLsbD (16 + p) then false else odr.getLsbD p)

/-- R188: after `ODR_apply(IDLE_MASK)` every channel's pin is at its idle level, and a pin that no channel
uses keeps its level. -/
def Obligations.IdleMaskForcesIdleLevels : Prop :=
  ∀ (c : Config) (odr : Levels), c.valid = true →
    (∀ ch, ch < c.channelCount → (odrApply odr (idleMask c)).getLsbD (c.pin ch) = c.inv ch) ∧
    (∀ p, p < 16 → (∀ ch, ch < c.channelCount → c.pin ch ≠ p) →
      (odrApply odr (idleMask c)).getLsbD p = odr.getLsbD p)

/-! ## Configuration commands -/

/-- R120: SETPER's encoding and its whole effect. -/
def Obligations.SetperStagesThePeriod : Prop :=
  (∀ (h p : Word) (ws : List Word), h.extractLsb' 24 8 = 0x03#8 →
    decode (h :: p :: ws) = .ok (.setper p, ws)) ∧
  ∀ (s : State) (p : Word), s.cfg.valid = true →
    exec (.setper p) s = .next { s with
      periodUs := if p = 0 then s.periodUs else p
      commitPending := if p = 0 then s.commitPending else true
      respOut := s.respOut ++ [0x03000001#32, if p = 0 then s.periodUs else p]
      cmdPc := s.cmdPc + 2 }

/-- R110, R212: SETCH and GETCH of a channel out of range only move on to the next command. -/
def Obligations.OutOfRangeChannelIsNoOp : Prop :=
  ∀ (s : State) (ch : BitVec 8), s.cfg.valid = true → s.cfg.channelCount ≤ ch.toNat →
    (∀ times, exec (.setch ch times) s = .next { s with cmdPc := s.cmdPc + 1 + times.length }) ∧
    exec (.getch ch) s = .next { s with cmdPc := s.cmdPc + 1 }

/-- R116: a zero among the used times of an in-range SETCH raises `ZERO_TIME`, and nothing else changes. -/
def Obligations.ZeroTimeFaults : Prop :=
  ∀ (s : State) (ch : BitVec 8) (times : List Word), s.cfg.valid = true →
    ch.toNat < s.cfg.channelCount → (0 : Word) ∈ times.take s.cfg.maxToggles →
    exec (.setch ch times) s = .next { s with fault := s.fault ||| 0b00001#5 }

/-- R110, R111, R115: an in-range SETCH with no zero among its used times completes: the shadow table (empty
if a fresh sequence begins) takes the merges in list order, the flags and the reply are as the rule says,
and everything else, the live table among it, is unchanged; so is every byte past the shadow space. -/
def Obligations.SetchMergesIntoTheShadow : Prop :=
  ∀ (s : State) (ch : BitVec 8) (times : List Word), s.cfg.valid = true →
    memoriesCanonical s = true → ch.toNat < s.cfg.channelCount →
    (Instr.setch ch times).wf = true → (0 : Word) ∉ times.take s.cfg.maxToggles →
    s.shadowCount ≤ s.cfg.maxStates →
    ∃ t start : State, exec (.setch ch times) s = .next t ∧
      t = { s with
        shadow := t.shadow, shadowCount := t.shadowCount, commitPending := true
        freshSequence := false, needsCorrection := s.freshSequence || s.needsCorrection
        respOut := s.respOut ++
          ((0x04#8 ++ ch ++ BitVec.ofNat 16 (min times.length s.cfg.maxToggles)) ::
            times.take s.cfg.maxToggles)
        cmdPc := s.cmdPc + 1 + times.length } ∧
      (if s.freshSequence then
        start.shadowCount = 0 ∧ ∀ k, k < s.cfg.maxStates → start.shadow.entry k = ⟨0, 0⟩
        else start.shadowCount = s.shadowCount ∧ start.shadow = s.shadow) ∧
      start.cfg = s.cfg ∧ start.shadow.wf = true ∧
      t.shadow = (mergeAll ((times.take s.cfg.maxToggles).zipIdx.map fun ti =>
        (ti.1, toggleBit s.cfg ch.toNat ti.2)) start).shadow ∧
      t.shadowCount = (mergeAll ((times.take s.cfg.maxToggles).zipIdx.map fun ti =>
        (ti.1, toggleBit s.cfg ch.toNat ti.2)) start).shadowCount ∧
      (∀ a, 8 * s.cfg.maxStates ≤ a → t.shadow.readByte a = s.shadow.readByte a)

/-- R112: the bit of the `i`-th time of a list: the channel's set bit when `(i even) XOR inverted`, else its
reset bit; so the two polarities swap them. -/
def Obligations.ToggleBitAlternates : Prop :=
  ∀ (c : Config) (ch i : Nat), c.valid = true → ch < c.channelCount → ∀ p, p < 32 →
    (toggleBit c ch i).getLsbD p =
      if xor (decide (i % 2 = 0)) (c.inv ch) then decide (p = c.pin ch) else decide (p = 16 + c.pin ch)

/-- R113, R114: the merge of one time into an ordered shadow table: an equal time takes the bit; a new time
is dropped when the table is full; otherwise it goes in at its sorted place, the later entries one up. No
other entry and nothing but the shadow table and its count changes. -/
def Obligations.MergeInsertPlacesTheTime : Prop :=
  ∀ (s : State) (t b : Word), t ≠ 0 → s.shadow.wf = true → s.shadowCount ≤ s.cfg.maxStates →
    TimesIncrease s.shadow s.shadowCount → TailClear s.shadow s.shadowCount →
    (∀ j, j < s.shadowCount → s.shadow.timeAt j = t →
      mergeInsert t b s = { s with shadow := (mergeInsert t b s).shadow } ∧
      (mergeInsert t b s).shadow.entry j = ⟨t, s.shadow.maskAt j ||| b⟩ ∧
      (∀ k, k ≠ j → (mergeInsert t b s).shadow.entry k = s.shadow.entry k) ∧
      (∀ a, a < 8 * j ∨ 8 * j + 8 ≤ a →
        (mergeInsert t b s).shadow.readByte a = s.shadow.readByte a)) ∧
    ((∀ j, j < s.shadowCount → s.shadow.timeAt j ≠ t) → s.shadowCount = s.cfg.maxStates →
      mergeInsert t b s = s) ∧
    ((∀ j, j < s.shadowCount → s.shadow.timeAt j ≠ t) → s.shadowCount < s.cfg.maxStates →
      ∃ pos, pos ≤ s.shadowCount ∧ (∀ j, j < pos → s.shadow.timeAt j < t) ∧
        (∀ j, pos ≤ j → j < s.shadowCount → t < s.shadow.timeAt j) ∧
        mergeInsert t b s = { s with shadow := (mergeInsert t b s).shadow
                                     shadowCount := s.shadowCount + 1 } ∧
        (mergeInsert t b s).shadow.entry pos = ⟨t, b⟩ ∧
        (∀ k, k < pos → (mergeInsert t b s).shadow.entry k = s.shadow.entry k) ∧
        (∀ k, pos ≤ k → k < s.shadowCount →
          (mergeInsert t b s).shadow.entry (k + 1) = s.shadow.entry k) ∧
        (∀ a, a < 8 * pos ∨ 8 * (s.shadowCount + 1) ≤ a →
          (mergeInsert t b s).shadow.readByte a = s.shadow.readByte a))

/-- R118: with room for every value, the merges of a list leave an ordered table of non-zero times in which
each time's mask is the OR of what it had and of every bit merged at that time, and no other time has
appeared. -/
def Obligations.MergedMasksAreTheOrOfTheToggles : Prop :=
  ∀ (s : State) (tbs : List (Word × Word)), s.shadow.wf = true →
    TimesIncrease s.shadow s.shadowCount → TimesNonzero s.shadow s.shadowCount →
    TailClear s.shadow s.shadowCount → (∀ tb ∈ tbs, tb.1 ≠ 0) →
    s.shadowCount + tbs.length ≤ s.cfg.maxStates →
    TimesIncrease (mergeAll tbs s).shadow (mergeAll tbs s).shadowCount ∧
    TimesNonzero (mergeAll tbs s).shadow (mergeAll tbs s).shadowCount ∧
    TailClear (mergeAll tbs s).shadow (mergeAll tbs s).shadowCount ∧
    (∀ t, maskForTime (mergeAll tbs s).shadow (mergeAll tbs s).shadowCount t =
      maskForTime s.shadow s.shadowCount t ||| bitsForTime tbs t) ∧
    (∀ t, (∃ j, j < (mergeAll tbs s).shadowCount ∧ (mergeAll tbs s).shadow.timeAt j = t) ↔
      (∃ j, j < s.shadowCount ∧ s.shadow.timeAt j = t) ∨ ∃ tb ∈ tbs, tb.1 = t)

/-! ## START, the commit and STOP -/

/-- R161: START in RUNNING is acknowledged and commits nothing; START during a stop holds. -/
def Obligations.StartWhilePlaying : Prop :=
  ∀ s : State, s.cfg.valid = true →
    (s.engState = .running → exec .start s = .next { s with
      freshSequence := true, respOut := s.respOut ++ [0x01000000#32], cmdPc := s.cmdPc + 1 }) ∧
    (s.engState = .stopRequested ∨ s.engState = .stopping → exec .start s = .next s)

/-- R161, R162, R189: START from IDLE with no commit pending arms the timer over the live table as it stands,
when there is no DMA latency or every gap between its events is above it (differences exact, log 10). -/
def Obligations.StartArmsFromIdle : Prop :=
  ∀ s : State, s.cfg.valid = true → s.engState = .idle → s.commitPending = false →
    s.timPeriod ≠ 0 → s.dmaLen ≤ s.cfg.maxStates →
    ¬ EventsTooClose s.cfg.dmaLatencyTicks s.dmaLen (s.timPeriod + s.cfg.cycleExtra.val)
      (cyclicTime s.live s.dmaLen) →
    exec .start s = .next { s with
      engState := .running, timCnt := 0, dmaIdx := 0
      timCcr := if s.dmaLen = 0 then s.timCcr else (s.live.timeAt (s.dmaLen - 1)).toNat
      dmaEn := true, timOpm := false, timCen := true, freshSequence := true
      respOut := s.respOut ++ [0x01000000#32], cmdPc := s.cmdPc + 1 }

/-- R140, R161, R162, R189: START from IDLE with a commit pending and every check passed, the spacing of the
events it commits among them (differences exact, log 10), commits and arms. Each live entry is the
shadow's, and no byte outside the live space changes. -/
def Obligations.StartCommitsAndArms : Prop :=
  ∀ s : State, s.cfg.valid = true → memoriesCanonical s = true → s.engState = .idle →
    s.commitPending = true → s.dmaEn = false → s.shadowCount ≤ s.cfg.maxStates →
    (s.needsCorrection = true → ∀ j, j < s.shadowCount →
      (s.shadow.timeAt j).toNat * s.cfg.tickMult < 2 ^ s.cfg.timerBits) →
    s.periodUs.toNat * s.cfg.tickMult < 2 ^ s.cfg.timerBits → s.periodUs ≠ 0 →
    ¬ EventsTooClose s.cfg.dmaLatencyTicks s.shadowCount
      (s.periodUs.toNat * s.cfg.tickMult + s.cfg.cycleExtra.val) (committedTime s) →
    ∃ t, exec .start s = .next t ∧
      t = { s with
        engState := .running, commitPending := false, freshSequence := true
        needsCorrection := false, shadow := t.shadow
        timPeriod := s.periodUs.toNat * s.cfg.tickMult, live := t.live, dmaLen := s.shadowCount
        timCnt := 0, dmaIdx := 0
        timCcr := if s.shadowCount = 0 then s.timCcr
          else (t.live.timeAt (s.shadowCount - 1)).toNat
        dmaEn := true, timOpm := false, timCen := true
        respOut := s.respOut ++ [0x01000000#32], cmdPc := s.cmdPc + 1 } ∧
      (∀ k, k < s.cfg.maxStates → t.live.entry k = t.shadow.entry k) ∧
      (∀ a, 8 * s.cfg.maxStates ≤ a → t.live.readByte a = s.live.readByte a) ∧
      (s.needsCorrection = false → t.shadow = s.shadow) ∧
      (∀ k, s.shadowCount ≤ k → t.shadow.entry k = s.shadow.entry k)

/-- R147, R143: after a correcting commit the time column is the shadow's, rotated left by one and scaled,
and the mask column is unchanged. (The scaled times fit their 32-bit fields, as they do whenever
`TIMER_BITS <= 32`.) -/
def Obligations.TimeCorrectionRotatesAndScales : Prop :=
  ∀ s t : State, memoriesCanonical s = true → s.engState = .idle → s.commitPending = true →
    s.needsCorrection = true →
    (∀ j, j < s.shadowCount → (s.shadow.timeAt j).toNat * s.cfg.tickMult < 2 ^ 32) →
    exec .start s = .next t → t.engState = .running →
    ∀ k, k < s.shadowCount →
      t.live.maskAt k = s.shadow.maskAt k ∧
      (t.live.timeAt k).toNat =
        (s.shadow.timeAt ((k + 1) % s.shadowCount)).toNat * s.cfg.tickMult

/-- R148: a START from IDLE leaves the live table and the timer's period as they are when they hold what an
earlier commit left: the shadow is corrected, the live table is its copy, and the period has not changed.
Every committing START leaves exactly that. -/
def Obligations.CommitIsIdempotent : Prop :=
  (∀ s t : State, memoriesCanonical s = true → s.engState = .idle → s.commitPending = true →
    exec .start s = .next t → t.engState = .running →
    t.needsCorrection = false ∧ t.timPeriod = t.periodUs.toNat * t.cfg.tickMult ∧
      t.dmaLen = t.shadowCount ∧ ∀ k, k < t.cfg.maxStates → t.live.entry k = t.shadow.entry k) ∧
  (∀ s t : State, memoriesCanonical s = true → s.engState = .idle → s.needsCorrection = false →
    s.timPeriod = s.periodUs.toNat * s.cfg.tickMult → s.dmaLen = s.shadowCount →
    (∀ k, k < s.cfg.maxStates → s.live.entry k = s.shadow.entry k) →
    exec .start s = .next t →
    t.live = s.live ∧ t.shadow = s.shadow ∧ t.timPeriod = s.timPeriod ∧ t.dmaLen = s.dmaLen)

/-- R144, R146, R163, R246: the first three faults of a START from IDLE, in their order; each sets its bit of
`FAULT` and changes nothing else. The fourth, `DMA_SPACING`, is CloseEventsFaultAtArm. -/
def Obligations.StartFaultsInOrder : Prop :=
  ∀ s : State, s.cfg.valid = true → s.engState = .idle → s.dmaEn = false →
    s.shadowCount ≤ s.cfg.maxStates →
    (s.commitPending = true → s.needsCorrection = true →
      (∃ j, j < s.shadowCount ∧
        2 ^ s.cfg.timerBits ≤ (s.shadow.timeAt j).toNat * s.cfg.tickMult) →
      exec .start s = .next { s with fault := s.fault ||| 0b00010#5 }) ∧
    (s.commitPending = true →
      (s.needsCorrection = true → ∀ j, j < s.shadowCount →
        (s.shadow.timeAt j).toNat * s.cfg.tickMult < 2 ^ s.cfg.timerBits) →
      2 ^ s.cfg.timerBits ≤ s.periodUs.toNat * s.cfg.tickMult →
      exec .start s = .next { s with fault := s.fault ||| 0b00100#5 }) ∧
    (s.commitPending = true →
      (s.needsCorrection = true → ∀ j, j < s.shadowCount →
        (s.shadow.timeAt j).toNat * s.cfg.tickMult < 2 ^ s.cfg.timerBits) →
      s.periodUs = 0 →
      exec .start s = .next { s with fault := s.fault ||| 0b01000#5 }) ∧
    (s.commitPending = false → s.timPeriod = 0 →
      exec .start s = .next { s with fault := s.fault ||| 0b01000#5 })

/-- R189, R161, R162, R246, with the differences exact (the model's reading, log 10): a START from IDLE that
passes every earlier check over two events of a cycle no further apart than the DMA latency raises
`DMA_SPACING` and changes nothing else, whether the events stand in the live table or are those of a pending
commit, of which nothing is kept; otherwise it completes. -/
def Obligations.CloseEventsFaultAtArm : Prop :=
  ∀ s : State, s.cfg.valid = true → s.engState = .idle →
    (s.commitPending = false → s.timPeriod ≠ 0 → s.dmaLen ≤ s.cfg.maxStates →
      (EventsTooClose s.cfg.dmaLatencyTicks s.dmaLen (s.timPeriod + s.cfg.cycleExtra.val)
          (cyclicTime s.live s.dmaLen) →
        exec .start s = .next { s with fault := s.fault ||| 0b10000#5 }) ∧
      (¬ EventsTooClose s.cfg.dmaLatencyTicks s.dmaLen (s.timPeriod + s.cfg.cycleExtra.val)
          (cyclicTime s.live s.dmaLen) →
        ∃ t, exec .start s = .next t ∧ t.engState = .running ∧ t.fault = s.fault)) ∧
    (s.commitPending = true → memoriesCanonical s = true → s.dmaEn = false →
      s.shadowCount ≤ s.cfg.maxStates →
      (s.needsCorrection = true → ∀ j, j < s.shadowCount →
        (s.shadow.timeAt j).toNat * s.cfg.tickMult < 2 ^ s.cfg.timerBits) →
      s.periodUs.toNat * s.cfg.tickMult < 2 ^ s.cfg.timerBits → s.periodUs ≠ 0 →
      (EventsTooClose s.cfg.dmaLatencyTicks s.shadowCount
          (s.periodUs.toNat * s.cfg.tickMult + s.cfg.cycleExtra.val) (committedTime s) →
        exec .start s = .next { s with fault := s.fault ||| 0b10000#5 }) ∧
      (¬ EventsTooClose s.cfg.dmaLatencyTicks s.shadowCount
          (s.periodUs.toNat * s.cfg.tickMult + s.cfg.cycleExtra.val) (committedTime s) →
        ∃ t, exec .start s = .next t ∧ t.engState = .running ∧ t.fault = s.fault))

/-- R165: STOP's encoding and its whole effect: RUNNING goes to STOP_REQUESTED, every other engine state
stays. -/
def Obligations.StopRequestsAGracefulStop : Prop :=
  (∀ (h : Word) (ws : List Word), h.extractLsb' 24 8 = 0x02#8 → decode (h :: ws) = .ok (.stop, ws)) ∧
  ∀ s : State, s.cfg.valid = true →
    exec .stop s = .next { s with
      engState := if s.engState = .running then .stopRequested else s.engState
      freshSequence := true
      respOut := s.respOut ++ [0x02000000#32], cmdPc := s.cmdPc + 1 }

/-! ## Queries and housekeeping -/

/-- R210, R218: the encodings of GETPER and PING; GETPER replies the staged period and PING its token, and
nothing else changes. -/
def Obligations.GetperAndPingReply : Prop :=
  (∀ (h : Word) (ws : List Word),
    (h.extractLsb' 24 8 = 0x05#8 → decode (h :: ws) = .ok (.getper, ws)) ∧
    (h.extractLsb' 24 8 = 0x08#8 → decode (h :: ws) = .ok (.ping, ws))) ∧
  ∀ s : State, s.cfg.valid = true →
    exec .getper s = .next { s with
      respOut := s.respOut ++ [0x05000001#32, s.periodUs], cmdPc := s.cmdPc + 1 } ∧
    exec .ping s = .next { s with
      respOut := s.respOut ++ [0x08000000#32], cmdPc := s.cmdPc + 1 }

/-- R212, R214: GETCH of a channel in range replies, for each live entry that touches the channel, the time
stored an index earlier, cyclically, divided by `TICK_MULT`; nothing else changes. The header is R96's
wherever its count fits the field (a free value elsewhere, log 8). -/
def Obligations.GetchReconstructsTheChannel : Prop :=
  ∀ (s : State) (ch : BitVec 8), s.cfg.valid = true → ch.toNat < s.cfg.channelCount →
    s.dmaLen ≤ s.cfg.maxStates →
    ∀ times : List Word,
    times = ((List.range s.dmaLen).filter fun k =>
        s.live.maskAt k &&& (bit (s.cfg.pin ch.toNat) ||| bit (16 + s.cfg.pin ch.toNat)) != 0).map
      (fun k => BitVec.ofNat 32
        ((s.live.timeAt ((k + s.dmaLen - 1) % s.dmaLen)).toNat / s.cfg.tickMult)) →
    ∃ header : Word,
      (times.length < 2 ^ 16 → header = 0x06#8 ++ ch ++ BitVec.ofNat 16 times.length) ∧
      exec (.getch ch) s = .next { s with
        respOut := s.respOut ++ header :: times, cmdPc := s.cmdPc + 1 }

/-- R216: GETALL replies the period line and then, in ascending order, the GETCH line of every channel whose
list is not empty; nothing else changes. The headers are R96's wherever a count fits the field (a free
value elsewhere, log 8). -/
def Obligations.GetallReportsEveryChannel : Prop :=
  ∀ s : State, s.cfg.valid = true → s.dmaLen ≤ s.cfg.maxStates →
    ∃ header : Nat → Word,
      (∀ ch, (channelTimes s ch).length < 2 ^ 16 →
        header ch = 0x06#8 ++ BitVec.ofNat 8 ch ++ BitVec.ofNat 16 (channelTimes s ch).length) ∧
      exec .getall s = .next { s with
        respOut := s.respOut ++ [0x05000001#32, s.periodUs] ++
          (List.range s.cfg.channelCount).flatMap (fun ch =>
            if channelTimes s ch = [] then [] else header ch :: channelTimes s ch)
        cmdPc := s.cmdPc + 1 } ∧
      (∀ ch : BitVec 8, ch.toNat < s.cfg.channelCount →
        exec (.getch ch) s = .next { s with
          respOut := s.respOut ++ header ch.toNat :: channelTimes s ch.toNat
          cmdPc := s.cmdPc + 1 })

/-- R219, R220, R224: the encodings of SETADDR, GETADDR and the reserved headers; each changes nothing of
the block but the position in the stream. -/
def Obligations.AddressAndReservedCommandsDoNothing : Prop :=
  (∀ (h : Word) (ws : List Word),
    (h.extractLsb' 24 8 = 0x09#8 → decode (h :: ws) = .ok (.setaddr (h.extractLsb' 0 8), ws)) ∧
    (h.extractLsb' 24 8 = 0x0A#8 → decode (h :: ws) = .ok (.getaddr, ws)) ∧
    (h.extractLsb' 24 8 = 0x00#8 ∨ 0x0C#8 ≤ h.extractLsb' 24 8 →
      decode (h :: ws) = .ok (.reserved (h.extractLsb' 24 8), ws))) ∧
  ∀ (s : State) (addr op : BitVec 8), s.cfg.valid = true →
    exec (.setaddr addr) s = .next { s with cmdPc := s.cmdPc + 1 } ∧
    exec .getaddr s = .next { s with cmdPc := s.cmdPc + 1 } ∧
    exec (.reserved op) s = .next { s with cmdPc := s.cmdPc + 1 }

/-- R215: after a correcting commit, a channel's reconstruction is the list of the shadow's times, in table
order, over the entries that touch the channel. -/
def Obligations.ReadbackAfterCommit : Prop :=
  ∀ s t : State, memoriesCanonical s = true → s.engState = .idle → s.commitPending = true →
    s.needsCorrection = true →
    (∀ j, j < s.shadowCount → (s.shadow.timeAt j).toNat * s.cfg.tickMult < 2 ^ 32) →
    exec .start s = .next t → t.engState = .running →
    ∀ ch, channelTimes t ch =
      ((List.range s.shadowCount).filter fun k => touches s.cfg (s.shadow.maskAt k) ch).map
        s.shadow.timeAt

/-- R215: the only SETCH of a fresh sequence, with strictly increasing non-zero times that fit, then the
START that commits it, then GETCH of that channel: the reply is the list that was sent. -/
def Obligations.ReadbackReturnsTheInputList : Prop :=
  ∀ (s : State) (ch : BitVec 8) (times : List Word), BlockInv s → s.engState = .idle →
    s.freshSequence = true → ch.toNat < s.cfg.channelCount → (Instr.setch ch times).wf = true →
    times.Pairwise (· < ·) → (0 : Word) ∉ times → times.length ≤ s.cfg.maxToggles →
    times.length ≤ s.cfg.maxStates →
    (∀ t ∈ times, t.toNat * s.cfg.tickMult < 2 ^ s.cfg.timerBits ∧
      t.toNat * s.cfg.tickMult < 2 ^ 32) →
    s.periodUs ≠ 0 → s.periodUs.toNat * s.cfg.tickMult < 2 ^ s.cfg.timerBits →
    s.cfg.dmaLatencyTicks = 0 →
    ∃ t1 t2, exec (.setch ch times) s = .next t1 ∧ exec .start t1 = .next t2 ∧
      t2.engState = .running ∧
      exec (.getch ch) t2 = .next { t2 with
        respOut := t2.respOut ++ ((0x06#8 ++ ch ++ BitVec.ofNat 16 times.length) :: times)
        cmdPc := t2.cmdPc + 1 }

/-! ## Playback -/

/-- R180 to R185, R246: one tick, whole: the counter with its wrap, then the transfer of a due entry, then
the wrap service. Nothing else changes but the turn taken, scheduled or free (log 3). That the halting wrap
clears `CEN` is marked by the spec as general knowledge (PRESUMED, log 13). -/
def Obligations.TickIsCounterCompareWrap : Prop :=
  ∀ (s : State) (wrap due : Bool) (cnt : Nat) (odr : Levels),
    s.cfg.valid = true → nextTurn s = .timer → s.timCen = true →
    s.dmaIdx < s.cfg.maxStates →
    wrap = decide (s.timPeriod + s.cfg.cycleExtra.val ≤ s.timCnt + 1) →
    cnt = (if wrap then 0 else s.timCnt + 1) →
    due = (decide (cnt = s.timCcr) && s.dmaEn && decide (0 < s.dmaLen)) →
    odr = (if due then odrApply s.gpioOdr (s.live.maskAt s.dmaIdx) else s.gpioOdr) →
    step s = .next { turnTaken s with
      timCnt := cnt
      timCcr := if due then (s.live.timeAt s.dmaIdx).toNat else s.timCcr
      dmaIdx := if due then (s.dmaIdx + 1) % s.dmaLen else s.dmaIdx
      gpioOdr := if wrap && decide (s.engState = .stopping) then odrApply odr (idleMask s.cfg) else odr
      engState := if wrap && decide (s.engState = .stopRequested) then .stopping
        else if wrap && decide (s.engState = .stopping) then .idle else s.engState
      timOpm := if wrap && decide (s.engState = .stopRequested) then true
        else if wrap && decide (s.engState = .stopping) then false else s.timOpm
      timCen := if wrap && decide (s.engState = .stopping) then false else s.timCen
      dmaEn := if wrap && decide (s.engState = .stopping) then false else s.dmaEn }

/-- R180, R10: the timer agent has no step while `TIM_CR.CEN = 0`: its turn, scheduled or free (log 3), is
taken and changes nothing. -/
def Obligations.TimerHoldsWhileDisabled : Prop :=
  ∀ s : State, s.cfg.valid = true → nextTurn s = .timer → s.timCen = false →
    step s = .next (turnTaken s)

/-- R190: after the START that makes a correcting commit, with every scaled time below the cycle length,
tick `i + 1` applies the mask of the `k`-th shadow entry when the tick falls at its scaled time within a
cycle, and no other tick changes the outputs. -/
def Obligations.EveryMaskPlaysAtItsTime : Prop :=
  ∀ s t : State, memoriesCanonical s = true → s.engState = .idle → s.commitPending = true →
    s.needsCorrection = true → 0 < s.shadowCount →
    TimesIncrease s.shadow s.shadowCount → TimesNonzero s.shadow s.shadowCount →
    exec .start s = .next t → t.engState = .running →
    (∀ k, k < s.shadowCount → (s.shadow.timeAt k).toNat * s.cfg.tickMult < 2 ^ 32) →
    (∀ k, k < s.shadowCount → (s.shadow.timeAt k).toNat * s.cfg.tickMult < cycleLength t) →
    ∀ i, ∃ a b, ticks i t = .next a ∧ timerResult a = .next b ∧ b.engState = .running ∧
      (∀ k, k < s.shadowCount →
        (i + 1) % cycleLength t = (s.shadow.timeAt k).toNat * s.cfg.tickMult →
        b.gpioOdr = odrApply a.gpioOdr (s.shadow.maskAt k)) ∧
      ((∀ k, k < s.shadowCount →
        (i + 1) % cycleLength t ≠ (s.shadow.timeAt k).toNat * s.cfg.tickMult) →
        b.gpioOdr = a.gpioOdr)

/-- R191: where the `K`-th scaled time is the first at or past the cycle length, the events before it happen
in the first cycle only, and no later tick changes the outputs. -/
def Obligations.LateTimesStallPlayback : Prop :=
  ∀ (s t : State) (K : Nat), memoriesCanonical s = true → s.engState = .idle →
    s.commitPending = true → s.needsCorrection = true →
    TimesIncrease s.shadow s.shadowCount → TimesNonzero s.shadow s.shadowCount →
    exec .start s = .next t → t.engState = .running →
    (∀ k, k < s.shadowCount → (s.shadow.timeAt k).toNat * s.cfg.tickMult < 2 ^ 32) →
    K < s.shadowCount →
    (∀ k, k < K → (s.shadow.timeAt k).toNat * s.cfg.tickMult < cycleLength t) →
    cycleLength t ≤ (s.shadow.timeAt K).toNat * s.cfg.tickMult →
    ∀ i, ∃ a b, ticks i t = .next a ∧ timerResult a = .next b ∧
      (∀ k, k < K → i + 1 = (s.shadow.timeAt k).toNat * s.cfg.tickMult →
        b.gpioOdr = odrApply a.gpioOdr (s.shadow.maskAt k)) ∧
      ((∀ k, k < K → i + 1 ≠ (s.shadow.timeAt k).toNat * s.cfg.tickMult) →
        b.gpioOdr = a.gpioOdr)

/-- R166: a STOP in RUNNING at counter value `c` reaches STOPPING after exactly `L - c` ticks and IDLE after
exactly `2L - c`, with the timer and the DMA off and every channel at its idle level. That the timer is off
(`CEN = 0`) after the halting wrap is marked by the spec as general knowledge (PRESUMED, log 13). -/
def Obligations.StopLatencyIsTwoWraps : Prop :=
  ∀ s : State, BlockInv s → s.engState = .running →
    ∃ t, exec .stop s = .next t ∧ t.engState = .stopRequested ∧
      cycleLength s + 1 ≤ 2 * cycleLength s - s.timCnt ∧
      2 * cycleLength s - s.timCnt ≤ 2 * cycleLength s ∧
      (∀ i, i < cycleLength s - s.timCnt →
        ∃ a, ticks i t = .next a ∧ a.engState = .stopRequested) ∧
      (∀ i, cycleLength s - s.timCnt ≤ i → i < 2 * cycleLength s - s.timCnt →
        ∃ a, ticks i t = .next a ∧ a.engState = .stopping ∧ a.timOpm = true) ∧
      (∃ a, ticks (2 * cycleLength s - s.timCnt) t = .next a ∧ a.engState = .idle ∧
        a.timCnt = 0 ∧ a.timCen = false ∧ a.timOpm = false ∧ a.dmaEn = false ∧
        ∀ ch, ch < s.cfg.channelCount → a.gpioOdr.getLsbD (s.cfg.pin ch) = s.cfg.inv ch)

/-- R166, R167: between a STOP and the halting wrap the waveform is the one that would have played without
the STOP, tick for tick. -/
def Obligations.StopLeavesTheWaveformAlone : Prop :=
  ∀ s t : State, BlockInv s → s.engState = .running → exec .stop s = .next t →
    ∀ i, i < 2 * cycleLength s - s.timCnt →
      ∃ a b, ticks i t = .next a ∧ ticks i s = .next b ∧ a.gpioOdr = b.gpioOdr ∧
        a.timCnt = b.timCnt ∧ a.timCcr = b.timCcr ∧ a.dmaIdx = b.dmaIdx

/-- R10, R166: in every run that is fair to the timer agent, whatever the host sends, an engine that is
stopping reaches IDLE. -/
def Obligations.StopCompletesInEveryFairRun : Prop :=
  ∀ (r : Nat → State) (t : Nat → Turn), IsRun r t → FairToTimer r t → BlockInv (r 0) →
    (r 0).engState = .stopRequested ∨ (r 0).engState = .stopping →
    ∃ i, (r i).engState = .idle

/-! ## The machine as a whole -/

/-- The invariant holds at the start of every run of a valid configuration, `State.reset` among them
(R271; its values are the spec's, with the parameter `RESET_PERIOD_US` left open). -/
def Obligations.StartOfRunMeetsTheInvariant : Prop :=
  (∀ (c : Config) (ws : List Word) (ts : List Turn), c.valid = true → BlockInv (State.boot c ws ts)) ∧
  BlockInv State.reset

/-- R23: every step keeps the table of `DMA_EN`, `CEN` and `OPM` over the engine's states. -/
def Obligations.StepKeepsTheEngineModes : Prop :=
  ∀ s s' : State, engineModes s = true → step s = .next s' → engineModes s' = true

/-- Every step keeps the invariant of the block: the modes of R23, the table counts and the order of the
shadow table (R33, R36, R39, R118), and the timer's registers within their widths (R21, R30 to R32). -/
def Obligations.StepKeepsTheInvariant : Prop :=
  ∀ s s' : State, BlockInv s → step s = .next s' → BlockInv s'

/-- Every step keeps both table spaces in canonical form. -/
def Obligations.StepKeepsMemoriesCanonical : Prop :=
  ∀ s s' : State, memoriesCanonical s = true → step s = .next s' → memoriesCanonical s' = true

/-- R240, R243, R250: in a state of the block every command has a next state in every engine state, and so
has every step; nothing stops the machine. -/
def Obligations.NothingStopsTheMachine : Prop :=
  ∀ s : State, BlockInv s → (∀ i, ∃ t, exec i s = .next t) ∧ ∃ t, step s = .next t

/-- R33, R36, R39, R60, and the model's choice of log 5: in a state whose counts or index run past a table
space, which no run reaches, the accesses that would leave the space stop with `tableBounds`. -/
def Obligations.CountsPastTheTableStop : Prop :=
  ∀ s : State, s.cfg.valid = true →
    (∀ (ch : BitVec 8) (times : List Word), ch.toNat < s.cfg.channelCount →
      (0 : Word) ∉ times.take s.cfg.maxToggles → s.freshSequence = false →
      s.cfg.maxStates < s.shadowCount → exec (.setch ch times) s = .fault .tableBounds) ∧
    (s.engState = .idle → s.commitPending = true → s.dmaEn = false →
      s.cfg.maxStates < s.shadowCount → exec .start s = .fault .tableBounds) ∧
    (s.cfg.maxStates < s.dmaLen →
      (s.engState = .idle → s.commitPending = false → s.timPeriod ≠ 0 →
        exec .start s = .fault .tableBounds) ∧
      (∀ ch : BitVec 8, ch.toNat < s.cfg.channelCount →
        exec (.getch ch) s = .fault .tableBounds) ∧
      exec .getall s = .fault .tableBounds) ∧
    (nextTurn s = .timer → s.timCen = true → s.dmaEn = true → 0 < s.dmaLen →
      s.cfg.maxStates ≤ s.dmaIdx →
      s.timCcr = (if s.timPeriod + s.cfg.cycleExtra.val ≤ s.timCnt + 1 then 0 else s.timCnt + 1) →
      step s = .fault .tableBounds)

/-- R21: in a state of the block every element fits its width: a scalar as a number, `SHADOW_COUNT` in the
bits R21 gives it before its table, and each table as `MAX_STATES` entries of 64 bits. -/
def Obligations.ElementsFitTheirWidths : Prop :=
  ∀ (s : State) (no w : Nat), BlockInv s → elementWidth s.cfg no = some w →
    (∀ v, elementValue s no = some (.scalar v) → v < 2 ^ w) ∧
    (∀ n es, elementValue s no = some (.countedTable n es) →
      n < 2 ^ clog2 (s.cfg.maxStates + 1) ∧ es.length = s.cfg.maxStates ∧
        w = clog2 (s.cfg.maxStates + 1) + s.cfg.maxStates * 64) ∧
    (∀ es, elementValue s no = some (.table es) →
      es.length = s.cfg.maxStates ∧ w = s.cfg.maxStates * 64)

/-- R242, R11, R240: a command either leaves `FAULT` as it is or sets one bit of it and changes nothing else.
The timer agent raises no fault and its tick never touches `FAULT`, and no more does any step in which the
command agent does not take the turn. -/
def Obligations.FaultsAreSetAloneOrNotAtAll : Prop :=
  (∀ (i : Instr) (s t : State), exec i s = .next t →
    t.fault = s.fault ∨ ∃ k : FaultKind, t = { s with fault := s.fault ||| k.bit }) ∧
  (∀ (s : State) (k : FaultKind), timerResult s ≠ .raise k) ∧
  (∀ s t : State, settle s (timerResult s) = .next t → t.fault = s.fault) ∧
  (∀ s t : State, nextTurn s ≠ .command → step s = .next t → t.fault = s.fault)

/-- R46, R242: the host cannot observe `FAULT`: a step from the same state with other fault bits gives the
same state with other fault bits. -/
def Obligations.FaultIsNotObservable : Prop :=
  ∀ (s t : State) (f : BitVec 5), step s = .next t →
    ∃ g, step { s with fault := f } = .next { t with fault := g } ∧
      observe { t with fault := g } = observe t

/-- R6, R28, R41, R42: no step writes the configuration, clears a fault bit, or removes or rewrites a word
of either stream. -/
def Obligations.StepsOnlyAppendAndKeepFaults : Prop :=
  ∀ s t : State, step s = .next t →
    t.cfg = s.cfg ∧ s.fault &&& t.fault = s.fault ∧ s.respOut <+: t.respOut ∧ s.cmdIn <+: t.cmdIn

/-- R70, R73, R141, R282: but for RESET, the live table, `TIM_PERIOD` and `DMA_LEN` are written only by the
command agent's START that commits from IDLE with the DMA disabled. -/
def Obligations.LiveTableWrittenOnlyByACommit : Prop :=
  ∀ s t : State, step s = .next t →
    (t.live ≠ s.live ∨ t.timPeriod ≠ s.timPeriod ∨ t.dmaLen ≠ s.dmaLen) →
    (nextTurn s = .command ∧ fetch s = some .reset) ∨
      (nextTurn s = .command ∧ fetch s = some .start ∧ s.engState = .idle ∧ s.dmaEn = false ∧ s.commitPending = true)

/-- R37, R70: but for RESET, no command and no append of the host changes the outputs, the compare register
or the playback index of a running engine; only the timer agent's ticks do. -/
def Obligations.OnlyTicksMoveTheOutputs : Prop :=
  ∀ s t : State, step s = .next t → nextTurn s ≠ .timer →
    (nextTurn s = .command → fetch s ≠ some .reset) →
    t.gpioOdr = s.gpioOdr ∧
    (s.engState ≠ .idle → t.timCnt = s.timCnt ∧ t.timCcr = s.timCcr ∧ t.dmaIdx = s.dmaIdx ∧
      t.timCen = s.timCen ∧ t.timOpm = s.timOpm ∧ t.dmaEn = s.dmaEn)
end

