-- ==== Sys2Proof/Laws/Memory.lean ====
section
/-! SUPPORT. The laws of a table space: the canonical form is kept by every operation, a read after a
write, and what the whole-table operations leave. -/

namespace Sys2Proof.Machine

/-! ## The canonical form -/

@[simp] theorem Memory.wf_nil : Memory.wf [] = true := rfl

theorem Memory.wfFrom_mono {lo lo' : Nat} (h : lo' ≤ lo) :
    ∀ {m : Memory}, Memory.wfFrom lo m = true → Memory.wfFrom lo' m = true
  | [], _ => rfl
  | (a, b) :: m, hm => by
    simp only [Memory.wfFrom, Bool.and_eq_true, decide_eq_true_eq] at hm ⊢
    exact ⟨⟨h.trans hm.1.1, hm.1.2⟩, hm.2⟩

theorem Memory.wfFrom_cons {lo a : Nat} {b : Byte} {m : Memory} :
    Memory.wfFrom lo ((a, b) :: m) = true ↔
      lo ≤ a ∧ b ≠ unlistedByte ∧ Memory.wfFrom (a + 1) m = true := by
  simp [Memory.wfFrom, and_assoc]

theorem Memory.readByte_below {m : Memory} {lo a : Nat} (hm : Memory.wfFrom lo m = true) (h : a < lo) :
    m.readByte a = unlistedByte := by
  induction m generalizing lo with
  | nil => rfl
  | cons cell m ih =>
    obtain ⟨k, b⟩ := cell
    obtain ⟨hk, -, hm⟩ := Memory.wfFrom_cons.1 hm
    rw [Memory.readByte, if_neg (by omega), ih hm (by omega)]

theorem Memory.wfFrom_writeByte {lo a : Nat} {b : Byte} {m : Memory} (ha : lo ≤ a)
    (hm : Memory.wfFrom lo m = true) : Memory.wfFrom lo (m.writeByte a b) = true := by
  induction m generalizing lo with
  | nil =>
    unfold Memory.writeByte
    split
    · rfl
    · exact Memory.wfFrom_cons.2 ⟨ha, ‹_›, rfl⟩
  | cons cell m ih =>
    obtain ⟨k, c⟩ := cell
    obtain ⟨hk, hc, hm⟩ := Memory.wfFrom_cons.1 hm
    unfold Memory.writeByte
    split
    · split
      · exact Memory.wfFrom_cons.2 ⟨hk, hc, hm⟩
      · exact Memory.wfFrom_cons.2 ⟨ha, ‹_›, Memory.wfFrom_cons.2 ⟨by omega, hc, hm⟩⟩
    · split
      · split
        · exact Memory.wfFrom_mono (by omega) hm
        · subst a
          exact Memory.wfFrom_cons.2 ⟨hk, ‹_›, hm⟩
      · exact Memory.wfFrom_cons.2 ⟨hk, hc, ih (by omega) hm⟩

/-- Storing a byte keeps the canonical form. -/
theorem Memory.wf_writeByte {m : Memory} (a : Nat) (b : Byte) (hm : m.wf = true) :
    (m.writeByte a b).wf = true := Memory.wfFrom_writeByte (Nat.zero_le a) hm

theorem Memory.wf_write32 {m : Memory} (a : Nat) (v : Word) (hm : m.wf = true) :
    (m.write32 a v).wf = true := by
  unfold Memory.write32
  exact wf_writeByte _ _ (wf_writeByte _ _ (wf_writeByte _ _ (wf_writeByte _ _ hm)))

theorem Memory.wf_setTime {m : Memory} (k : Nat) (t : Word) (hm : m.wf = true) :
    (m.setTime k t).wf = true := wf_write32 _ _ hm

theorem Memory.wf_setMask {m : Memory} (k : Nat) (b : Word) (hm : m.wf = true) :
    (m.setMask k b).wf = true := wf_write32 _ _ hm

theorem Memory.wf_setEntry {m : Memory} (k : Nat) (e : EventEntry) (hm : m.wf = true) :
    (m.setEntry k e).wf = true := wf_setMask _ _ (wf_setTime _ _ hm)

theorem Memory.wf_shiftUp {m : Memory} (pos d : Nat) (hm : m.wf = true) :
    (m.shiftUp pos d).wf = true := by
  induction d generalizing m with
  | zero => exact hm
  | succ d ih => exact ih (wf_setEntry _ _ hm)

theorem Memory.wfFrom_filter {lo : Nat} {m : Memory} (p : Host.Cell → Bool)
    (hm : Memory.wfFrom lo m = true) : Memory.wfFrom lo (m.filter p) = true := by
  induction m generalizing lo with
  | nil => rfl
  | cons cell m ih =>
    obtain ⟨k, c⟩ := cell
    obtain ⟨hk, hc, hm⟩ := Memory.wfFrom_cons.1 hm
    rw [List.filter_cons]
    split
    · exact Memory.wfFrom_cons.2 ⟨hk, hc, ih hm⟩
    · exact Memory.wfFrom_mono (by omega) (ih hm)

theorem Memory.wf_clearTable (c : Config) {m : Memory} (hm : m.wf = true) :
    (m.clearTable c).wf = true := wfFrom_filter _ hm

theorem Memory.wfFrom_of_le {lo hi : Nat} {m : Memory} (hm : Memory.wfFrom lo m = true)
    (h : ∀ cell ∈ m, hi ≤ cell.1) : Memory.wfFrom hi m = true := by
  cases m with
  | nil => rfl
  | cons cell m =>
    obtain ⟨k, c⟩ := cell
    obtain ⟨-, hc, hm⟩ := Memory.wfFrom_cons.1 hm
    exact Memory.wfFrom_cons.2 ⟨h (k, c) (by simp), hc, hm⟩

theorem Memory.wfFrom_append {lo mid : Nat} {m m' : Memory} (hl : lo ≤ mid)
    (hm : Memory.wfFrom lo m = true) (hlt : ∀ cell ∈ m, cell.1 < mid)
    (hm' : Memory.wfFrom mid m' = true) : Memory.wfFrom lo (m ++ m') = true := by
  induction m generalizing lo with
  | nil => exact wfFrom_mono hl hm'
  | cons cell m ih =>
    obtain ⟨k, c⟩ := cell
    obtain ⟨hk, hc, hm⟩ := Memory.wfFrom_cons.1 hm
    have hkm : k < mid := hlt (k, c) (by simp)
    exact Memory.wfFrom_cons.2
      ⟨hk, hc, ih hkm hm fun cell hcell => hlt cell (by simp [hcell])⟩

theorem Memory.wf_copyTable (c : Config) {src dst : Memory} (hs : src.wf = true) (hd : dst.wf = true) :
    (src.copyTable c dst).wf = true := by
  refine wfFrom_append (mid := spaceBytes c) (Nat.zero_le _) (wfFrom_filter _ hs) ?_
    (wfFrom_of_le (wfFrom_filter _ hd) ?_)
  · intro cell h
    simpa using (List.mem_filter.1 h).2
  · intro cell h
    simpa using (List.mem_filter.1 h).2

/-! ## Reading after writing -/

theorem Memory.readByte_cons (k : Nat) (c : Byte) (m : Memory) (x : Nat) :
    Memory.readByte ((k, c) :: m) x = if x = k then c else Memory.readByte m x := rfl

theorem Memory.readByte_writeByte_from {lo a : Nat} {b : Byte} {m : Memory} (x : Nat)
    (hm : Memory.wfFrom lo m = true) :
    Memory.readByte (Memory.writeByte a b m) x = if x = a then b else Memory.readByte m x := by
  induction m generalizing lo with
  | nil =>
    unfold Memory.writeByte
    by_cases hb : b = unlistedByte <;> by_cases hx : x = a <;> simp [hb, hx, Memory.readByte]
  | cons cell m ih =>
    obtain ⟨k, c⟩ := cell
    obtain ⟨-, -, hm⟩ := Memory.wfFrom_cons.1 hm
    have low : ∀ y, y ≤ k → Memory.readByte m y = unlistedByte :=
      fun y hy => readByte_below hm (by omega)
    rw [Memory.writeByte]
    by_cases h1 : a < k
    · rw [if_pos h1]
      by_cases hb : b = unlistedByte
      · rw [if_pos hb, readByte_cons]
        by_cases hx : x = a
        · rw [if_pos hx, if_neg (by omega), low x (by omega), hb]
        · rw [if_neg hx]
      · rw [if_neg hb, readByte_cons]
    · rw [if_neg h1]
      by_cases h3 : a = k
      · subst h3
        rw [if_pos rfl, readByte_cons]
        by_cases hb : b = unlistedByte
        · rw [if_pos hb]
          by_cases hx : x = a
          · rw [if_pos hx, low x (by omega), hb]
          · rw [if_neg hx, if_neg hx]
        · rw [if_neg hb, readByte_cons]
          by_cases hx : x = a <;> simp [hx]
      · rw [if_neg h3, readByte_cons, readByte_cons, ih hm]
        by_cases hx : x = a
        · rw [if_neg (by omega), if_pos hx, if_pos hx]
        · rw [if_neg hx, if_neg hx]

/-- A byte read after a byte stored. -/
theorem Memory.readByte_writeByte {m : Memory} (hm : m.wf = true) (a x : Nat) (b : Byte) :
    (m.writeByte a b).readByte x = if x = a then b else m.readByte x :=
  readByte_writeByte_from x hm

/-- A byte read after a word stored: byte `j` of the word at `a + j` (R62). -/
theorem Memory.readByte_write32 {m : Memory} (hm : m.wf = true) (a x : Nat) (v : Word) :
    (m.write32 a v).readByte x =
      if a ≤ x ∧ x < a + 4 then v.extractLsb' (8 * (x - a)) 8 else m.readByte x := by
  have h1 := wf_writeByte a (v.extractLsb' 0 8) hm
  have h2 := wf_writeByte (a + 1) (v.extractLsb' 8 8) h1
  have h3 := wf_writeByte (a + 2) (v.extractLsb' 16 8) h2
  simp only [Memory.write32, readByte_writeByte h3, readByte_writeByte h2, readByte_writeByte h1,
    readByte_writeByte hm]
  by_cases hx : a ≤ x ∧ x < a + 4
  · obtain ⟨j, rfl⟩ := Nat.exists_eq_add_of_le hx.1
    have hj : j < 4 := by omega
    interval_cases j <;> simp
  · rw [if_neg hx, if_neg (by omega), if_neg (by omega), if_neg (by omega), if_neg (by omega)]

theorem bytes_of_word (v : Word) :
    v.extractLsb' 24 8 ++ v.extractLsb' 16 8 ++ v.extractLsb' 8 8 ++ v.extractLsb' 0 8 = v := by
  apply BitVec.eq_of_getLsbD_eq
  intro i hi
  simp only [BitVec.getLsbD_append, BitVec.getLsbD_extractLsb']
  split_ifs with h1 h2 h3
  · simp [h1]
  · rw [show 8 + (i - 8) = i by omega]; simp [h2]
  · rw [show 16 + (i - 8 - 8) = i by omega]; simp [h3]
  · rw [show 24 + (i - 8 - 8 - 8) = i by omega]
    have : i - 8 - 8 - 8 < 8 := by omega
    simp [this]

/-- A word read where it was stored. -/
theorem Memory.read32_write32_same {m : Memory} (hm : m.wf = true) (a : Nat) (v : Word) :
    (m.write32 a v).read32 a = v := by
  simp only [Memory.read32, readByte_write32 hm]
  rw [if_pos (by omega), if_pos (by omega), if_pos (by omega), if_pos (by omega)]
  simpa using bytes_of_word v

/-- A word read clear of the word that was stored. -/
theorem Memory.read32_write32_other {m : Memory} (hm : m.wf = true) {a x : Nat} (v : Word)
    (h : x + 4 ≤ a ∨ a + 4 ≤ x) : (m.write32 a v).read32 x = m.read32 x := by
  simp only [Memory.read32, readByte_write32 hm]
  rw [if_neg (by omega), if_neg (by omega), if_neg (by omega), if_neg (by omega)]

theorem Memory.timeAt_setTime {m : Memory} (hm : m.wf = true) (k j : Nat) (t : Word) :
    (m.setTime k t).timeAt j = if j = k then t else m.timeAt j := by
  unfold Memory.setTime Memory.timeAt timeAddr
  split
  · subst j; exact read32_write32_same hm _ _
  · exact read32_write32_other hm _ (by omega)

theorem Memory.maskAt_setTime {m : Memory} (hm : m.wf = true) (k j : Nat) (t : Word) :
    (m.setTime k t).maskAt j = m.maskAt j := by
  unfold Memory.setTime Memory.maskAt timeAddr maskAddr
  exact read32_write32_other hm _ (by omega)

theorem Memory.timeAt_setMask {m : Memory} (hm : m.wf = true) (k j : Nat) (b : Word) :
    (m.setMask k b).timeAt j = m.timeAt j := by
  unfold Memory.setMask Memory.timeAt timeAddr maskAddr
  exact read32_write32_other hm _ (by omega)

theorem Memory.maskAt_setMask {m : Memory} (hm : m.wf = true) (k j : Nat) (b : Word) :
    (m.setMask k b).maskAt j = if j = k then b else m.maskAt j := by
  unfold Memory.setMask Memory.maskAt maskAddr
  split
  · subst j; exact read32_write32_same hm _ _
  · exact read32_write32_other hm _ (by omega)

theorem Memory.entry_setMask {m : Memory} (hm : m.wf = true) (k j : Nat) (b : Word) :
    (m.setMask k b).entry j = if j = k then ⟨m.timeAt k, b⟩ else m.entry j := by
  simp only [Memory.entry, timeAt_setMask hm, maskAt_setMask hm]
  split <;> simp_all

/-- An entry read after an entry stored. -/
theorem Memory.entry_setEntry {m : Memory} (hm : m.wf = true) (k j : Nat) (e : EventEntry) :
    (m.setEntry k e).entry j = if j = k then e else m.entry j := by
  have h := wf_setTime k e.time hm
  simp only [Memory.setEntry, Memory.entry, timeAt_setMask h, maskAt_setMask h, timeAt_setTime hm,
    maskAt_setTime hm]
  split <;> rfl

/-- The shift of `Insert`: entries `pos + 1 .. pos + d` are the ones that stood an index lower (R113). -/
theorem Memory.entry_shiftUp {m : Memory} (hm : m.wf = true) (pos d j : Nat) :
    (m.shiftUp pos d).entry j = if pos < j ∧ j ≤ pos + d then m.entry (j - 1) else m.entry j := by
  induction d generalizing m with
  | zero => simp only [Memory.shiftUp]; rw [if_neg (by omega)]
  | succ d ih =>
    simp only [Memory.shiftUp, ih (wf_setEntry _ _ hm), entry_setEntry hm]
    by_cases h1 : pos < j ∧ j ≤ pos + d
    · have h2 : pos < j ∧ j ≤ pos + (d + 1) := by omega
      have h3 : ¬j - 1 = pos + d + 1 := by omega
      simp [h1, h2, h3]
    · by_cases h2 : j = pos + d + 1
      · subst h2
        have h3 : pos < pos + d + 1 ∧ pos + d + 1 ≤ pos + (d + 1) := by omega
        simp [h3]
      · have h3 : ¬(pos < j ∧ j ≤ pos + (d + 1)) := by omega
        simp [h1, h2, h3]

/-! ## The whole-table operations -/

theorem Memory.readByte_filter {lo : Nat} {m : Memory} (hm : Memory.wfFrom lo m = true)
    (p : Nat → Bool) (x : Nat) :
    Memory.readByte (List.filter (fun cell => p cell.1) m) x =
      if p x then Memory.readByte m x else unlistedByte := by
  induction m generalizing lo with
  | nil => simp [Memory.readByte]
  | cons cell m ih =>
    obtain ⟨k, c⟩ := cell
    obtain ⟨-, -, hm⟩ := Memory.wfFrom_cons.1 hm
    rw [List.filter_cons, readByte_cons]
    by_cases hx : x = k
    · subst hx
      by_cases hk : p x
      · simp [hk, readByte_cons]
      · simp [hk, ih hm]
    · by_cases hk : p k
      · simp [hk, readByte_cons, ih hm, hx]
      · simp [hk, ih hm, hx]

/-- After the clear every byte of the space reads as unlisted, and no other byte has changed (R111). -/
theorem Memory.readByte_clearTable (c : Config) {m : Memory} (hm : m.wf = true) (x : Nat) :
    (m.clearTable c).readByte x = if x < spaceBytes c then unlistedByte else m.readByte x := by
  rw [Memory.clearTable, readByte_filter hm fun a => decide (spaceBytes c ≤ a)]
  by_cases h : x < spaceBytes c
  · rw [if_neg (by simpa using h), if_pos h]
  · rw [if_pos (by simpa using h), if_neg h]

theorem Memory.readByte_append {m m' : Memory} (x : Nat) (h : ∀ cell ∈ m, cell.2 ≠ unlistedByte) :
    Memory.readByte (m ++ m') x =
      if Memory.readByte m x = unlistedByte then Memory.readByte m' x else Memory.readByte m x := by
  induction m with
  | nil => simp [Memory.readByte]
  | cons cell m ih =>
    obtain ⟨k, c⟩ := cell
    have hc : c ≠ unlistedByte := h (k, c) (by simp)
    rw [List.cons_append, readByte_cons, readByte_cons]
    split
    · simp
    · exact ih fun cell hcell => h cell (by simp [hcell])

theorem Memory.listed_of_wfFrom {lo : Nat} {m : Memory} (hm : Memory.wfFrom lo m = true) :
    ∀ cell ∈ m, cell.2 ≠ unlistedByte := by
  induction m generalizing lo with
  | nil => simp
  | cons cell m ih =>
    obtain ⟨k, c⟩ := cell
    obtain ⟨-, hc, hm⟩ := Memory.wfFrom_cons.1 hm
    intro cell h
    rcases List.mem_cons.1 h with rfl | h
    · exact hc
    · exact ih hm cell h

/-- After the copy every byte of the space is the source's, and no other byte has changed (R140). -/
theorem Memory.readByte_copyTable (c : Config) {src dst : Memory} (hs : src.wf = true)
    (hd : dst.wf = true) (x : Nat) :
    (src.copyTable c dst).readByte x = if x < spaceBytes c then src.readByte x else dst.readByte x := by
  rw [Memory.copyTable, readByte_append _ (listed_of_wfFrom (wfFrom_filter _ hs)),
    readByte_filter hs fun a => decide (a < spaceBytes c), readByte_clearTable c hd]
  by_cases h : x < spaceBytes c <;> simp +contextual [h]

/-- Entries of a table with equal bytes are equal. -/
theorem Memory.entry_congr {m m' : Memory} {k : Nat}
    (h : ∀ x, 8 * k ≤ x → x < 8 * k + 8 → m.readByte x = m'.readByte x) : m.entry k = m'.entry k := by
  simp only [Memory.entry, Memory.timeAt, Memory.maskAt, Memory.read32, timeAddr, maskAddr]
  rw [h _ (by omega) (by omega), h _ (by omega) (by omega), h _ (by omega) (by omega),
    h _ (by omega) (by omega), h _ (by omega) (by omega), h _ (by omega) (by omega),
    h _ (by omega) (by omega), h _ (by omega) (by omega)]

theorem Memory.entry_nil (k : Nat) : Memory.entry [] k = ⟨0, 0⟩ := by
  simp [Memory.entry, Memory.timeAt, Memory.maskAt, Memory.read32, Memory.readByte, unlistedByte]

/-- An entry after the clear (R111). -/
theorem Memory.entry_clearTable (c : Config) {m : Memory} (hm : m.wf = true) (k : Nat) :
    (m.clearTable c).entry k = if k < c.maxStates then ⟨0, 0⟩ else m.entry k := by
  split
  · refine (entry_congr (m' := []) fun x _ hx => ?_).trans (entry_nil k)
    rw [readByte_clearTable c hm, if_pos (by unfold spaceBytes; omega)]
    rfl
  · refine entry_congr fun x hx _ => ?_
    rw [readByte_clearTable c hm, if_neg (by unfold spaceBytes; omega)]

/-- An entry after the copy (R140). -/
theorem Memory.entry_copyTable (c : Config) {src dst : Memory} (hs : src.wf = true)
    (hd : dst.wf = true) (k : Nat) :
    (src.copyTable c dst).entry k = if k < c.maxStates then src.entry k else dst.entry k := by
  split
  · refine entry_congr fun x _ hx => ?_
    rw [readByte_copyTable c hs hd, if_pos (by unfold spaceBytes; omega)]
  · refine entry_congr fun x hx _ => ?_
    rw [readByte_copyTable c hs hd, if_neg (by unfold spaceBytes; omega)]

/-- Two memories in canonical form with equal bytes are equal data. -/
theorem Memory.eq_of_readByte_from {lo : Nat} {m m' : Memory} (hm : Memory.wfFrom lo m = true)
    (hm' : Memory.wfFrom lo m' = true) (h : ∀ x, Memory.readByte m x = Memory.readByte m' x) :
    m = m' := by
  induction m generalizing lo m' with
  | nil =>
    cases m' with
    | nil => rfl
    | cons cell' m' =>
      obtain ⟨k', c'⟩ := cell'
      have hk := h k'
      rw [readByte_cons, if_pos rfl] at hk
      exact absurd hk.symm (Memory.wfFrom_cons.1 hm').2.1
  | cons cell m ih =>
    obtain ⟨k, c⟩ := cell
    obtain ⟨hk, hc, hm1⟩ := Memory.wfFrom_cons.1 hm
    cases m' with
    | nil =>
      have hk := h k
      rw [readByte_cons, if_pos rfl] at hk
      exact absurd hk hc
    | cons cell' m' =>
      obtain ⟨k', c'⟩ := cell'
      obtain ⟨hk', hc', hm1'⟩ := Memory.wfFrom_cons.1 hm'
      have hkk : k = k' := by
        rcases Nat.lt_trichotomy k k' with hlt | heq | hgt
        · have e1 := h k
          rw [readByte_cons, readByte_cons, if_pos rfl, if_neg (by omega),
            readByte_below hm1' (by omega)] at e1
          exact absurd e1 hc
        · exact heq
        · have e2 := h k'
          rw [readByte_cons, readByte_cons, if_neg (by omega), if_pos rfl,
            readByte_below hm1 (by omega)] at e2
          exact absurd e2.symm hc'
      subst hkk
      have e1 := h k
      rw [readByte_cons, readByte_cons, if_pos rfl, if_pos rfl] at e1
      subst e1
      congr 1
      refine ih hm1 hm1' fun x => ?_
      by_cases hxk : x = k
      · subst hxk
        rw [readByte_below hm1 (by omega), readByte_below hm1' (by omega)]
      · have hx := h x
        rwa [readByte_cons, readByte_cons, if_neg hxk, if_neg hxk] at hx

theorem Memory.eq_of_readByte {m m' : Memory} (hm : m.wf = true) (hm' : m'.wf = true)
    (h : ∀ x, m.readByte x = m'.readByte x) : m = m' := eq_of_readByte_from hm hm' h

end Sys2Proof.Machine
end

