-- ==== Sys2Proof/Laws/State.lean ====
section
/-! SUPPORT. One lemma for each field of each named update of the state, so that no later proof unfolds a
record update. -/

namespace Sys2Proof.Machine

variable (s : State)

/-! ### `markPending` -/

@[simp] theorem markPending_cfg : (markPending s).cfg = s.cfg := rfl
@[simp] theorem markPending_engState : (markPending s).engState = s.engState := rfl
@[simp] theorem markPending_commitPending : (markPending s).commitPending = true := rfl
@[simp] theorem markPending_freshSequence : (markPending s).freshSequence = s.freshSequence := rfl
@[simp] theorem markPending_needsCorrection :
    (markPending s).needsCorrection = s.needsCorrection := rfl
@[simp] theorem markPending_periodUs : (markPending s).periodUs = s.periodUs := rfl
@[simp] theorem markPending_fault : (markPending s).fault = s.fault := rfl
@[simp] theorem markPending_timCnt : (markPending s).timCnt = s.timCnt := rfl
@[simp] theorem markPending_timPeriod : (markPending s).timPeriod = s.timPeriod := rfl
@[simp] theorem markPending_timCcr : (markPending s).timCcr = s.timCcr := rfl
@[simp] theorem markPending_timCen : (markPending s).timCen = s.timCen := rfl
@[simp] theorem markPending_timOpm : (markPending s).timOpm = s.timOpm := rfl
@[simp] theorem markPending_dmaEn : (markPending s).dmaEn = s.dmaEn := rfl
@[simp] theorem markPending_dmaLen : (markPending s).dmaLen = s.dmaLen := rfl
@[simp] theorem markPending_dmaIdx : (markPending s).dmaIdx = s.dmaIdx := rfl
@[simp] theorem markPending_gpioOdr : (markPending s).gpioOdr = s.gpioOdr := rfl
@[simp] theorem markPending_shadow : (markPending s).shadow = s.shadow := rfl
@[simp] theorem markPending_shadowCount : (markPending s).shadowCount = s.shadowCount := rfl
@[simp] theorem markPending_live : (markPending s).live = s.live := rfl
@[simp] theorem markPending_cmdPc : (markPending s).cmdPc = s.cmdPc := rfl
@[simp] theorem markPending_cmdIn : (markPending s).cmdIn = s.cmdIn := rfl
@[simp] theorem markPending_respOut : (markPending s).respOut = s.respOut := rfl
@[simp] theorem markPending_schedule : (markPending s).schedule = s.schedule := rfl
@[simp] theorem markPending_turnCount : (markPending s).turnCount = s.turnCount := rfl

/-! ### `markFresh` -/

@[simp] theorem markFresh_cfg : (markFresh s).cfg = s.cfg := rfl
@[simp] theorem markFresh_engState : (markFresh s).engState = s.engState := rfl
@[simp] theorem markFresh_commitPending : (markFresh s).commitPending = s.commitPending := rfl
@[simp] theorem markFresh_freshSequence : (markFresh s).freshSequence = true := rfl
@[simp] theorem markFresh_needsCorrection : (markFresh s).needsCorrection = s.needsCorrection := rfl
@[simp] theorem markFresh_periodUs : (markFresh s).periodUs = s.periodUs := rfl
@[simp] theorem markFresh_fault : (markFresh s).fault = s.fault := rfl
@[simp] theorem markFresh_timCnt : (markFresh s).timCnt = s.timCnt := rfl
@[simp] theorem markFresh_timPeriod : (markFresh s).timPeriod = s.timPeriod := rfl
@[simp] theorem markFresh_timCcr : (markFresh s).timCcr = s.timCcr := rfl
@[simp] theorem markFresh_timCen : (markFresh s).timCen = s.timCen := rfl
@[simp] theorem markFresh_timOpm : (markFresh s).timOpm = s.timOpm := rfl
@[simp] theorem markFresh_dmaEn : (markFresh s).dmaEn = s.dmaEn := rfl
@[simp] theorem markFresh_dmaLen : (markFresh s).dmaLen = s.dmaLen := rfl
@[simp] theorem markFresh_dmaIdx : (markFresh s).dmaIdx = s.dmaIdx := rfl
@[simp] theorem markFresh_gpioOdr : (markFresh s).gpioOdr = s.gpioOdr := rfl
@[simp] theorem markFresh_shadow : (markFresh s).shadow = s.shadow := rfl
@[simp] theorem markFresh_shadowCount : (markFresh s).shadowCount = s.shadowCount := rfl
@[simp] theorem markFresh_live : (markFresh s).live = s.live := rfl
@[simp] theorem markFresh_cmdPc : (markFresh s).cmdPc = s.cmdPc := rfl
@[simp] theorem markFresh_cmdIn : (markFresh s).cmdIn = s.cmdIn := rfl
@[simp] theorem markFresh_respOut : (markFresh s).respOut = s.respOut := rfl
@[simp] theorem markFresh_schedule : (markFresh s).schedule = s.schedule := rfl
@[simp] theorem markFresh_turnCount : (markFresh s).turnCount = s.turnCount := rfl

/-! ### `beginSequence` -/

@[simp] theorem beginSequence_cfg : (beginSequence s).cfg = s.cfg := rfl
@[simp] theorem beginSequence_engState : (beginSequence s).engState = s.engState := rfl
@[simp] theorem beginSequence_commitPending :
    (beginSequence s).commitPending = s.commitPending := rfl
@[simp] theorem beginSequence_freshSequence : (beginSequence s).freshSequence = false := rfl
@[simp] theorem beginSequence_needsCorrection : (beginSequence s).needsCorrection = true := rfl
@[simp] theorem beginSequence_periodUs : (beginSequence s).periodUs = s.periodUs := rfl
@[simp] theorem beginSequence_fault : (beginSequence s).fault = s.fault := rfl
@[simp] theorem beginSequence_timCnt : (beginSequence s).timCnt = s.timCnt := rfl
@[simp] theorem beginSequence_timPeriod : (beginSequence s).timPeriod = s.timPeriod := rfl
@[simp] theorem beginSequence_timCcr : (beginSequence s).timCcr = s.timCcr := rfl
@[simp] theorem beginSequence_timCen : (beginSequence s).timCen = s.timCen := rfl
@[simp] theorem beginSequence_timOpm : (beginSequence s).timOpm = s.timOpm := rfl
@[simp] theorem beginSequence_dmaEn : (beginSequence s).dmaEn = s.dmaEn := rfl
@[simp] theorem beginSequence_dmaLen : (beginSequence s).dmaLen = s.dmaLen := rfl
@[simp] theorem beginSequence_dmaIdx : (beginSequence s).dmaIdx = s.dmaIdx := rfl
@[simp] theorem beginSequence_gpioOdr : (beginSequence s).gpioOdr = s.gpioOdr := rfl
@[simp] theorem beginSequence_shadow : (beginSequence s).shadow = s.shadow := rfl
@[simp] theorem beginSequence_shadowCount : (beginSequence s).shadowCount = s.shadowCount := rfl
@[simp] theorem beginSequence_live : (beginSequence s).live = s.live := rfl
@[simp] theorem beginSequence_cmdPc : (beginSequence s).cmdPc = s.cmdPc := rfl
@[simp] theorem beginSequence_cmdIn : (beginSequence s).cmdIn = s.cmdIn := rfl
@[simp] theorem beginSequence_respOut : (beginSequence s).respOut = s.respOut := rfl
@[simp] theorem beginSequence_schedule : (beginSequence s).schedule = s.schedule := rfl
@[simp] theorem beginSequence_turnCount : (beginSequence s).turnCount = s.turnCount := rfl

/-! ### `raiseFault` -/

@[simp] theorem raiseFault_cfg (k : FaultKind) : (raiseFault k s).cfg = s.cfg := rfl
@[simp] theorem raiseFault_engState (k : FaultKind) : (raiseFault k s).engState = s.engState := rfl
@[simp] theorem raiseFault_commitPending (k : FaultKind) :
    (raiseFault k s).commitPending = s.commitPending := rfl
@[simp] theorem raiseFault_freshSequence (k : FaultKind) :
    (raiseFault k s).freshSequence = s.freshSequence := rfl
@[simp] theorem raiseFault_needsCorrection (k : FaultKind) :
    (raiseFault k s).needsCorrection = s.needsCorrection := rfl
@[simp] theorem raiseFault_periodUs (k : FaultKind) : (raiseFault k s).periodUs = s.periodUs := rfl
@[simp] theorem raiseFault_fault (k : FaultKind) : (raiseFault k s).fault = s.fault ||| k.bit := rfl
@[simp] theorem raiseFault_timCnt (k : FaultKind) : (raiseFault k s).timCnt = s.timCnt := rfl
@[simp] theorem raiseFault_timPeriod (k : FaultKind) :
    (raiseFault k s).timPeriod = s.timPeriod := rfl
@[simp] theorem raiseFault_timCcr (k : FaultKind) : (raiseFault k s).timCcr = s.timCcr := rfl
@[simp] theorem raiseFault_timCen (k : FaultKind) : (raiseFault k s).timCen = s.timCen := rfl
@[simp] theorem raiseFault_timOpm (k : FaultKind) : (raiseFault k s).timOpm = s.timOpm := rfl
@[simp] theorem raiseFault_dmaEn (k : FaultKind) : (raiseFault k s).dmaEn = s.dmaEn := rfl
@[simp] theorem raiseFault_dmaLen (k : FaultKind) : (raiseFault k s).dmaLen = s.dmaLen := rfl
@[simp] theorem raiseFault_dmaIdx (k : FaultKind) : (raiseFault k s).dmaIdx = s.dmaIdx := rfl
@[simp] theorem raiseFault_gpioOdr (k : FaultKind) : (raiseFault k s).gpioOdr = s.gpioOdr := rfl
@[simp] theorem raiseFault_shadow (k : FaultKind) : (raiseFault k s).shadow = s.shadow := rfl
@[simp] theorem raiseFault_shadowCount (k : FaultKind) :
    (raiseFault k s).shadowCount = s.shadowCount := rfl
@[simp] theorem raiseFault_live (k : FaultKind) : (raiseFault k s).live = s.live := rfl
@[simp] theorem raiseFault_cmdPc (k : FaultKind) : (raiseFault k s).cmdPc = s.cmdPc := rfl
@[simp] theorem raiseFault_cmdIn (k : FaultKind) : (raiseFault k s).cmdIn = s.cmdIn := rfl
@[simp] theorem raiseFault_respOut (k : FaultKind) : (raiseFault k s).respOut = s.respOut := rfl
@[simp] theorem raiseFault_schedule (k : FaultKind) : (raiseFault k s).schedule = s.schedule := rfl
@[simp] theorem raiseFault_turnCount (k : FaultKind) :
    (raiseFault k s).turnCount = s.turnCount := rfl

/-! ### `advance` -/

@[simp] theorem advance_cfg (n : Nat) : (advance n s).cfg = s.cfg := rfl
@[simp] theorem advance_engState (n : Nat) : (advance n s).engState = s.engState := rfl
@[simp] theorem advance_commitPending (n : Nat) :
    (advance n s).commitPending = s.commitPending := rfl
@[simp] theorem advance_freshSequence (n : Nat) :
    (advance n s).freshSequence = s.freshSequence := rfl
@[simp] theorem advance_needsCorrection (n : Nat) :
    (advance n s).needsCorrection = s.needsCorrection := rfl
@[simp] theorem advance_periodUs (n : Nat) : (advance n s).periodUs = s.periodUs := rfl
@[simp] theorem advance_fault (n : Nat) : (advance n s).fault = s.fault := rfl
@[simp] theorem advance_timCnt (n : Nat) : (advance n s).timCnt = s.timCnt := rfl
@[simp] theorem advance_timPeriod (n : Nat) : (advance n s).timPeriod = s.timPeriod := rfl
@[simp] theorem advance_timCcr (n : Nat) : (advance n s).timCcr = s.timCcr := rfl
@[simp] theorem advance_timCen (n : Nat) : (advance n s).timCen = s.timCen := rfl
@[simp] theorem advance_timOpm (n : Nat) : (advance n s).timOpm = s.timOpm := rfl
@[simp] theorem advance_dmaEn (n : Nat) : (advance n s).dmaEn = s.dmaEn := rfl
@[simp] theorem advance_dmaLen (n : Nat) : (advance n s).dmaLen = s.dmaLen := rfl
@[simp] theorem advance_dmaIdx (n : Nat) : (advance n s).dmaIdx = s.dmaIdx := rfl
@[simp] theorem advance_gpioOdr (n : Nat) : (advance n s).gpioOdr = s.gpioOdr := rfl
@[simp] theorem advance_shadow (n : Nat) : (advance n s).shadow = s.shadow := rfl
@[simp] theorem advance_shadowCount (n : Nat) : (advance n s).shadowCount = s.shadowCount := rfl
@[simp] theorem advance_live (n : Nat) : (advance n s).live = s.live := rfl
@[simp] theorem advance_cmdPc (n : Nat) : (advance n s).cmdPc = s.cmdPc + n := rfl
@[simp] theorem advance_cmdIn (n : Nat) : (advance n s).cmdIn = s.cmdIn := rfl
@[simp] theorem advance_respOut (n : Nat) : (advance n s).respOut = s.respOut := rfl
@[simp] theorem advance_schedule (n : Nat) : (advance n s).schedule = s.schedule := rfl
@[simp] theorem advance_turnCount (n : Nat) : (advance n s).turnCount = s.turnCount := rfl

/-! ### `reply` -/

@[simp] theorem reply_cfg (ws : List Word) : (reply ws s).cfg = s.cfg := rfl
@[simp] theorem reply_engState (ws : List Word) : (reply ws s).engState = s.engState := rfl
@[simp] theorem reply_commitPending (ws : List Word) :
    (reply ws s).commitPending = s.commitPending := rfl
@[simp] theorem reply_freshSequence (ws : List Word) :
    (reply ws s).freshSequence = s.freshSequence := rfl
@[simp] theorem reply_needsCorrection (ws : List Word) :
    (reply ws s).needsCorrection = s.needsCorrection := rfl
@[simp] theorem reply_periodUs (ws : List Word) : (reply ws s).periodUs = s.periodUs := rfl
@[simp] theorem reply_fault (ws : List Word) : (reply ws s).fault = s.fault := rfl
@[simp] theorem reply_timCnt (ws : List Word) : (reply ws s).timCnt = s.timCnt := rfl
@[simp] theorem reply_timPeriod (ws : List Word) : (reply ws s).timPeriod = s.timPeriod := rfl
@[simp] theorem reply_timCcr (ws : List Word) : (reply ws s).timCcr = s.timCcr := rfl
@[simp] theorem reply_timCen (ws : List Word) : (reply ws s).timCen = s.timCen := rfl
@[simp] theorem reply_timOpm (ws : List Word) : (reply ws s).timOpm = s.timOpm := rfl
@[simp] theorem reply_dmaEn (ws : List Word) : (reply ws s).dmaEn = s.dmaEn := rfl
@[simp] theorem reply_dmaLen (ws : List Word) : (reply ws s).dmaLen = s.dmaLen := rfl
@[simp] theorem reply_dmaIdx (ws : List Word) : (reply ws s).dmaIdx = s.dmaIdx := rfl
@[simp] theorem reply_gpioOdr (ws : List Word) : (reply ws s).gpioOdr = s.gpioOdr := rfl
@[simp] theorem reply_shadow (ws : List Word) : (reply ws s).shadow = s.shadow := rfl
@[simp] theorem reply_shadowCount (ws : List Word) : (reply ws s).shadowCount = s.shadowCount := rfl
@[simp] theorem reply_live (ws : List Word) : (reply ws s).live = s.live := rfl
@[simp] theorem reply_cmdPc (ws : List Word) : (reply ws s).cmdPc = s.cmdPc := rfl
@[simp] theorem reply_cmdIn (ws : List Word) : (reply ws s).cmdIn = s.cmdIn := rfl
@[simp] theorem reply_respOut (ws : List Word) : (reply ws s).respOut = s.respOut ++ ws := rfl
@[simp] theorem reply_schedule (ws : List Word) : (reply ws s).schedule = s.schedule := rfl
@[simp] theorem reply_turnCount (ws : List Word) : (reply ws s).turnCount = s.turnCount := rfl

/-! ### `bsrrWrite` -/

@[simp] theorem bsrrWrite_cfg (m : Word) : (bsrrWrite m s).cfg = s.cfg := rfl
@[simp] theorem bsrrWrite_engState (m : Word) : (bsrrWrite m s).engState = s.engState := rfl
@[simp] theorem bsrrWrite_commitPending (m : Word) :
    (bsrrWrite m s).commitPending = s.commitPending := rfl
@[simp] theorem bsrrWrite_freshSequence (m : Word) :
    (bsrrWrite m s).freshSequence = s.freshSequence := rfl
@[simp] theorem bsrrWrite_needsCorrection (m : Word) :
    (bsrrWrite m s).needsCorrection = s.needsCorrection := rfl
@[simp] theorem bsrrWrite_periodUs (m : Word) : (bsrrWrite m s).periodUs = s.periodUs := rfl
@[simp] theorem bsrrWrite_fault (m : Word) : (bsrrWrite m s).fault = s.fault := rfl
@[simp] theorem bsrrWrite_timCnt (m : Word) : (bsrrWrite m s).timCnt = s.timCnt := rfl
@[simp] theorem bsrrWrite_timPeriod (m : Word) : (bsrrWrite m s).timPeriod = s.timPeriod := rfl
@[simp] theorem bsrrWrite_timCcr (m : Word) : (bsrrWrite m s).timCcr = s.timCcr := rfl
@[simp] theorem bsrrWrite_timCen (m : Word) : (bsrrWrite m s).timCen = s.timCen := rfl
@[simp] theorem bsrrWrite_timOpm (m : Word) : (bsrrWrite m s).timOpm = s.timOpm := rfl
@[simp] theorem bsrrWrite_dmaEn (m : Word) : (bsrrWrite m s).dmaEn = s.dmaEn := rfl
@[simp] theorem bsrrWrite_dmaLen (m : Word) : (bsrrWrite m s).dmaLen = s.dmaLen := rfl
@[simp] theorem bsrrWrite_dmaIdx (m : Word) : (bsrrWrite m s).dmaIdx = s.dmaIdx := rfl
@[simp] theorem bsrrWrite_gpioOdr (m : Word) : (bsrrWrite m s).gpioOdr = odrApply s.gpioOdr m := rfl
@[simp] theorem bsrrWrite_shadow (m : Word) : (bsrrWrite m s).shadow = s.shadow := rfl
@[simp] theorem bsrrWrite_shadowCount (m : Word) :
    (bsrrWrite m s).shadowCount = s.shadowCount := rfl
@[simp] theorem bsrrWrite_live (m : Word) : (bsrrWrite m s).live = s.live := rfl
@[simp] theorem bsrrWrite_cmdPc (m : Word) : (bsrrWrite m s).cmdPc = s.cmdPc := rfl
@[simp] theorem bsrrWrite_cmdIn (m : Word) : (bsrrWrite m s).cmdIn = s.cmdIn := rfl
@[simp] theorem bsrrWrite_respOut (m : Word) : (bsrrWrite m s).respOut = s.respOut := rfl
@[simp] theorem bsrrWrite_schedule (m : Word) : (bsrrWrite m s).schedule = s.schedule := rfl
@[simp] theorem bsrrWrite_turnCount (m : Word) : (bsrrWrite m s).turnCount = s.turnCount := rfl

/-! ### `hostAppend` -/

@[simp] theorem hostAppend_cfg (ws : List Word) : (hostAppend ws s).cfg = s.cfg := rfl
@[simp] theorem hostAppend_engState (ws : List Word) :
    (hostAppend ws s).engState = s.engState := rfl
@[simp] theorem hostAppend_commitPending (ws : List Word) :
    (hostAppend ws s).commitPending = s.commitPending := rfl
@[simp] theorem hostAppend_freshSequence (ws : List Word) :
    (hostAppend ws s).freshSequence = s.freshSequence := rfl
@[simp] theorem hostAppend_needsCorrection (ws : List Word) :
    (hostAppend ws s).needsCorrection = s.needsCorrection := rfl
@[simp] theorem hostAppend_periodUs (ws : List Word) :
    (hostAppend ws s).periodUs = s.periodUs := rfl
@[simp] theorem hostAppend_fault (ws : List Word) : (hostAppend ws s).fault = s.fault := rfl
@[simp] theorem hostAppend_timCnt (ws : List Word) : (hostAppend ws s).timCnt = s.timCnt := rfl
@[simp] theorem hostAppend_timPeriod (ws : List Word) :
    (hostAppend ws s).timPeriod = s.timPeriod := rfl
@[simp] theorem hostAppend_timCcr (ws : List Word) : (hostAppend ws s).timCcr = s.timCcr := rfl
@[simp] theorem hostAppend_timCen (ws : List Word) : (hostAppend ws s).timCen = s.timCen := rfl
@[simp] theorem hostAppend_timOpm (ws : List Word) : (hostAppend ws s).timOpm = s.timOpm := rfl
@[simp] theorem hostAppend_dmaEn (ws : List Word) : (hostAppend ws s).dmaEn = s.dmaEn := rfl
@[simp] theorem hostAppend_dmaLen (ws : List Word) : (hostAppend ws s).dmaLen = s.dmaLen := rfl
@[simp] theorem hostAppend_dmaIdx (ws : List Word) : (hostAppend ws s).dmaIdx = s.dmaIdx := rfl
@[simp] theorem hostAppend_gpioOdr (ws : List Word) : (hostAppend ws s).gpioOdr = s.gpioOdr := rfl
@[simp] theorem hostAppend_shadow (ws : List Word) : (hostAppend ws s).shadow = s.shadow := rfl
@[simp] theorem hostAppend_shadowCount (ws : List Word) :
    (hostAppend ws s).shadowCount = s.shadowCount := rfl
@[simp] theorem hostAppend_live (ws : List Word) : (hostAppend ws s).live = s.live := rfl
@[simp] theorem hostAppend_cmdPc (ws : List Word) : (hostAppend ws s).cmdPc = s.cmdPc := rfl
@[simp] theorem hostAppend_cmdIn (ws : List Word) : (hostAppend ws s).cmdIn = s.cmdIn ++ ws := rfl
@[simp] theorem hostAppend_respOut (ws : List Word) : (hostAppend ws s).respOut = s.respOut := rfl
@[simp] theorem hostAppend_schedule (ws : List Word) :
    (hostAppend ws s).schedule = s.schedule := rfl
@[simp] theorem hostAppend_turnCount (ws : List Word) :
    (hostAppend ws s).turnCount = s.turnCount := rfl

/-! ### `turnTaken` -/

@[simp] theorem turnTaken_cfg : (turnTaken s).cfg = s.cfg := rfl
@[simp] theorem turnTaken_engState : (turnTaken s).engState = s.engState := rfl
@[simp] theorem turnTaken_commitPending : (turnTaken s).commitPending = s.commitPending := rfl
@[simp] theorem turnTaken_freshSequence : (turnTaken s).freshSequence = s.freshSequence := rfl
@[simp] theorem turnTaken_needsCorrection : (turnTaken s).needsCorrection = s.needsCorrection := rfl
@[simp] theorem turnTaken_periodUs : (turnTaken s).periodUs = s.periodUs := rfl
@[simp] theorem turnTaken_fault : (turnTaken s).fault = s.fault := rfl
@[simp] theorem turnTaken_timCnt : (turnTaken s).timCnt = s.timCnt := rfl
@[simp] theorem turnTaken_timPeriod : (turnTaken s).timPeriod = s.timPeriod := rfl
@[simp] theorem turnTaken_timCcr : (turnTaken s).timCcr = s.timCcr := rfl
@[simp] theorem turnTaken_timCen : (turnTaken s).timCen = s.timCen := rfl
@[simp] theorem turnTaken_timOpm : (turnTaken s).timOpm = s.timOpm := rfl
@[simp] theorem turnTaken_dmaEn : (turnTaken s).dmaEn = s.dmaEn := rfl
@[simp] theorem turnTaken_dmaLen : (turnTaken s).dmaLen = s.dmaLen := rfl
@[simp] theorem turnTaken_dmaIdx : (turnTaken s).dmaIdx = s.dmaIdx := rfl
@[simp] theorem turnTaken_gpioOdr : (turnTaken s).gpioOdr = s.gpioOdr := rfl
@[simp] theorem turnTaken_shadow : (turnTaken s).shadow = s.shadow := rfl
@[simp] theorem turnTaken_shadowCount : (turnTaken s).shadowCount = s.shadowCount := rfl
@[simp] theorem turnTaken_live : (turnTaken s).live = s.live := rfl
@[simp] theorem turnTaken_cmdPc : (turnTaken s).cmdPc = s.cmdPc := rfl
@[simp] theorem turnTaken_cmdIn : (turnTaken s).cmdIn = s.cmdIn := rfl
@[simp] theorem turnTaken_respOut : (turnTaken s).respOut = s.respOut := rfl
@[simp] theorem turnTaken_schedule : (turnTaken s).schedule = s.schedule.tail := rfl
@[simp] theorem turnTaken_turnCount :
    (turnTaken s).turnCount = if s.schedule.isEmpty then s.turnCount + 1 else s.turnCount := rfl

/-! ### `orMask` -/

@[simp] theorem orMask_cfg (j : Nat) (b : Word) : (orMask j b s).cfg = s.cfg := rfl
@[simp] theorem orMask_engState (j : Nat) (b : Word) : (orMask j b s).engState = s.engState := rfl
@[simp] theorem orMask_commitPending (j : Nat) (b : Word) :
    (orMask j b s).commitPending = s.commitPending := rfl
@[simp] theorem orMask_freshSequence (j : Nat) (b : Word) :
    (orMask j b s).freshSequence = s.freshSequence := rfl
@[simp] theorem orMask_needsCorrection (j : Nat) (b : Word) :
    (orMask j b s).needsCorrection = s.needsCorrection := rfl
@[simp] theorem orMask_periodUs (j : Nat) (b : Word) : (orMask j b s).periodUs = s.periodUs := rfl
@[simp] theorem orMask_fault (j : Nat) (b : Word) : (orMask j b s).fault = s.fault := rfl
@[simp] theorem orMask_timCnt (j : Nat) (b : Word) : (orMask j b s).timCnt = s.timCnt := rfl
@[simp] theorem orMask_timPeriod (j : Nat) (b : Word) :
    (orMask j b s).timPeriod = s.timPeriod := rfl
@[simp] theorem orMask_timCcr (j : Nat) (b : Word) : (orMask j b s).timCcr = s.timCcr := rfl
@[simp] theorem orMask_timCen (j : Nat) (b : Word) : (orMask j b s).timCen = s.timCen := rfl
@[simp] theorem orMask_timOpm (j : Nat) (b : Word) : (orMask j b s).timOpm = s.timOpm := rfl
@[simp] theorem orMask_dmaEn (j : Nat) (b : Word) : (orMask j b s).dmaEn = s.dmaEn := rfl
@[simp] theorem orMask_dmaLen (j : Nat) (b : Word) : (orMask j b s).dmaLen = s.dmaLen := rfl
@[simp] theorem orMask_dmaIdx (j : Nat) (b : Word) : (orMask j b s).dmaIdx = s.dmaIdx := rfl
@[simp] theorem orMask_gpioOdr (j : Nat) (b : Word) : (orMask j b s).gpioOdr = s.gpioOdr := rfl
@[simp] theorem orMask_shadow (j : Nat) (b : Word) :
    (orMask j b s).shadow = s.shadow.setMask j (s.shadow.maskAt j ||| b) := rfl
@[simp] theorem orMask_shadowCount (j : Nat) (b : Word) :
    (orMask j b s).shadowCount = s.shadowCount := rfl
@[simp] theorem orMask_live (j : Nat) (b : Word) : (orMask j b s).live = s.live := rfl
@[simp] theorem orMask_cmdPc (j : Nat) (b : Word) : (orMask j b s).cmdPc = s.cmdPc := rfl
@[simp] theorem orMask_cmdIn (j : Nat) (b : Word) : (orMask j b s).cmdIn = s.cmdIn := rfl
@[simp] theorem orMask_respOut (j : Nat) (b : Word) : (orMask j b s).respOut = s.respOut := rfl
@[simp] theorem orMask_schedule (j : Nat) (b : Word) : (orMask j b s).schedule = s.schedule := rfl
@[simp] theorem orMask_turnCount (j : Nat) (b : Word) :
    (orMask j b s).turnCount = s.turnCount := rfl

/-! ### `committed` -/

@[simp] theorem committed_cfg : (committed s).cfg = s.cfg := rfl
@[simp] theorem committed_engState : (committed s).engState = s.engState := rfl
@[simp] theorem committed_commitPending : (committed s).commitPending = false := rfl
@[simp] theorem committed_freshSequence : (committed s).freshSequence = s.freshSequence := rfl
@[simp] theorem committed_needsCorrection : (committed s).needsCorrection = false := rfl
@[simp] theorem committed_periodUs : (committed s).periodUs = s.periodUs := rfl
@[simp] theorem committed_fault : (committed s).fault = s.fault := rfl
@[simp] theorem committed_timCnt : (committed s).timCnt = s.timCnt := rfl
@[simp] theorem committed_timPeriod : (committed s).timPeriod = periodTicks s := rfl
@[simp] theorem committed_timCcr : (committed s).timCcr = s.timCcr := rfl
@[simp] theorem committed_timCen : (committed s).timCen = s.timCen := rfl
@[simp] theorem committed_timOpm : (committed s).timOpm = s.timOpm := rfl
@[simp] theorem committed_dmaEn : (committed s).dmaEn = s.dmaEn := rfl
@[simp] theorem committed_dmaLen : (committed s).dmaLen = s.shadowCount := rfl
@[simp] theorem committed_dmaIdx : (committed s).dmaIdx = s.dmaIdx := rfl
@[simp] theorem committed_gpioOdr : (committed s).gpioOdr = s.gpioOdr := rfl
@[simp] theorem committed_shadow : (committed s).shadow = correctedShadow s := rfl
@[simp] theorem committed_shadowCount : (committed s).shadowCount = s.shadowCount := rfl
@[simp] theorem committed_live :
    (committed s).live = (correctedShadow s).copyTable s.cfg s.live := rfl
@[simp] theorem committed_cmdPc : (committed s).cmdPc = s.cmdPc := rfl
@[simp] theorem committed_cmdIn : (committed s).cmdIn = s.cmdIn := rfl
@[simp] theorem committed_respOut : (committed s).respOut = s.respOut := rfl
@[simp] theorem committed_schedule : (committed s).schedule = s.schedule := rfl
@[simp] theorem committed_turnCount : (committed s).turnCount = s.turnCount := rfl

/-! ### `armed` -/

@[simp] theorem armed_cfg : (armed s).cfg = s.cfg := rfl
@[simp] theorem armed_engState : (armed s).engState = s.engState := rfl
@[simp] theorem armed_commitPending : (armed s).commitPending = s.commitPending := rfl
@[simp] theorem armed_freshSequence : (armed s).freshSequence = s.freshSequence := rfl
@[simp] theorem armed_needsCorrection : (armed s).needsCorrection = s.needsCorrection := rfl
@[simp] theorem armed_periodUs : (armed s).periodUs = s.periodUs := rfl
@[simp] theorem armed_fault : (armed s).fault = s.fault := rfl
@[simp] theorem armed_timCnt : (armed s).timCnt = 0 := rfl
@[simp] theorem armed_timPeriod : (armed s).timPeriod = s.timPeriod := rfl
@[simp] theorem armed_timCcr :
    (armed s).timCcr = if 0 < s.dmaLen then (s.live.timeAt (s.dmaLen - 1)).toNat else s.timCcr := rfl
@[simp] theorem armed_timCen : (armed s).timCen = true := rfl
@[simp] theorem armed_timOpm : (armed s).timOpm = false := rfl
@[simp] theorem armed_dmaEn : (armed s).dmaEn = true := rfl
@[simp] theorem armed_dmaLen : (armed s).dmaLen = s.dmaLen := rfl
@[simp] theorem armed_dmaIdx : (armed s).dmaIdx = 0 := rfl
@[simp] theorem armed_gpioOdr : (armed s).gpioOdr = s.gpioOdr := rfl
@[simp] theorem armed_shadow : (armed s).shadow = s.shadow := rfl
@[simp] theorem armed_shadowCount : (armed s).shadowCount = s.shadowCount := rfl
@[simp] theorem armed_live : (armed s).live = s.live := rfl
@[simp] theorem armed_cmdPc : (armed s).cmdPc = s.cmdPc := rfl
@[simp] theorem armed_cmdIn : (armed s).cmdIn = s.cmdIn := rfl
@[simp] theorem armed_respOut : (armed s).respOut = s.respOut := rfl
@[simp] theorem armed_schedule : (armed s).schedule = s.schedule := rfl
@[simp] theorem armed_turnCount : (armed s).turnCount = s.turnCount := rfl

/-! ### `startDone` -/

@[simp] theorem startDone_cfg : (startDone s).cfg = s.cfg := rfl
@[simp] theorem startDone_engState : (startDone s).engState = s.engState := rfl
@[simp] theorem startDone_commitPending : (startDone s).commitPending = s.commitPending := rfl
@[simp] theorem startDone_freshSequence : (startDone s).freshSequence = true := rfl
@[simp] theorem startDone_needsCorrection : (startDone s).needsCorrection = s.needsCorrection := rfl
@[simp] theorem startDone_periodUs : (startDone s).periodUs = s.periodUs := rfl
@[simp] theorem startDone_fault : (startDone s).fault = s.fault := rfl
@[simp] theorem startDone_timCnt : (startDone s).timCnt = s.timCnt := rfl
@[simp] theorem startDone_timPeriod : (startDone s).timPeriod = s.timPeriod := rfl
@[simp] theorem startDone_timCcr : (startDone s).timCcr = s.timCcr := rfl
@[simp] theorem startDone_timCen : (startDone s).timCen = s.timCen := rfl
@[simp] theorem startDone_timOpm : (startDone s).timOpm = s.timOpm := rfl
@[simp] theorem startDone_dmaEn : (startDone s).dmaEn = s.dmaEn := rfl
@[simp] theorem startDone_dmaLen : (startDone s).dmaLen = s.dmaLen := rfl
@[simp] theorem startDone_dmaIdx : (startDone s).dmaIdx = s.dmaIdx := rfl
@[simp] theorem startDone_gpioOdr : (startDone s).gpioOdr = s.gpioOdr := rfl
@[simp] theorem startDone_shadow : (startDone s).shadow = s.shadow := rfl
@[simp] theorem startDone_shadowCount : (startDone s).shadowCount = s.shadowCount := rfl
@[simp] theorem startDone_live : (startDone s).live = s.live := rfl
@[simp] theorem startDone_cmdPc : (startDone s).cmdPc = s.cmdPc + 1 := rfl
@[simp] theorem startDone_cmdIn : (startDone s).cmdIn = s.cmdIn := rfl
@[simp] theorem startDone_respOut : (startDone s).respOut = s.respOut ++ replyLine 0x01 0 [] := rfl
@[simp] theorem startDone_schedule : (startDone s).schedule = s.schedule := rfl
@[simp] theorem startDone_turnCount : (startDone s).turnCount = s.turnCount := rfl

/-! ### `counterStep` -/

@[simp] theorem counterStep_cfg : (counterStep s).cfg = s.cfg := rfl
@[simp] theorem counterStep_engState : (counterStep s).engState = s.engState := rfl
@[simp] theorem counterStep_commitPending : (counterStep s).commitPending = s.commitPending := rfl
@[simp] theorem counterStep_freshSequence : (counterStep s).freshSequence = s.freshSequence := rfl
@[simp] theorem counterStep_needsCorrection :
    (counterStep s).needsCorrection = s.needsCorrection := rfl
@[simp] theorem counterStep_periodUs : (counterStep s).periodUs = s.periodUs := rfl
@[simp] theorem counterStep_fault : (counterStep s).fault = s.fault := rfl
@[simp] theorem counterStep_timCnt :
    (counterStep s).timCnt = if wraps s then 0 else s.timCnt + 1 := rfl
@[simp] theorem counterStep_timPeriod : (counterStep s).timPeriod = s.timPeriod := rfl
@[simp] theorem counterStep_timCcr : (counterStep s).timCcr = s.timCcr := rfl
@[simp] theorem counterStep_timCen : (counterStep s).timCen = s.timCen := rfl
@[simp] theorem counterStep_timOpm : (counterStep s).timOpm = s.timOpm := rfl
@[simp] theorem counterStep_dmaEn : (counterStep s).dmaEn = s.dmaEn := rfl
@[simp] theorem counterStep_dmaLen : (counterStep s).dmaLen = s.dmaLen := rfl
@[simp] theorem counterStep_dmaIdx : (counterStep s).dmaIdx = s.dmaIdx := rfl
@[simp] theorem counterStep_gpioOdr : (counterStep s).gpioOdr = s.gpioOdr := rfl
@[simp] theorem counterStep_shadow : (counterStep s).shadow = s.shadow := rfl
@[simp] theorem counterStep_shadowCount : (counterStep s).shadowCount = s.shadowCount := rfl
@[simp] theorem counterStep_live : (counterStep s).live = s.live := rfl
@[simp] theorem counterStep_cmdPc : (counterStep s).cmdPc = s.cmdPc := rfl
@[simp] theorem counterStep_cmdIn : (counterStep s).cmdIn = s.cmdIn := rfl
@[simp] theorem counterStep_respOut : (counterStep s).respOut = s.respOut := rfl
@[simp] theorem counterStep_schedule : (counterStep s).schedule = s.schedule := rfl
@[simp] theorem counterStep_turnCount : (counterStep s).turnCount = s.turnCount := rfl

/-! ### `dmaTransfer` -/

@[simp] theorem dmaTransfer_cfg : (dmaTransfer s).cfg = s.cfg := rfl
@[simp] theorem dmaTransfer_engState : (dmaTransfer s).engState = s.engState := rfl
@[simp] theorem dmaTransfer_commitPending : (dmaTransfer s).commitPending = s.commitPending := rfl
@[simp] theorem dmaTransfer_freshSequence : (dmaTransfer s).freshSequence = s.freshSequence := rfl
@[simp] theorem dmaTransfer_needsCorrection :
    (dmaTransfer s).needsCorrection = s.needsCorrection := rfl
@[simp] theorem dmaTransfer_periodUs : (dmaTransfer s).periodUs = s.periodUs := rfl
@[simp] theorem dmaTransfer_fault : (dmaTransfer s).fault = s.fault := rfl
@[simp] theorem dmaTransfer_timCnt : (dmaTransfer s).timCnt = s.timCnt := rfl
@[simp] theorem dmaTransfer_timPeriod : (dmaTransfer s).timPeriod = s.timPeriod := rfl
@[simp] theorem dmaTransfer_timCcr : (dmaTransfer s).timCcr = (s.live.timeAt s.dmaIdx).toNat := rfl
@[simp] theorem dmaTransfer_timCen : (dmaTransfer s).timCen = s.timCen := rfl
@[simp] theorem dmaTransfer_timOpm : (dmaTransfer s).timOpm = s.timOpm := rfl
@[simp] theorem dmaTransfer_dmaEn : (dmaTransfer s).dmaEn = s.dmaEn := rfl
@[simp] theorem dmaTransfer_dmaLen : (dmaTransfer s).dmaLen = s.dmaLen := rfl
@[simp] theorem dmaTransfer_dmaIdx : (dmaTransfer s).dmaIdx = (s.dmaIdx + 1) % s.dmaLen := rfl
@[simp] theorem dmaTransfer_gpioOdr :
    (dmaTransfer s).gpioOdr = odrApply s.gpioOdr (s.live.maskAt s.dmaIdx) := rfl
@[simp] theorem dmaTransfer_shadow : (dmaTransfer s).shadow = s.shadow := rfl
@[simp] theorem dmaTransfer_shadowCount : (dmaTransfer s).shadowCount = s.shadowCount := rfl
@[simp] theorem dmaTransfer_live : (dmaTransfer s).live = s.live := rfl
@[simp] theorem dmaTransfer_cmdPc : (dmaTransfer s).cmdPc = s.cmdPc := rfl
@[simp] theorem dmaTransfer_cmdIn : (dmaTransfer s).cmdIn = s.cmdIn := rfl
@[simp] theorem dmaTransfer_respOut : (dmaTransfer s).respOut = s.respOut := rfl
@[simp] theorem dmaTransfer_schedule : (dmaTransfer s).schedule = s.schedule := rfl
@[simp] theorem dmaTransfer_turnCount : (dmaTransfer s).turnCount = s.turnCount := rfl

/-! ### `halt` -/

@[simp] theorem halt_cfg : (halt s).cfg = s.cfg := rfl
@[simp] theorem halt_engState : (halt s).engState = .idle := rfl
@[simp] theorem halt_commitPending : (halt s).commitPending = s.commitPending := rfl
@[simp] theorem halt_freshSequence : (halt s).freshSequence = s.freshSequence := rfl
@[simp] theorem halt_needsCorrection : (halt s).needsCorrection = s.needsCorrection := rfl
@[simp] theorem halt_periodUs : (halt s).periodUs = s.periodUs := rfl
@[simp] theorem halt_fault : (halt s).fault = s.fault := rfl
@[simp] theorem halt_timCnt : (halt s).timCnt = s.timCnt := rfl
@[simp] theorem halt_timPeriod : (halt s).timPeriod = s.timPeriod := rfl
@[simp] theorem halt_timCcr : (halt s).timCcr = s.timCcr := rfl
@[simp] theorem halt_timCen : (halt s).timCen = false := rfl
@[simp] theorem halt_timOpm : (halt s).timOpm = false := rfl
@[simp] theorem halt_dmaEn : (halt s).dmaEn = false := rfl
@[simp] theorem halt_dmaLen : (halt s).dmaLen = s.dmaLen := rfl
@[simp] theorem halt_dmaIdx : (halt s).dmaIdx = s.dmaIdx := rfl
@[simp] theorem halt_gpioOdr : (halt s).gpioOdr = odrApply s.gpioOdr (idleMask s.cfg) := rfl
@[simp] theorem halt_shadow : (halt s).shadow = s.shadow := rfl
@[simp] theorem halt_shadowCount : (halt s).shadowCount = s.shadowCount := rfl
@[simp] theorem halt_live : (halt s).live = s.live := rfl
@[simp] theorem halt_cmdPc : (halt s).cmdPc = s.cmdPc := rfl
@[simp] theorem halt_cmdIn : (halt s).cmdIn = s.cmdIn := rfl
@[simp] theorem halt_respOut : (halt s).respOut = s.respOut := rfl
@[simp] theorem halt_schedule : (halt s).schedule = s.schedule := rfl
@[simp] theorem halt_turnCount : (halt s).turnCount = s.turnCount := rfl

/-! ### `resetBlock` -/

@[simp] theorem resetBlock_cfg : (resetBlock s).cfg = s.cfg := rfl
@[simp] theorem resetBlock_engState : (resetBlock s).engState = .idle := rfl
@[simp] theorem resetBlock_commitPending : (resetBlock s).commitPending = false := rfl
@[simp] theorem resetBlock_freshSequence : (resetBlock s).freshSequence = true := rfl
@[simp] theorem resetBlock_needsCorrection : (resetBlock s).needsCorrection = false := rfl
@[simp] theorem resetBlock_periodUs : (resetBlock s).periodUs = s.cfg.resetPeriodUs := rfl
@[simp] theorem resetBlock_fault : (resetBlock s).fault = s.fault := rfl
@[simp] theorem resetBlock_timCnt : (resetBlock s).timCnt = 0 := rfl
@[simp] theorem resetBlock_timPeriod : (resetBlock s).timPeriod = 0 := rfl
@[simp] theorem resetBlock_timCcr : (resetBlock s).timCcr = 0 := rfl
@[simp] theorem resetBlock_timCen : (resetBlock s).timCen = false := rfl
@[simp] theorem resetBlock_timOpm : (resetBlock s).timOpm = false := rfl
@[simp] theorem resetBlock_dmaEn : (resetBlock s).dmaEn = false := rfl
@[simp] theorem resetBlock_dmaLen : (resetBlock s).dmaLen = 0 := rfl
@[simp] theorem resetBlock_dmaIdx : (resetBlock s).dmaIdx = 0 := rfl
@[simp] theorem resetBlock_gpioOdr : (resetBlock s).gpioOdr = idleLevels s.cfg := rfl
@[simp] theorem resetBlock_shadow : (resetBlock s).shadow = s.shadow.clearTable s.cfg := rfl
@[simp] theorem resetBlock_shadowCount : (resetBlock s).shadowCount = 0 := rfl
@[simp] theorem resetBlock_live : (resetBlock s).live = s.live.clearTable s.cfg := rfl
@[simp] theorem resetBlock_cmdPc : (resetBlock s).cmdPc = s.cmdPc := rfl
@[simp] theorem resetBlock_cmdIn : (resetBlock s).cmdIn = s.cmdIn := rfl
@[simp] theorem resetBlock_respOut : (resetBlock s).respOut = s.respOut := rfl
@[simp] theorem resetBlock_schedule : (resetBlock s).schedule = s.schedule := rfl
@[simp] theorem resetBlock_turnCount : (resetBlock s).turnCount = s.turnCount := rfl

end Sys2Proof.Machine
end

