-- ==== Sys2Proof/Laws/Ops.lean ====
section
/-! SUPPORT. One lemma for each shared operation that says once everything it can do, for later proofs to
cite instead of unfolding it. -/

namespace Sys2Proof.Machine

/-! ## Outcomes -/

@[simp] theorem Result.andThen_of_next (s : State) (k : State → Result) :
    (Result.next s).andThen k = k s := rfl

/-- Two parts of a step reach a next state only through a next state of the first. -/
theorem Result.andThen_eq_next {r : Result} {k : State → Result} {t : State} :
    r.andThen k = .next t ↔ ∃ s, r = .next s ∧ k s = .next t := by
  cases r <;> simp [Result.andThen]

/-- A settled step's next state: the step's own, the same state for a hold, or the state with one more
fault bit. -/
theorem settle_eq_next {s t : State} {r : Result} :
    settle s r = .next t ↔
      r = .next t ∨ (r = .hold ∧ t = s) ∨ ∃ k, r = .raise k ∧ t = raiseFault k s := by
  cases r <;> simp [settle, eq_comm]

/-- A command's next state, which asks for a valid configuration. -/
theorem runCommand_eq_next {s t : State} {r : Result} :
    runCommand s r = .next t ↔
      s.cfg.valid = true ∧
        (r = .next t ∨ (r = .hold ∧ t = s) ∨ ∃ k, r = .raise k ∧ t = raiseFault k s) := by
  unfold runCommand
  split <;> simp_all [settle_eq_next]

@[simp] theorem runCommand_valid {s : State} (h : s.cfg.valid = true) (r : Result) :
    runCommand s r = settle s r := by simp [runCommand, h]

/-- A step's next state, by whose turn it is. -/
theorem step_eq_next {s t : State} :
    step s = .next t ↔
      (turnTaken s).cfg.valid = true ∧
        ((∃ ws, nextTurn s = .host ws ∧ t = hostAppend ws (turnTaken s)) ∨
          (nextTurn s = .command ∧ commandTurn (turnTaken s) = .next t) ∨
          (nextTurn s = .timer ∧ settle (turnTaken s) (timerResult (turnTaken s)) = .next t)) := by
  unfold step turn
  split
  · cases nextTurn s <;> simp_all [eq_comm (a := t)]
  · simp_all

/-- The host's turn, scheduled or free. -/
theorem step_of_host {s : State} {ws : List Word} (hv : s.cfg.valid = true)
    (h : nextTurn s = .host ws) : step s = .next (hostAppend ws (turnTaken s)) := by
  rw [step, h, turn, turnTaken_cfg, if_pos hv]

/-- The command agent's turn, scheduled or free. -/
theorem step_of_command {s : State} (hv : s.cfg.valid = true) (h : nextTurn s = .command) :
    step s = commandTurn (turnTaken s) := by
  rw [step, h, turn, turnTaken_cfg, if_pos hv]

/-- The timer agent's turn, scheduled or free. -/
theorem step_of_timer {s : State} (hv : s.cfg.valid = true) (h : nextTurn s = .timer) :
    step s = settle (turnTaken s) (timerResult (turnTaken s)) := by
  rw [step, h, turn, turnTaken_cfg, if_pos hv]

/-- The command agent's next state: the fetched command's, or the same state while it is incomplete. -/
theorem commandTurn_eq_next {s t : State} :
    commandTurn s = .next t ↔
      (∃ i, fetch s = some i ∧ exec i s = .next t) ∨ (fetch s = none ∧ t = s) := by
  unfold commandTurn
  cases fetch s <;> simp [eq_comm]

/-- A reply's header whose count fits its field (R95). -/
theorem replyHeader_fits (a : BitVec 8) (b : Nat) {n : Nat} (hn : n < 2 ^ 16) :
    replyHeader a b n = a ++ BitVec.ofNat 8 b ++ BitVec.ofNat 16 n := if_pos hn

theorem channelInRange_iff {c : Config} {ch : BitVec 8} :
    channelInRange c ch = true ↔ ch.toNat < c.channelCount := by simp [channelInRange]

/-- What a valid configuration says (R7, R8). -/
theorem config_valid_iff {c : Config} :
    c.valid = true ↔
      1 ≤ c.channelCount ∧ c.channelCount ≤ 16 ∧ (∀ ch ∈ c.channels, ch.pin < 16) ∧
        (c.channels.map ChannelSpec.pin).Nodup ∧ 1 ≤ c.tickMult ∧ 1 ≤ c.maxStates ∧
          1 ≤ c.maxToggles := by
  simp [Config.valid, and_assoc]

/-! ## SETCH -/

/-- An insert changes the shadow table and its count only. -/
theorem insertEntry_eq (pos : Nat) (t b : Word) (s : State) :
    insertEntry pos t b s =
      { s with shadow := (insertEntry pos t b s).shadow
               shadowCount := (insertEntry pos t b s).shadowCount } := by
  unfold insertEntry; split <;> rfl

/-- A merge is an insert at one of three positions, or the OR of a bit into the entry that has the time. -/
theorem mergeInsert_cases (t b : Word) (s : State) :
    (t < minTime s ∧ mergeInsert t b s = insertEntry 0 t b s) ∨
      (maxTime s < t ∧ mergeInsert t b s = insertEntry s.shadowCount t b s) ∨
      (∃ j, j < s.shadowCount ∧ s.shadow.timeAt j = t ∧ mergeInsert t b s = orMask j b s) ∨
      (¬t < minTime s ∧ ¬maxTime s < t ∧ (∀ j, j < s.shadowCount → s.shadow.timeAt j ≠ t) ∧
        mergeInsert t b s = insertEntry (firstAbove s t) t b s) := by
  unfold mergeInsert
  split
  · exact .inl ⟨‹_›, rfl⟩
  split
  · exact .inr (.inl ⟨‹_›, rfl⟩)
  rename_i h1 h2
  split
  · rename_i j hj
    refine .inr (.inr (.inl ⟨j, ?_, ?_, rfl⟩))
    · simpa using List.mem_of_find?_eq_some hj
    · simpa using List.find?_some hj
  · rename_i hn
    refine .inr (.inr (.inr ⟨h1, h2, fun j hj => ?_, rfl⟩))
    simpa using List.find?_eq_none.1 hn j (List.mem_range.2 hj)

/-- A merge changes the shadow table and its count only. -/
theorem mergeInsert_eq (t b : Word) (s : State) :
    mergeInsert t b s =
      { s with shadow := (mergeInsert t b s).shadow
               shadowCount := (mergeInsert t b s).shadowCount } := by
  rcases mergeInsert_cases t b s with ⟨-, h⟩ | ⟨-, h⟩ | ⟨j, -, -, h⟩ | ⟨-, -, -, h⟩
  · rw [h]; exact insertEntry_eq ..
  · rw [h]; exact insertEntry_eq ..
  · rw [h]; rfl
  · rw [h]; exact insertEntry_eq ..

/-- The merges of a SETCH change the shadow table and its count only. -/
theorem mergeAll_eq (tbs : List (Word × Word)) (s : State) :
    mergeAll tbs s =
      { s with shadow := (mergeAll tbs s).shadow
               shadowCount := (mergeAll tbs s).shadowCount } := by
  induction tbs generalizing s with
  | nil => rfl
  | cons tb tbs ih =>
    rw [show mergeAll (tb :: tbs) s = mergeAll tbs (mergeInsert tb.1 tb.2 s) from rfl]
    generalize hu : mergeInsert tb.1 tb.2 s = u
    have hs := mergeInsert_eq tb.1 tb.2 s
    rw [hu] at hs
    rw [ih u, hs]

/-- The fresh-sequence check, either way (R111). -/
theorem freshSequenceCheck_cases (s : State) :
    (s.freshSequence = true ∧
        freshSequenceCheck s =
          { s with shadow := s.shadow.clearTable s.cfg, shadowCount := 0,
                   needsCorrection := true, freshSequence := false }) ∨
      (s.freshSequence = false ∧ freshSequenceCheck s = s) := by
  unfold freshSequenceCheck beginSequence
  cases h : s.freshSequence <;> simp

/-- What a SETCH leaves of everything but the shadow table, its count and the three flags. -/
theorem setchStaged_eq (ch : BitVec 8) (times : List Word) (s : State) :
    setchStaged ch times s =
      { s with shadow := (setchStaged ch times s).shadow
               shadowCount := (setchStaged ch times s).shadowCount
               commitPending := true
               freshSequence := false
               needsCorrection := s.freshSequence || s.needsCorrection } := by
  unfold setchStaged
  rw [mergeAll_eq]
  rcases freshSequenceCheck_cases s with ⟨hf, h⟩ | ⟨hf, h⟩
  · rw [h]; simp [hf, markPending]
  · rw [h]; simp [hf, markPending]

/-- SETCH's ways (R110). -/
theorem setchResult_cases (ch : BitVec 8) (times : List Word) (s : State) :
    (channelInRange s.cfg ch = false ∧
        setchResult ch times s = .next (advance (1 + times.length) s)) ∨
      (channelInRange s.cfg ch = true ∧ hasZeroTime s.cfg times = true ∧
        setchResult ch times s = .raise .zeroTime) ∨
      (channelInRange s.cfg ch = true ∧ hasZeroTime s.cfg times = false ∧
        s.cfg.maxStates < (freshSequenceCheck s).shadowCount ∧
        setchResult ch times s = .stop .tableBounds) ∨
      (channelInRange s.cfg ch = true ∧ hasZeroTime s.cfg times = false ∧
        (freshSequenceCheck s).shadowCount ≤ s.cfg.maxStates ∧
        setchResult ch times s =
          .next (advance (1 + times.length)
            (reply (replyLine 0x04 ch.toNat (usedTimes s.cfg times)) (setchStaged ch times s)))) := by
  unfold setchResult countOutside
  cases channelInRange s.cfg ch <;> cases hasZeroTime s.cfg times <;>
    rcases Nat.lt_or_ge s.cfg.maxStates (freshSequenceCheck s).shadowCount with h | h <;>
    simp [h, Nat.not_lt.2]

/-! ## START -/

/-- A commit that reaches a next state passed its gate and its checks (R140). -/
theorem commit_eq_next {s t : State} :
    commit s = .next t ↔
      s.dmaEn = false ∧ s.shadowCount ≤ s.cfg.maxStates ∧ timeOverflows s = false ∧
        periodOverflows s = false ∧ t = committed s := by
  unfold commit countOutside
  cases s.dmaEn <;> cases timeOverflows s <;> cases periodOverflows s <;>
    rcases Nat.lt_or_ge s.cfg.maxStates s.shadowCount with h | h <;>
    simp [h, Nat.not_lt.2, Nat.not_le.2, eq_comm]

/-- An arm that reaches a next state passed its checks (R162). -/
theorem arm_eq_next {s t : State} :
    arm s = .next t ↔
      s.timPeriod ≠ 0 ∧ s.dmaLen ≤ s.cfg.maxStates ∧
        (0 < s.cfg.dmaLatencyTicks → spacingViolation s = false) ∧ t = armed s := by
  unfold arm countOutside
  by_cases hp : s.timPeriod = 0 <;> by_cases hl : 0 < s.cfg.dmaLatencyTicks <;>
    cases spacingViolation s <;>
    rcases Nat.lt_or_ge s.cfg.maxStates s.dmaLen with h | h <;>
    simp [hp, hl, h, Nat.not_lt.2, Nat.not_le.2, eq_comm]

/-- START's next states of its own: the acknowledged no-op in RUNNING, and the armed engine from IDLE,
after the commit if one is pending (R161). -/
theorem startResult_eq_next {s t : State} :
    startResult s = .next t ↔
      (s.engState = .running ∧ t = startDone s) ∨
        (s.engState = .idle ∧
          ∃ s1, (if s.commitPending then commit s else .next s) = .next s1 ∧
            arm s1 = .next (armed s1) ∧ t = startDone { armed s1 with engState := .running }) := by
  unfold startResult
  cases h : s.engState with
  | running => simp [eq_comm (a := t)]
  | stopRequested => simp
  | stopping => simp
  | idle =>
    simp only [Result.andThen_eq_next, reduceCtorEq, false_and, true_and, false_or]
    constructor
    · rintro ⟨s1, h1, s2, h2, h3⟩
      obtain rfl := (arm_eq_next.1 h2).2.2.2
      exact ⟨s1, h1, h2, (Result.next.inj h3).symm⟩
    · rintro ⟨s1, h1, h2, rfl⟩
      exact ⟨s1, h1, armed s1, h2, rfl⟩

/-! ## Playback -/

/-- The compare step: nothing, or the transfer of the entry at `DMA_IDX` (R182, R184). -/
theorem compareStep_eq_next {s t : State} :
    compareStep s = .next t ↔
      (transferDue s = false ∧ t = s) ∨
        (transferDue s = true ∧ s.dmaIdx < s.cfg.maxStates ∧ t = dmaTransfer s) := by
  unfold compareStep countOutside
  cases transferDue s <;>
    rcases Nat.lt_or_ge s.cfg.maxStates (s.dmaIdx + 1) with h | h <;>
    simp [h, Nat.not_lt.2, eq_comm (a := t)] <;> omega

/-- A tick: the counter's step, the compare step, and on a wrap the wrap service (R180). -/
theorem tick_eq_next {s t : State} :
    tick s = .next t ↔
      ∃ s1, compareStep (counterStep s) = .next s1 ∧ t = if wraps s then wrapService s1 else s1 := by
  unfold tick
  rw [Result.andThen_eq_next]
  simp only [Result.next.injEq, eq_comm (a := t)]

/-- The timer agent raises nothing and refuses nothing: it ticks, holds, or stops at the end of a table
space (R240). -/
theorem timerResult_cases (s : State) :
    (s.timCen = false ∧ timerResult s = .hold) ∨
      (s.timCen = true ∧ ∃ t, tick s = .next t ∧ timerResult s = .next t) ∨
      (s.timCen = true ∧ s.cfg.maxStates ≤ s.dmaIdx ∧ timerResult s = .stop .tableBounds) := by
  unfold timerResult
  cases s.timCen
  · exact .inl ⟨rfl, rfl⟩
  · rw [if_pos rfl]
    unfold tick compareStep countOutside
    split
    · exact .inr (.inl ⟨rfl, _, rfl, rfl⟩)
    · split
      · rename_i h
        refine .inr (.inr ⟨rfl, ?_, rfl⟩)
        simpa [Nat.lt_succ_iff] using h
      · exact .inr (.inl ⟨rfl, _, rfl, rfl⟩)

/-- The wrap service in each state of the engine (R185). -/
theorem wrapService_cases (s : State) :
    ((s.engState = .running ∨ s.engState = .idle) ∧ wrapService s = s) ∨
      (s.engState = .stopRequested ∧
        wrapService s = { s with timOpm := true, engState := .stopping }) ∨
      (s.engState = .stopping ∧ wrapService s = halt s) := by
  unfold wrapService
  cases s.engState <;> simp

/-- `ODR_apply` at one pin (R186, R187). -/
theorem getLsbD_odrApply (odr : Levels) (m : Word) {p : Nat} (hp : p < 16) :
    (odrApply odr m).getLsbD p = (m.getLsbD p || (odr.getLsbD p && !m.getLsbD (16 + p))) := by
  simp [odrApply, hp, Bool.or_comm]

end Sys2Proof.Machine
end

