-- ==== Sys2Proof/Laws/Commit.lean ====
section
/-! SUPPORT. What TimeCorrection and the commit do to the tables, their two overflow checks, and the spacing
check of the events they leave. -/

namespace Sys2Proof.Machine

theorem timeOverflows_eq_false {s : State} :
    timeOverflows s = false ↔
      (s.needsCorrection = true → ∀ j, j < s.shadowCount →
        (s.shadow.timeAt j).toNat * s.cfg.tickMult < 2 ^ s.cfg.timerBits) := by
  simp [timeOverflows]
  rfl

theorem timeOverflows_eq_true {s : State} (h : s.needsCorrection = true) :
    timeOverflows s = true ↔
      ∃ j, j < s.shadowCount ∧
        2 ^ s.cfg.timerBits ≤ (s.shadow.timeAt j).toNat * s.cfg.tickMult := by
  simp [timeOverflows, h]
  rfl

theorem periodOverflows_eq_false {s : State} :
    periodOverflows s = false ↔ s.periodUs.toNat * s.cfg.tickMult < 2 ^ s.cfg.timerBits := by
  rw [periodOverflows, decide_eq_false_iff_not, Nat.not_le]
  rfl

/-- The loop of TimeCorrection after `d` rounds (R143). -/
theorem rotateTimes_spec (c : Config) (d : Nat) {m : Memory} (hm : m.wf = true) :
    (rotateTimes c d m).wf = true ∧ (∀ k, (rotateTimes c d m).maskAt k = m.maskAt k) ∧
      ∀ k, (rotateTimes c d m).timeAt k =
        if k < d then storedTime (scaledTime c (m.timeAt (k + 1))) else m.timeAt k := by
  induction d with
  | zero => exact ⟨hm, fun _ => rfl, fun k => by simp [rotateTimes]⟩
  | succ d ih =>
    obtain ⟨h1, h2, h3⟩ := ih
    have hs : rotateTimes c (d + 1) m =
        (rotateTimes c d m).setTime d
          (storedTime (scaledTime c ((rotateTimes c d m).timeAt (d + 1)))) := by
      simp [rotateTimes, List.range_succ]
    refine ⟨?_, fun k => ?_, fun k => ?_⟩
    · rw [hs]; exact Memory.wf_setTime _ _ h1
    · rw [hs, Memory.maskAt_setTime h1, h2]
    · rw [hs, Memory.timeAt_setTime h1, h3, h3, if_neg (show ¬d + 1 < d by omega)]
      split_ifs <;> first | rfl | omega | (subst_vars; rfl)

/-- TimeCorrection of the first `n` entries: the time column rotated left by one and scaled, the masks and
every later entry as they were (R143, R147). -/
theorem timeCorrection_spec (c : Config) (n : Nat) {m : Memory} (hm : m.wf = true) :
    (timeCorrection c n m).wf = true ∧ (∀ k, (timeCorrection c n m).maskAt k = m.maskAt k) ∧
      (∀ k, k < n →
        (timeCorrection c n m).timeAt k = storedTime (scaledTime c (m.timeAt ((k + 1) % n)))) ∧
      (∀ k, n ≤ k → (timeCorrection c n m).timeAt k = m.timeAt k) := by
  unfold timeCorrection
  split
  · subst_vars
    exact ⟨hm, fun _ => rfl, fun k hk => absurd hk (Nat.not_lt_zero k), fun _ _ => rfl⟩
  · obtain ⟨h1, h2, h3⟩ := rotateTimes_spec c (n - 1) hm
    refine ⟨Memory.wf_setTime _ _ h1, fun k => ?_, fun k hk => ?_, fun k hk => ?_⟩
    · rw [Memory.maskAt_setTime h1, h2]
    · rw [Memory.timeAt_setTime h1, h3]
      rcases Nat.lt_or_ge k (n - 1) with h | h
      · rw [if_neg (by omega), if_pos h, Nat.mod_eq_of_lt (show k + 1 < n by omega)]
      · obtain rfl : k = n - 1 := by omega
        rw [if_pos rfl, show n - 1 + 1 = n by omega, Nat.mod_self]
    · rw [Memory.timeAt_setTime h1, h3, if_neg (by omega), if_neg (by omega)]

/-- The shadow table the commit copies, either way (R142). -/
theorem correctedShadow_spec {s : State} (hm : s.shadow.wf = true) :
    (correctedShadow s).wf = true ∧ (∀ k, (correctedShadow s).maskAt k = s.shadow.maskAt k) ∧
      (∀ k, s.shadowCount ≤ k → (correctedShadow s).timeAt k = s.shadow.timeAt k) ∧
      (s.needsCorrection = false → correctedShadow s = s.shadow) ∧
      (s.needsCorrection = true → ∀ k, k < s.shadowCount →
        (correctedShadow s).timeAt k =
          storedTime (scaledTime s.cfg (s.shadow.timeAt ((k + 1) % s.shadowCount)))) := by
  unfold correctedShadow
  obtain ⟨h1, h2, h3, h4⟩ := timeCorrection_spec s.cfg s.shadowCount hm
  cases s.needsCorrection
  · exact ⟨hm, fun _ => rfl, fun _ _ => rfl, fun _ => rfl, fun h => absurd h (by decide)⟩
  · exact ⟨h1, h2, h4, fun h => absurd h (by decide), fun _ => h3⟩

/-- The commit keeps both spaces canonical. -/
theorem memoriesCanonical_committed {s : State} (hm : memoriesCanonical s = true) :
    memoriesCanonical (committed s) = true := by
  simp only [memoriesCanonical, Bool.and_eq_true] at hm ⊢
  have hc := (correctedShadow_spec hm.1).1
  exact ⟨hc, Memory.wf_copyTable _ hc hm.2⟩

/-- The live entries a commit leaves are the corrected shadow's (R140). -/
theorem entry_live_committed {s : State} (hm : memoriesCanonical s = true) {k : Nat}
    (hk : k < s.cfg.maxStates) : (committed s).live.entry k = (correctedShadow s).entry k := by
  simp only [memoriesCanonical, Bool.and_eq_true] at hm
  change ((correctedShadow s).copyTable s.cfg s.live).entry k = _
  rw [Memory.entry_copyTable _ (correctedShadow_spec hm.1).1 hm.2, if_pos hk]

/-- The spacing check of the arm step is R189's condition on the live table. -/
theorem spacingViolation_iff {s : State} :
    0 < s.cfg.dmaLatencyTicks ∧ spacingViolation s = true ↔
      EventsTooClose s.cfg.dmaLatencyTicks s.dmaLen (cycleLength s) (cyclicTime s.live s.dmaLen) := by
  simp only [spacingViolation, EventsTooClose, Bool.and_eq_true, Bool.or_eq_true, decide_eq_true_eq,
    List.any_eq_true, List.mem_range]
  change _ ↔ 0 < _ ∧ 1 ≤ _ ∧ ((∃ k, k < _ ∧ (eventTime s (k + 1) : Int) - eventTime s k ≤ _) ∨
    (_ - (eventTime s (s.dmaLen - 1) : Int)) + eventTime s 0 ≤ _)
  refine and_congr_right fun _ => and_congr_right fun _ => or_congr ?_ (by omega)
  exact exists_congr fun k => and_congr_right fun _ => by omega

/-- The event times of the table a commit leaves. -/
theorem cyclicTime_committed {s : State} (hm : memoriesCanonical s = true)
    (hn : s.shadowCount ≤ s.cfg.maxStates) {k : Nat} (hk : k < s.shadowCount) :
    cyclicTime (committed s).live s.shadowCount k = committedTime s k := by
  have hj : (k + s.shadowCount - 1) % s.shadowCount < s.shadowCount := Nat.mod_lt _ (by omega)
  have he := congrArg EventEntry.time (entry_live_committed hm (Nat.lt_of_lt_of_le hj hn))
  have hw : s.shadow.wf = true := by
    simp only [memoriesCanonical, Bool.and_eq_true] at hm
    exact hm.1
  obtain ⟨-, -, -, h0, h1⟩ := correctedShadow_spec hw
  change (committed s).live.timeAt _ = (correctedShadow s).timeAt _ at he
  rw [cyclicTime, he, committedTime]
  cases hc : s.needsCorrection
  · rw [h0 hc]; rfl
  · rw [h1 hc _ hj, Nat.mod_add_mod, show k + s.shadowCount - 1 + 1 = k + s.shadowCount by omega,
      Nat.add_mod_right, Nat.mod_eq_of_lt hk]
    rfl

/-- R189's condition reads the event times below `n` only. -/
theorem eventsTooClose_congr {d n L : Nat} {T U : Nat → Nat} (h : ∀ k, k < n → T k = U k) :
    EventsTooClose d n L T ↔ EventsTooClose d n L U := by
  refine and_congr_right fun _ => and_congr_right fun hn => ?_
  rw [h (n - 1) (by omega), h 0 (by omega)]
  refine or_congr (exists_congr fun k => and_congr_right fun hk => ?_) Iff.rfl
  rw [h (k + 1) (by omega), h k (by omega)]

/-- The spacing check of an arm that follows a commit is R189's condition on the times it commits. -/
theorem spacingViolation_committed_iff {s : State} (hm : memoriesCanonical s = true)
    (hn : s.shadowCount ≤ s.cfg.maxStates) :
    0 < s.cfg.dmaLatencyTicks ∧ spacingViolation (committed s) = true ↔
      EventsTooClose s.cfg.dmaLatencyTicks s.shadowCount (cycleLength (committed s))
        (committedTime s) :=
  (spacingViolation_iff (s := committed s)).trans
    (eventsTooClose_congr fun _ hk => cyclicTime_committed hm hn hk)

end Sys2Proof.Machine
end

