-- ==== Sys2Proof/Laws/Decode.lean ====
section
/-! SUPPORT. The fields of a header the encoder writes, and how the decoder sees them (30_encoding.md R85,
R86, R92). -/

namespace Sys2Proof

@[simp] theorem opcodeOf_commandHeader (op hi lo : BitVec 8) :
    opcodeOf (commandHeader op hi lo) = op := by
  apply BitVec.eq_of_getLsbD_eq
  intro i hlt
  simp only [opcodeOf, commandHeader, BitVec.getLsbD_extractLsb', BitVec.getLsbD_append, hlt,
    decide_true, Bool.true_and]
  rw [if_neg (by omega), if_neg (by omega), if_neg (by omega)]
  congr 1
  omega

@[simp] theorem channelOf_commandHeader (op hi lo : BitVec 8) :
    channelOf (commandHeader op hi lo) = hi := by
  apply BitVec.eq_of_getLsbD_eq
  intro i hlt
  simp only [channelOf, commandHeader, BitVec.getLsbD_extractLsb', BitVec.getLsbD_append, hlt,
    decide_true, Bool.true_and]
  rw [if_neg (by omega), if_neg (by omega), if_pos (by omega)]
  congr 1
  omega

@[simp] theorem countOf_commandHeader (op hi lo : BitVec 8) :
    countOf (commandHeader op hi lo) = lo := by
  apply BitVec.eq_of_getLsbD_eq
  intro i hlt
  simp only [countOf, commandHeader, BitVec.getLsbD_extractLsb', BitVec.getLsbD_append, hlt,
    decide_true, Bool.true_and]
  rw [if_pos (by omega)]
  congr 1
  omega

@[simp] theorem addressOf_commandHeader (op hi lo : BitVec 8) :
    addressOf (commandHeader op hi lo) = lo := countOf_commandHeader op hi lo

/-- The decoder on a header whose operand words are all there (R92). -/
theorem decode_cons {h : Word} {ws : List Word} (hw : commandLength h - 1 ≤ ws.length) :
    decode (h :: ws) = .ok (commandOf h ws, ws.drop (commandLength h - 1)) := by
  simp [decode, Nat.not_lt.2 hw]

/-- A count that fits its 8 bits is read back (R86). -/
theorem toNat_count {times : List Word} (h : countFits times = true) :
    (BitVec.ofNat 8 times.length).toNat = times.length := by
  simp only [countFits, decide_eq_true_eq] at h
  simp only [BitVec.toNat_ofNat]
  omega

/-- A reserved opcode is none of the map's (R90, R91). -/
theorem reservedOpcode_ne {op : BitVec 8} (h : reservedOpcode op = true) :
    op ≠ 0x01#8 ∧ op ≠ 0x02#8 ∧ op ≠ 0x03#8 ∧ op ≠ 0x04#8 ∧ op ≠ 0x05#8 ∧ op ≠ 0x06#8 ∧
      op ≠ 0x07#8 ∧ op ≠ 0x08#8 ∧ op ≠ 0x09#8 ∧ op ≠ 0x0A#8 ∧ op ≠ 0x0B#8 := by
  refine ⟨?_, ?_, ?_, ?_, ?_, ?_, ?_, ?_, ?_, ?_, ?_⟩ <;> rintro rfl <;> revert h <;> decide

end Sys2Proof
end

