-- ==== Sys2Proof/Laws/Merge.lean ====
section
/-! SUPPORT. What the operations of a SETCH do to the shadow table: the insert, the search, and that every
merge keeps the canonical form and the bytes past the table. -/

namespace Sys2Proof.Machine

/-- The shift of `Insert` writes only the bytes of the entries it moves into (R113). -/
theorem readByte_shiftUp {m : Memory} (hm : m.wf = true) (pos d a : Nat)
    (h : a < 8 * pos ∨ 8 * (pos + d + 1) ≤ a) : (m.shiftUp pos d).readByte a = m.readByte a := by
  induction d generalizing m with
  | zero => rfl
  | succ d ih =>
    rw [Memory.shiftUp, ih (Memory.wf_setEntry _ _ hm) (by omega), Memory.setEntry, Memory.setMask,
      Memory.setTime, Memory.readByte_write32 (Memory.wf_write32 _ _ hm), Memory.readByte_write32 hm]
    unfold timeAddr maskAddr
    rw [if_neg (by omega), if_neg (by omega)]

/-- `Insert` into a full table drops the entry (R114). -/
theorem insertEntry_full {s : State} (h : s.cfg.maxStates ≤ s.shadowCount) (pos : Nat) (t b : Word) :
    insertEntry pos t b s = s := by rw [insertEntry, if_pos h]

/-- `Insert` with room: the entry at its position, the entries above one up, no other byte touched
(R113). -/
theorem insertEntry_room {s : State} (hm : s.shadow.wf = true) (hr : s.shadowCount < s.cfg.maxStates)
    {pos : Nat} (hp : pos ≤ s.shadowCount) (t b : Word) :
    insertEntry pos t b s =
        { s with shadow := (insertEntry pos t b s).shadow, shadowCount := s.shadowCount + 1 } ∧
      (∀ k, (insertEntry pos t b s).shadow.entry k =
        if k < pos then s.shadow.entry k
        else if k = pos then ⟨t, b⟩
        else if k ≤ s.shadowCount then s.shadow.entry (k - 1)
        else s.shadow.entry k) ∧
      (∀ a, a < 8 * pos ∨ 8 * (s.shadowCount + 1) ≤ a →
        (insertEntry pos t b s).shadow.readByte a = s.shadow.readByte a) := by
  have hw := Memory.wf_shiftUp pos (s.shadowCount - pos) hm
  rw [insertEntry, if_neg (by omega)]
  refine ⟨rfl, fun k => ?_, fun a ha => ?_⟩
  · simp only
    rw [Memory.entry_setEntry hw, Memory.entry_shiftUp hm]
    split_ifs <;> first | rfl | omega
  · simp only
    rw [Memory.setEntry, Memory.setMask, Memory.setTime,
      Memory.readByte_write32 (Memory.wf_write32 _ _ hw), Memory.readByte_write32 hw]
    unfold timeAddr maskAddr
    rw [if_neg (by omega), if_neg (by omega), readByte_shiftUp hm _ _ _ (by omega)]

theorem wf_insertEntry {s : State} (hm : s.shadow.wf = true) (pos : Nat) (t b : Word) :
    (insertEntry pos t b s).shadow.wf = true := by
  unfold insertEntry
  split
  · exact hm
  · exact Memory.wf_setEntry _ _ (Memory.wf_shiftUp _ _ hm)

theorem wf_mergeInsert {s : State} (hm : s.shadow.wf = true) (t b : Word) :
    (mergeInsert t b s).shadow.wf = true := by
  rcases mergeInsert_cases t b s with ⟨-, h⟩ | ⟨-, h⟩ | ⟨j, -, -, h⟩ | ⟨-, -, -, h⟩ <;> rw [h]
  · exact wf_insertEntry hm _ _ _
  · exact wf_insertEntry hm _ _ _
  · exact Memory.wf_setMask _ _ hm
  · exact wf_insertEntry hm _ _ _

theorem wf_mergeAll {s : State} (hm : s.shadow.wf = true) (tbs : List (Word × Word)) :
    (mergeAll tbs s).shadow.wf = true := by
  induction tbs generalizing s with
  | nil => exact hm
  | cons tb tbs ih => exact ih (wf_mergeInsert hm _ _)

theorem wf_freshSequenceCheck {s : State} (hm : s.shadow.wf = true) :
    (freshSequenceCheck s).shadow.wf = true := by
  rcases freshSequenceCheck_cases s with ⟨-, h⟩ | ⟨-, h⟩ <;> rw [h]
  · exact Memory.wf_clearTable _ hm
  · exact hm

theorem word_lt_of_not_lt {a b : Word} (h : ¬b < a) (hne : a ≠ b) : a < b := by
  rw [BitVec.lt_def] at *
  have : a.toNat ≠ b.toNat := fun h => hne (BitVec.eq_of_toNat_eq h)
  omega

theorem firstAbove_le (s : State) (t : Word) : firstAbove s t ≤ s.shadowCount := by
  unfold firstAbove
  cases hf : (List.range s.shadowCount).find? fun j => decide (t < s.shadow.timeAt j) with
  | none => simp
  | some k => simpa using (List.mem_range.1 (List.mem_of_find?_eq_some hf)).le

/-- In an ordered table `firstAbove` parts the times below a new value from those above it (R113). -/
theorem firstAbove_splits {s : State} {t : Word} (h : TimesIncrease s.shadow s.shadowCount)
    (hne : ∀ j, j < s.shadowCount → s.shadow.timeAt j ≠ t) :
    (∀ j, j < firstAbove s t → s.shadow.timeAt j < t) ∧
      (∀ j, firstAbove s t ≤ j → j < s.shadowCount → t < s.shadow.timeAt j) := by
  unfold firstAbove
  cases hf : (List.range s.shadowCount).find? fun j => decide (t < s.shadow.timeAt j) with
  | none =>
    simp only [Option.getD_none]
    refine ⟨fun j hj => ?_, fun j h1 h2 => by omega⟩
    have hn := List.find?_eq_none.1 hf j (List.mem_range.2 hj)
    exact word_lt_of_not_lt (by simpa using hn) (hne j hj)
  | some k =>
    simp only [Option.getD_some]
    have hk : t < s.shadow.timeAt k := by simpa using List.find?_some hf
    have hkn : k < s.shadowCount := by simpa using List.mem_of_find?_eq_some hf
    refine ⟨fun j hj => ?_, fun j h1 h2 => ?_⟩
    · rw [List.find?_eq_some_iff_getElem] at hf
      obtain ⟨_, i, hi, he, hall⟩ := hf
      simp only [List.getElem_range] at he
      subst he
      have hn := hall j hj
      simp only [List.getElem_range, Bool.not_eq_true', decide_eq_false_iff_not] at hn
      exact word_lt_of_not_lt hn (hne j (by omega))
    · rcases Nat.eq_or_lt_of_le h1 with rfl | h1
      · exact hk
      · exact BitVec.lt_trans hk (h j h2 k h1)

/-- A merge keeps the table within its space and every byte past the space (R33, R39, R60). -/
theorem mergeInsert_frame {s : State} (hm : s.shadow.wf = true) (hc : s.shadowCount ≤ s.cfg.maxStates)
    (t b : Word) :
    (mergeInsert t b s).shadowCount ≤ s.cfg.maxStates ∧
      ∀ a, 8 * s.cfg.maxStates ≤ a →
        (mergeInsert t b s).shadow.readByte a = s.shadow.readByte a := by
  have ins : ∀ pos, pos ≤ s.shadowCount →
      (insertEntry pos t b s).shadowCount ≤ s.cfg.maxStates ∧
        ∀ a, 8 * s.cfg.maxStates ≤ a →
          (insertEntry pos t b s).shadow.readByte a = s.shadow.readByte a := by
    intro pos hp
    rcases Nat.lt_or_ge s.shadowCount s.cfg.maxStates with h | h
    · obtain ⟨h1, -, h3⟩ := insertEntry_room hm h hp t b
      exact ⟨by rw [h1]; exact h, fun a ha => h3 a (by omega)⟩
    · rw [insertEntry_full h]
      exact ⟨hc, fun _ _ => rfl⟩
  rcases mergeInsert_cases t b s with ⟨-, h⟩ | ⟨-, h⟩ | ⟨j, hj, -, h⟩ | ⟨-, -, -, h⟩ <;> rw [h]
  · exact ins _ (by omega)
  · exact ins _ (by omega)
  · refine ⟨hc, fun a ha => ?_⟩
    rw [orMask_shadow, Memory.setMask, Memory.readByte_write32 hm, if_neg (by unfold maskAddr; omega)]
  · exact ins _ (firstAbove_le _ _)

end Sys2Proof.Machine
end

