-- ==== Sys2Proof/Laws/PerInstr.lean ====
section
/-! SUPPORT. Facts stated for every command, one lemma for each constructor. -/

namespace Sys2Proof.Laws.EncodeLength

/-- The encoder writes as many words as the command has, and its header announces that many (R90, R92). -/
def Statement (i : Instr) : Prop :=
  i.wf = true → (encode i).length = i.words ∧ commandLength ((encode i).headD 0) = i.words

theorem start : Statement .start := fun _ => by decide
theorem stop : Statement .stop := fun _ => by decide
theorem setper (value : Word) : Statement (.setper value) := fun _ => by
  simp [encode, Instr.words, commandLength]
theorem setch (ch : BitVec 8) (times : List Word) : Statement (.setch ch times) := fun h => by
  simp [encode, Instr.words, commandLength, Nat.add_comm, toNat_count h, -BitVec.toNat_ofNat]
theorem getper : Statement .getper := fun _ => by decide
theorem getch (ch : BitVec 8) : Statement (.getch ch) := fun _ => by
  simp [encode, Instr.words, commandLength]
theorem getall : Statement .getall := fun _ => by decide
theorem ping : Statement .ping := fun _ => by decide
theorem setaddr (addr : BitVec 8) : Statement (.setaddr addr) := fun _ => by
  simp [encode, Instr.words, commandLength]
theorem getaddr : Statement .getaddr := fun _ => by decide
theorem reset : Statement .reset := fun _ => by decide
theorem reserved (opcode : BitVec 8) : Statement (.reserved opcode) := fun h => by
  have h3 := (reservedOpcode_ne h).2.2.1
  have h4 := (reservedOpcode_ne h).2.2.2.1
  simp [encode, Instr.words, commandLength, h3, h4]

end Sys2Proof.Laws.EncodeLength
end

