-- ==== Sys2Proof/Laws/Pins.lean ====
section
/-! SUPPORT. Pin masks bit by bit, and what a valid configuration says of its pins. -/

namespace Sys2Proof.Machine

theorem getLsbD_levelBit (p q : Nat) :
    (levelBit p).getLsbD q = (decide (q < 16) && decide (p = q)) := by
  rw [levelBit, BitVec.getLsbD_twoPow]
  by_cases h : p = q <;> simp [h]

theorem getLsbD_bit (p q : Nat) :
    (Sys2Proof.bit p).getLsbD q = (decide (q < 32) && decide (p = q)) := by
  rw [Sys2Proof.bit, BitVec.getLsbD_twoPow]
  by_cases h : p = q <;> simp [h]

/-- The OR of a list of words, bit by bit. -/
theorem getLsbD_foldl_or {α : Type} {w : Nat} (f : α → BitVec w) (l : List α) (a : BitVec w) (p : Nat) :
    (l.foldl (fun acc x => acc ||| f x) a).getLsbD p =
      (a.getLsbD p || l.any fun x => (f x).getLsbD p) := by
  induction l generalizing a with
  | nil => simp
  | cons x l ih => simp [ih, Bool.or_assoc]

/-- Every channel's pin is a pin of the port (R7). -/
theorem pin_lt {c : Config} (hv : c.valid = true) {ch : Nat} (h : ch < c.channelCount) :
    c.pin ch < 16 := by
  have hp := (config_valid_iff.1 hv).2.2.1
  simp only [Config.channelCount] at h
  simp only [Config.pin, List.getElem?_eq_getElem h]
  exact hp _ (List.getElem_mem h)

/-- Two channels never share a pin (R7). -/
theorem pin_injective {c : Config} (hv : c.valid = true) {a b : Nat} (ha : a < c.channelCount)
    (hb : b < c.channelCount) (h : c.pin a = c.pin b) : a = b := by
  have hn := (config_valid_iff.1 hv).2.2.2.1
  simp only [Config.channelCount] at ha hb
  simp only [Config.pin, List.getElem?_eq_getElem ha, List.getElem?_eq_getElem hb] at h
  have := (List.nodup_iff_injective_getElem.1 hn) (a₁ := ⟨a, by simpa⟩) (a₂ := ⟨b, by simpa⟩)
    (by simpa using h)
  simpa using this

end Sys2Proof.Machine
end

