-- ==== Sys2Proof/Laws/Playback.lean ====
section
/-! SUPPORT. The frames of a tick and of its parts, and runs of ticks. -/

namespace Sys2Proof.Machine

/-- The compare step writes the outputs, the compare register and the index only (R182). -/
theorem compareStep_frame {s t : State} (h : compareStep s = .next t) :
    t = { s with gpioOdr := t.gpioOdr, timCcr := t.timCcr, dmaIdx := t.dmaIdx } := by
  rcases compareStep_eq_next.1 h with ⟨-, rfl⟩ | ⟨-, -, rfl⟩ <;> rfl

/-- The wrap service writes the modes and the outputs only (R185). -/
theorem wrapService_frame (s : State) :
    wrapService s =
      { s with engState := (wrapService s).engState, timOpm := (wrapService s).timOpm,
               timCen := (wrapService s).timCen, dmaEn := (wrapService s).dmaEn,
               gpioOdr := (wrapService s).gpioOdr } := by
  rcases wrapService_cases s with ⟨-, h⟩ | ⟨-, h⟩ | ⟨-, h⟩
  all_goals rw [h]
  rfl

/-- A tick writes the timer's counter and compare registers, the index, the outputs and the modes
only. -/
theorem tick_frame {s t : State} (h : tick s = .next t) :
    t = { s with timCnt := t.timCnt, timCcr := t.timCcr, dmaIdx := t.dmaIdx, gpioOdr := t.gpioOdr,
                 engState := t.engState, timOpm := t.timOpm, timCen := t.timCen,
                 dmaEn := t.dmaEn } := by
  obtain ⟨s1, h1, rfl⟩ := tick_eq_next.1 h
  have hf := compareStep_frame h1
  split
  · rw [wrapService_frame s1, hf]; rfl
  · rw [hf]; rfl

/-- A run of ticks, taken from its end. -/
theorem ticks_succ (n : Nat) (s : State) : ticks (n + 1) s = (ticks n s).andThen timerResult := by
  induction n generalizing s with
  | zero =>
    simp only [ticks, Result.andThen_of_next]
    cases timerResult s <;> rfl
  | succ n ih =>
    rw [ticks]
    conv => rhs; rw [ticks]
    cases timerResult s with
    | next u => exact ih u
    | _ => rfl

end Sys2Proof.Machine
end

