-- ==== Sys2Proof/Tests/Slice0.lean ====
section
/-! SUPPORT. The writer's own tests: ill-formed terms and configurations that are refused, words written out
from the encoding of 30_encoding.md, one-step tests with the values of 95_test_vectors.md (each names its
vector), and for every statement with hypotheses a witness that meets them. -/

namespace Sys2Proof.Tests

open Sys2Proof.Machine

/-! ## Helpers -/

/-- The state of a next outcome. -/
def nextOf : Host.Outcome State Fault Refusal → Option State
  | .next s => some s
  | .fault _ => none
  | .refused _ => none

theorem exists_next {o : Host.Outcome State Fault Refusal} {e : EngState}
    (h : (nextOf o).map State.engState = some e) : ∃ t, o = .next t ∧ t.engState = e := by
  cases o with
  | next s => exact ⟨s, rfl, by simpa [nextOf] using h⟩
  | fault r => simp [nextOf] at h
  | refused r => simp [nextOf] at h

/-- A table space with these entries from entry 0 on. -/
def tableOf (es : List (Word × Word)) : Memory :=
  es.zipIdx.foldl (fun m e => m.setEntry e.2 ⟨e.1.1, e.1.2⟩) []

/-- The first entries of a table, as (time, mask). -/
def entries (m : Memory) (n : Nat) : List (Word × Word) :=
  (List.range n).map fun k => (m.timeAt k, m.maskAt k)

/-- The defaults with channels 1 and 2 inverted where asked, and another table capacity. -/
def config (inv1 inv2 : Bool) (states : Nat) : Config :=
  { Config.default with
    maxStates := states
    channels := (List.range 16).map fun c => ⟨c, (c == 1 && inv1) || (c == 2 && inv2)⟩ }

/-- The three events of V-P2, as SETCH stages them. -/
def stagedEvents : Memory := tableOf [(100, 0x1), (200, 0x10000), (300, 0x1)]

/-- IDLE with the events of V-P2 staged and a period of 1000. -/
def staged : State :=
  { State.reset with
    periodUs := 1000, commitPending := true, freshSequence := false, needsCorrection := true
    shadow := stagedEvents, shadowCount := 3 }

/-- RUNNING over the events of V-P2, with the shadow table empty. -/
def playing : State :=
  { State.reset with
    engState := .running, timPeriod := 4000, timCcr := 400, timCen := true, dmaEn := true
    live := tableOf [(800, 0x1), (1200, 0x10000), (400, 0x1)], dmaLen := 3 }

/-- IDLE over the same live table. -/
def loaded : State :=
  { playing with engState := .idle, timCen := false, dmaEn := false }

/-- In the last period of a stop. -/
def stopping : State := { playing with engState := .stopping, timOpm := true, gpioOdr := 0x00F1 }

/-! ## Ill-formed terms and configurations -/

theorem smoke_setch_count : (Instr.setch 0 (List.replicate 256 1)).wf = false := by
  rw [Instr.wf, countFits, List.length_replicate]; decide
theorem smoke_reserved_start : (Instr.reserved 0x01).wf = false := by decide
theorem smoke_reserved_reset : (Instr.reserved 0x0B).wf = false := by decide

/-- R7 (a): no channel, and 17 channels. -/
theorem smoke_config_channel_count :
    ({ Config.default with channels := [] } : Config).valid = false ∧
    ({ Config.default with channels := (List.range 17).map fun c => ⟨c, false⟩ } : Config).valid
      = false := by decide

/-- R7 (b), (c): a pin past 15, and a pin used twice. -/
theorem smoke_config_pins :
    ({ Config.default with channels := [⟨16, false⟩] } : Config).valid = false ∧
    ({ Config.default with channels := [⟨3, false⟩, ⟨3, true⟩] } : Config).valid = false := by decide

/-- R8. -/
theorem smoke_config_sizes :
    ({ Config.default with tickMult := 0 } : Config).valid = false ∧
    ({ Config.default with maxStates := 0 } : Config).valid = false ∧
    ({ Config.default with maxToggles := 0 } : Config).valid = false ∧
    Config.default.valid = true := by decide

/-! ## Decoding: words written out from R85, R86, R90 and R93 -/

theorem decode_start : decode [0x01000000] = .ok (.start, []) := by rfl
theorem decode_start_ignored_bits : decode [0x01ABCDEF] = .ok (.start, []) := by rfl
theorem decode_stop : decode [0x02000000] = .ok (.stop, []) := by rfl
theorem decode_setper : decode [0x03000000, 0x00009C40] = .ok (.setper 40000, []) := by rfl
theorem decode_setch :
    decode [0x04000004, 0x0000008C, 0x000000F0, 0x00007ECC, 0x00007F30, 0x08000000] =
      .ok (.setch 0 [140, 240, 32460, 32560], [0x08000000]) := by rfl
theorem decode_setch_empty : decode [0x04000000] = .ok (.setch 0 [], []) := by rfl
theorem decode_getper : decode [0x05000000] = .ok (.getper, []) := by rfl
theorem decode_getch : decode [0x06C80000] = .ok (.getch 200, []) := by rfl
theorem decode_getall : decode [0x07000000] = .ok (.getall, []) := by rfl
theorem decode_ping : decode [0x08000000] = .ok (.ping, []) := by rfl
theorem decode_setaddr : decode [0x09FFFF05] = .ok (.setaddr 5, []) := by rfl
theorem decode_getaddr : decode [0x0A000000] = .ok (.getaddr, []) := by rfl
theorem decode_reset : decode [0x0B000000] = .ok (.reset, []) := by rfl
theorem decode_reserved :
    decode [0x00000000] = .ok (.reserved 0x00, []) ∧
    decode [0x0C000000] = .ok (.reserved 0x0C, []) ∧
    decode [0xFF123456] = .ok (.reserved 0xFF, []) := ⟨rfl, rfl, rfl⟩
theorem decode_incomplete :
    decode [0x03000000] = .error .incomplete ∧ decode [] = .error .noHeader := ⟨rfl, rfl⟩

/-- The bytes of SETPER 40000 on a byte transport, least significant first (R63). -/
theorem decode_bytes_setper :
    decodeBytes [0x00, 0x00, 0x00, 0x03, 0x40, 0x9C, 0x00, 0x00] = .ok (.setper 40000, []) := by rfl

/-- The host's window: SETCH 5 with two operand words of the table's numbering. -/
theorem window_setch :
    decodeTableWord 96 0x000001F6000001EA04050002 = some (.setch 5 [490, 502]) := by
  decide +kernel

/-- The host's window: the operand word of SETPER above `nbits` is zero. -/
theorem window_setper : decodeTableWord 32 0x03000000 = some (.setper 0) := by
  decide +kernel

/-- The very next step after the window runs the instruction. -/
theorem window_step :
    (nextOf (step (State.reset.withFetchWord 64 0x00009C4003000000))).map
      (fun t => (t.periodUs, t.cmdPc)) = some (40000, 2) := by decide

/-! ## One-step tests -/

/-- V-C2: an equal time takes the OR of the masks. -/
theorem test_setch_equal_time :
    (nextOf (exec (.setch 1 [100, 300])
      { State.reset with
        freshSequence := false, needsCorrection := true
        shadow := tableOf [(100, 0x1), (200, 0x10000)], shadowCount := 2 })).map
      (fun t => (entries t.shadow 3, t.shadowCount)) =
    some ([(100, 0x3), (200, 0x10000), (300, 0x20000)], 3) := by decide

/-- V-C14: at a full table the new times are dropped and still echoed; a time below the minimum goes to
position 0. -/
theorem test_setch_full_table :
    (nextOf (exec (.setch 2 [50, 150, 250])
      { State.boot (config true false 4) [] [] with
        freshSequence := false, needsCorrection := true
        shadow := tableOf [(100, 0x20000), (200, 0x2), (300, 0x20000)], shadowCount := 3 })).map
      (fun t => (entries t.shadow 4, t.shadowCount, t.respOut)) =
    some ([(50, 0x4), (100, 0x20000), (200, 0x2), (300, 0x20000)], 4,
      [0x04020003, 50, 150, 250]) := by decide

/-- V-W1. -/
theorem test_setper :
    (nextOf (exec (.setper 40000) State.reset)).map
      (fun t => (t.periodUs, t.commitPending, t.respOut)) =
    some (40000, true, [0x03000001, 40000]) := by decide

/-- V-W2: a period of 0 leaves the staged one. -/
theorem test_setper_zero :
    (nextOf (exec (.setper 0) { State.reset with periodUs := 40000 })).map
      (fun t => (t.periodUs, t.commitPending, t.respOut)) =
    some (40000, false, [0x03000001, 40000]) := by decide

/-- V-P2: the live table, rotated and scaled, and the timer armed over it. -/
theorem test_start_commits :
    (nextOf (exec .start staged)).map
      (fun t => (entries t.live 3, t.timPeriod, t.timCcr, t.respOut)) =
    some ([(800, 0x1), (1200, 0x10000), (400, 0x1)], 4000, 400, [0x01000000]) := by decide

/-- V-T6: the time overflow is checked before the period's. -/
theorem test_start_time_overflow_first :
    (nextOf (exec .start
      { staged with
        periodUs := 1073741824, shadow := tableOf [(1073741824, 0x1)], shadowCount := 1 })).map
      (fun t => (t.fault, t.engState, t.cmdPc)) = some (0x02, .idle, 0) := by decide

/-- V-E4. -/
theorem test_stop_running :
    (nextOf (exec .stop { playing with timCnt := 7 })).map
      (fun t => (t.engState, t.timCnt, t.timOpm, t.respOut)) =
    some (.stopRequested, 7, false, [0x02000000]) := by decide

/-- V-E5. -/
theorem test_stop_idle :
    (nextOf (exec .stop staged)).map (fun t => (t.engState, t.freshSequence)) =
    some (.idle, true) := by decide

/-- V-P3. -/
theorem test_getper :
    (nextOf (exec .getper { State.reset with periodUs := 40000 })).map State.respOut =
    some [0x05000001, 40000] := by decide

/-- V-T7: the readback of V-P2's live table. -/
theorem test_getch :
    (nextOf (exec (.getch 0) playing)).map State.respOut =
    some [0x06000003, 100, 200, 300] := by decide

/-- V-Q4. -/
theorem test_getch_out_of_range :
    (nextOf (exec (.getch 200) playing)).map (fun t => (t.respOut, t.cmdPc)) = some ([], 1) := by
  decide

/-- V-Q3's shape on V-P2's table: only channel 0 has toggles. -/
theorem test_getall :
    (nextOf (exec .getall { playing with periodUs := 1000 })).map State.respOut =
    some [0x05000001, 1000, 0x06000003, 100, 200, 300] := by decide

/-- V-Q5. -/
theorem test_ping : (nextOf (exec .ping State.reset)).map State.respOut = some [0x08000000] := by
  decide

/-- V-Q6. -/
theorem test_setaddr :
    (nextOf (exec (.setaddr 5) State.reset)).map (fun t => (t.respOut, t.cmdPc)) = some ([], 1) := by
  decide

/-- V-Q6. -/
theorem test_getaddr :
    (nextOf (exec .getaddr State.reset)).map (fun t => (t.respOut, t.cmdPc)) = some ([], 1) := by
  decide

/-- V-Q7: with channel 1 inverted the outputs go to 0x0002. -/
theorem test_reset :
    (nextOf (exec .reset { playing with cfg := config true false 64, gpioOdr := 0x0003 })).map
      (fun t => (t.gpioOdr, t.engState, t.dmaLen, t.respOut)) =
    some (0x0002, .idle, 0, [0x0B000000]) := by decide

/-- V-Q8. -/
theorem test_reserved :
    (nextOf (exec (.reserved 0x0C) State.reset)).map (fun t => (t.respOut, t.cmdPc)) =
    some ([], 1) := by decide

/-- V-S1's rule for an event, on V-P2's table: tick 400 sets pin 0 and loads the next compare value. -/
theorem test_tick_event :
    (nextOf (step { playing with timCnt := 399, schedule := [.timer] })).map
      (fun t => (t.timCnt, t.gpioOdr, t.timCcr, t.dmaIdx)) = some (400, 0x0001, 800, 1) := by decide

/-- V-P7: the halting wrap; pins 4 to 7 and 0 go to their idle level. -/
theorem test_tick_halts :
    (nextOf (step { stopping with timCnt := 3999, schedule := [.timer] })).map
      (fun t => (t.engState, t.timCen, t.dmaEn, t.gpioOdr)) = some (.idle, false, false, 0x0000) := by
  decide

/-- V-K4 to V-K7. -/
theorem test_odr_apply :
    odrApply 0x00F0 0x00010003 = 0x00F3 ∧ odrApply 0x00F3 0x00800000 = 0x0073 ∧
    odrApply 0x0000 0x00010001 = 0x0001 ∧ odrApply 0x1234 0x00000000 = 0x1234 := by decide

/-- V-K8, V-K9. -/
theorem test_idle_mask :
    idleMask Config.default = 0xFFFF0000 ∧ idleMask (config true false 64) = 0xFFFD0002 ∧
    idleLevels (config true false 64) = 0x0002 := by decide

/-- V-K11, V-K12 on V-P2's gap of 400 ticks: the committing START faults at that latency, with nothing of the
commit kept, and completes at one below it. -/
theorem test_spacing :
    (nextOf (exec .start
      { staged with cfg := { Config.default with dmaLatencyTicks := 400 } })).map
      (fun t => (t.fault, t.engState, t.timPeriod, t.commitPending)) = some (0x10, .idle, 0, true) ∧
    (nextOf (exec .start
      { staged with cfg := { Config.default with dmaLatencyTicks := 399 } })).map
      (fun t => (t.fault, t.engState, t.timPeriod, t.commitPending)) =
      some (0x00, .running, 4000, false) := by decide

/-- R21: `CMD_PC`, the write-only port, the counted table, and a number that names no element. -/
theorem test_register_map :
    let s := { staged with cfg := config false false 3, cmdPc := 7 }
    elementValue s 0x50 = some (.scalar 7) ∧ elementValue s 0x31 = some .writeOnly ∧
    elementValue s 0x40 =
      some (.countedTable 3 [⟨100, 0x1⟩, ⟨200, 0x10000⟩, ⟨300, 0x1⟩]) ∧
    elementWidth s.cfg 0x40 = some (2 + 192) ∧ elementValue s 0x51 = none := by decide

/-! ## Witnesses: a state and operands that meet all the hypotheses of a statement -/

theorem witness_StepRunsTheFetchedCommand :
    let s := { State.reset with cmdIn := [0x08000000], schedule := [.command] }
    s.cfg.valid = true ∧ nextTurn s = .command ∧ s.schedule = .command :: [] ∧
      decode (s.cmdIn.drop s.cmdPc) = .ok (.ping, []) ∧ State.reset.schedule = [] :=
  ⟨by decide, rfl, rfl, rfl, rfl⟩

/-- All three clauses; the second at a SETCH that misses one word of two. -/
theorem witness_IncompleteCommandHolds :
    (let s := { State.reset with schedule := [.command] }
     s.cfg.valid = true ∧ nextTurn s = .command ∧ s.cmdIn.length ≤ s.cmdPc) ∧
    (let s := { State.reset with cmdIn := [0x04000002, 5], schedule := [.command] }
     s.cfg.valid = true ∧ nextTurn s = .command ∧
       s.cmdIn.drop s.cmdPc = 0x04000002 :: [5] ∧ 1 + [5].length < commandLength 0x04000002) ∧
    (let s := { State.reset with schedule := [.host [1]] }
     s.cfg.valid = true ∧ nextTurn s = .host [1]) := by decide

/-- Each way to break R7 and R8. -/
theorem witness_InvalidConfigIsRefused :
    Config.channelCount { Config.default with channels := [] } = 0 ∧
    16 < Config.channelCount
      { Config.default with channels := (List.range 17).map fun c => ⟨c, false⟩ } ∧
    (let c := { Config.default with channels := [⟨16, false⟩] }
     0 < c.channelCount ∧ 16 ≤ c.pin 0) ∧
    (let c := { Config.default with channels := [⟨3, false⟩, ⟨3, true⟩] }
     0 < 1 ∧ 1 < c.channelCount ∧ c.pin 0 = c.pin 1) := by decide

theorem witness_DecodeOfEncodeIsTheCommand :
    (Instr.setch 255 (List.replicate 255 1)).wf = true ∧ (Instr.reserved 0x0C).wf = true := by
  constructor
  · rw [Instr.wf, countFits, List.length_replicate]; decide
  · decide

/-- The hypotheses of `IgnoredBitsMeanNothing`, for two different headers. -/
abbrev AgreeInFields (h h' : Word) : Prop :=
  h ≠ h' ∧ h.extractLsb' 24 8 = h'.extractLsb' 24 8 ∧
  (h.extractLsb' 24 8 = 0x04#8 → h.extractLsb' 16 8 = h'.extractLsb' 16 8 ∧
    h.extractLsb' 0 8 = h'.extractLsb' 0 8) ∧
  (h.extractLsb' 24 8 = 0x06#8 → h.extractLsb' 16 8 = h'.extractLsb' 16 8) ∧
  (h.extractLsb' 24 8 = 0x09#8 → h.extractLsb' 0 8 = h'.extractLsb' 0 8)

/-- A pair of headers for each format, with other ignored bits. -/
theorem witness_IgnoredBitsMeanNothing :
    AgreeInFields 0x01000000 0x01ABCDEF ∧ AgreeInFields 0x04050002 0x0405FF02 ∧
    AgreeInFields 0x06C80000 0x06C8FFFF ∧ AgreeInFields 0x09000005 0x09FFFF05 ∧
    AgreeInFields 0x0C000000 0x0CFFFFFF := by decide

/-- SETPER, SETCH of two times and of none, and a reserved header. -/
theorem witness_EveryHeaderDecodes :
    ∀ p ∈ [((0x03000000 : Word), [(7 : Word)]), (0x04000002, [1, 2]), (0x04000000, []),
        (0xFF000000, [])],
      1 + p.2.length =
        (if p.1.extractLsb' 24 8 = 0x03#8 then 2
          else if p.1.extractLsb' 24 8 = 0x04#8 then 1 + (p.1.extractLsb' 0 8).toNat else 1) := by
  decide

theorem witness_ResetCommandResets :
    (0x0BFFFFFF : Word).extractLsb' 24 8 = 0x0B#8 ∧ playing.cfg.valid = true ∧ memoriesCanonical playing = true := by decide

/-- A channel at each end of the range, and a pin that no channel uses. -/
theorem witness_IdleLevelsOfEveryPin :
    let c := { Config.default with channels := [⟨0, true⟩, ⟨14, false⟩] }
    c.valid = true ∧ 0 < c.channelCount ∧ 1 < c.channelCount ∧ 15 < 16 ∧
      ∀ ch, ch < c.channelCount → c.pin ch ≠ 15 := by decide

theorem witness_IdleMaskForcesIdleLevels :
    let c := { Config.default with channels := [⟨0, true⟩, ⟨14, false⟩] }
    c.valid = true ∧ 0 < c.channelCount ∧ 1 < c.channelCount ∧ 15 < 16 ∧
      ∀ ch, ch < c.channelCount → c.pin ch ≠ 15 := by decide

theorem witness_OdrApplyWorksLaneByLane : 0 < 16 ∧ 15 < 16 := by decide

theorem witness_SetperStagesThePeriod :
    (0x03FFFFFF : Word).extractLsb' 24 8 = 0x03#8 ∧ State.reset.cfg.valid = true := by decide

theorem witness_StopRequestsAGracefulStop :
    (0x02FFFFFF : Word).extractLsb' 24 8 = 0x02#8 ∧ playing.cfg.valid = true := by decide

theorem witness_GetperAndPingReply :
    (0x05FFFFFF : Word).extractLsb' 24 8 = 0x05#8 ∧
    (0x08FFFFFF : Word).extractLsb' 24 8 = 0x08#8 ∧ playing.cfg.valid = true := by decide

/-- The two ends of the reserved opcodes among them. -/
theorem witness_AddressAndReservedCommandsDoNothing :
    (0x09FFFF7F : Word).extractLsb' 24 8 = 0x09#8 ∧
    (0x0AFFFFFF : Word).extractLsb' 24 8 = 0x0A#8 ∧
    (0x00FFFFFF : Word).extractLsb' 24 8 = 0x00#8 ∧
    0x0C#8 ≤ (0x0C000000 : Word).extractLsb' 24 8 ∧
    0x0C#8 ≤ (0xFF000000 : Word).extractLsb' 24 8 ∧ playing.cfg.valid = true := by decide

theorem witness_HostSeesTheResetState :
    Config.default.valid = true ∧ State.reset = State.boot Config.default [] [] ∧
    (15 : BitVec 8).toNat < Config.default.channelCount := by decide

theorem witness_OutOfRangeChannelIsNoOp :
    State.reset.cfg.valid = true ∧ State.reset.cfg.channelCount ≤ (16 : BitVec 8).toNat := by decide

theorem witness_ZeroTimeFaults :
    State.reset.cfg.valid = true ∧ (15 : BitVec 8).toNat < State.reset.cfg.channelCount ∧
      (0 : Word) ∈ [100, 0].take State.reset.cfg.maxToggles := by decide

/-- Fresh and not fresh, and the empty list. -/
theorem witness_SetchMergesIntoTheShadow :
    ∀ s ∈ [State.reset, staged], ∀ times ∈ [[], [(5 : Word), 3]],
      s.cfg.valid = true ∧ memoriesCanonical s = true ∧ (15 : BitVec 8).toNat < s.cfg.channelCount ∧
      (Instr.setch 15 times).wf = true ∧ (0 : Word) ∉ times.take s.cfg.maxToggles ∧
      s.shadowCount ≤ s.cfg.maxStates := by decide

theorem witness_ToggleBitAlternates :
    Config.default.valid = true ∧ 15 < Config.default.channelCount ∧ 31 < 32 := by decide

theorem tailClear_nil : TailClear [] 0 := fun k _ => Memory.entry_nil k

theorem tailClear_stagedEvents : TailClear stagedEvents 3 := by
  intro k hk
  refine (Memory.entry_congr (m' := []) fun x hx _ => ?_).trans (Memory.entry_nil k)
  have hx : 24 ≤ x := by omega
  have h : ∀ cell ∈ stagedEvents, cell.1 < 24 := by decide
  revert h
  generalize stagedEvents = m
  intro h
  induction m with
  | nil => rfl
  | cons cell m ih =>
    rw [Memory.readByte_cons, if_neg]
    · exact ih fun c hc => h c (by simp [hc])
    · have := h cell (by simp)
      omega

/-- The three clauses: a time that is there, a new time and no room, a new time and room. -/
theorem witness_MergeInsertPlacesTheTime :
    (200 : Word) ≠ 0 ∧ (250 : Word) ≠ 0 ∧ staged.shadow.wf = true ∧
    TimesIncrease staged.shadow staged.shadowCount ∧
    TailClear staged.shadow staged.shadowCount ∧
    staged.shadowCount ≤ staged.cfg.maxStates ∧
    (1 < staged.shadowCount ∧ staged.shadow.timeAt 1 = 200) ∧
    ((∀ j, j < staged.shadowCount → staged.shadow.timeAt j ≠ 250) ∧
      (let s := { staged with cfg := config false false 3 }
       s.shadowCount ≤ s.cfg.maxStates ∧ s.shadowCount = s.cfg.maxStates) ∧
      staged.shadowCount < staged.cfg.maxStates) := by
  refine ⟨by decide, by decide, by decide, by decide, tailClear_stagedEvents, by decide, by decide,
    by decide, by decide, by decide⟩

theorem witness_MergedMasksAreTheOrOfTheToggles :
    staged.shadow.wf = true ∧ TimesIncrease staged.shadow staged.shadowCount ∧
    TimesNonzero staged.shadow staged.shadowCount ∧ TailClear staged.shadow staged.shadowCount ∧
    (∀ tb ∈ [((200 : Word), (0x2 : Word)), (250, 0x20000)], tb.1 ≠ 0) ∧
    staged.shadowCount + 2 ≤ staged.cfg.maxStates := by
  refine ⟨by decide, by decide, by decide, tailClear_stagedEvents, by simp, by decide⟩

/-- Both clauses, with both engine states of the second. -/
theorem witness_StartWhilePlaying :
    (playing.cfg.valid = true ∧ playing.engState = .running) ∧
    (stopping.cfg.valid = true ∧ stopping.engState = .stopping) ∧
    ({ playing with engState := .stopRequested } : State).engState = .stopRequested := by decide

/-- The same state on a device with this DMA latency. -/
def withLatency (d : Nat) (s : State) : State :=
  { s with cfg := { Config.default with dmaLatencyTicks := d } }

/-- With events and without, and with a latency one tick below the gaps of 400 between the events. -/
theorem witness_StartArmsFromIdle :
    ∀ s ∈ [loaded, { loaded with dmaLen := 0 }, withLatency 399 loaded,
        withLatency 5000 { loaded with dmaLen := 0 }],
      s.cfg.valid = true ∧ s.engState = .idle ∧ s.commitPending = false ∧ s.timPeriod ≠ 0 ∧
      s.dmaLen ≤ s.cfg.maxStates ∧
      ¬ EventsTooClose s.cfg.dmaLatencyTicks s.dmaLen (s.timPeriod + s.cfg.cycleExtra.val)
        (cyclicTime s.live s.dmaLen) := by decide

/-- To be corrected, and corrected already, each also with a latency one tick below its closest events. -/
theorem witness_StartCommitsAndArms :
    ∀ s ∈ [staged, withLatency 399 staged, { staged with needsCorrection := false },
        withLatency 399 { staged with needsCorrection := false, shadow := loaded.live }],
      s.cfg.valid = true ∧ memoriesCanonical s = true ∧ s.engState = .idle ∧
      s.commitPending = true ∧ s.dmaEn = false ∧ s.shadowCount ≤ s.cfg.maxStates ∧
      (s.needsCorrection = true → ∀ j, j < s.shadowCount →
        (s.shadow.timeAt j).toNat * s.cfg.tickMult < 2 ^ s.cfg.timerBits) ∧
      s.periodUs.toNat * s.cfg.tickMult < 2 ^ s.cfg.timerBits ∧ s.periodUs ≠ 0 ∧
      ¬ EventsTooClose s.cfg.dmaLatencyTicks s.shadowCount
        (s.periodUs.toNat * s.cfg.tickMult + s.cfg.cycleExtra.val) (committedTime s) := by decide

theorem start_of_staged : ∃ t, exec .start staged = .next t ∧ t.engState = .running :=
  exists_next (by decide)

theorem witness_TimeCorrectionRotatesAndScales :
    memoriesCanonical staged = true ∧ staged.engState = .idle ∧ staged.commitPending = true ∧
    staged.needsCorrection = true ∧
    (∀ j, j < staged.shadowCount → (staged.shadow.timeAt j).toNat * staged.cfg.tickMult < 2 ^ 32) ∧
    (∃ t, exec .start staged = .next t ∧ t.engState = .running) ∧ 2 < staged.shadowCount := by
  refine ⟨by decide, rfl, rfl, rfl, by decide, start_of_staged, by decide⟩

/-- Both clauses: the first at a committing START, the second at a START over what it left. -/
theorem witness_CommitIsIdempotent :
    (memoriesCanonical staged = true ∧ staged.engState = .idle ∧ staged.commitPending = true ∧
      ∃ t, exec .start staged = .next t ∧ t.engState = .running) ∧
    (let s := { loaded with
        periodUs := 1000, commitPending := true, shadow := loaded.live, shadowCount := 3 }
     memoriesCanonical s = true ∧ s.engState = .idle ∧ s.needsCorrection = false ∧
      s.timPeriod = s.periodUs.toNat * s.cfg.tickMult ∧ s.dmaLen = s.shadowCount ∧
      (∀ k, k < s.cfg.maxStates → s.live.entry k = s.shadow.entry k) ∧
      ∃ t, exec .start s = .next t ∧ t.engState = .running) := by
  refine ⟨⟨by decide, rfl, rfl, start_of_staged⟩, by decide, rfl, rfl, rfl, rfl, fun _ _ => rfl,
    exists_next (by decide)⟩

/-- The first three faults, the first two at the first value that does not fit. -/
theorem witness_StartFaultsInOrder :
    (staged.cfg.valid = true ∧ staged.engState = .idle ∧ staged.dmaEn = false ∧
      staged.shadowCount ≤ staged.cfg.maxStates ∧ staged.commitPending = true ∧
      staged.needsCorrection = true) ∧
    (let s := { staged with shadow := tableOf [(1073741824, 0x1)], shadowCount := 1 }
     0 < s.shadowCount ∧
      2 ^ s.cfg.timerBits ≤ (s.shadow.timeAt 0).toNat * s.cfg.tickMult) ∧
    (∀ j, j < staged.shadowCount →
      (staged.shadow.timeAt j).toNat * staged.cfg.tickMult < 2 ^ staged.cfg.timerBits) ∧
    (let s := { staged with periodUs := 1073741824 }
     2 ^ s.cfg.timerBits ≤ s.periodUs.toNat * s.cfg.tickMult) ∧
    ({ staged with periodUs := 0 } : State).periodUs = 0 ∧
    ({ loaded with timPeriod := 0 } : State).commitPending = false := by decide

/-- V-P2's events, standing in the live table and pending: gaps of 400 ticks between events and a cyclic gap
of 3200. A latency of 400 is the first that the events are too close for, 3200 the first that every gap is,
and 399 is below all of them. -/
theorem witness_CloseEventsFaultAtArm :
    (∀ d ∈ [399, 400, 3200],
      (let s := withLatency d loaded
       s.cfg.valid = true ∧ s.engState = .idle ∧ s.commitPending = false ∧ s.timPeriod ≠ 0 ∧
        s.dmaLen ≤ s.cfg.maxStates ∧
        (EventsTooClose s.cfg.dmaLatencyTicks s.dmaLen (s.timPeriod + s.cfg.cycleExtra.val)
          (cyclicTime s.live s.dmaLen) ↔ 400 ≤ d))) ∧
    (∀ d ∈ [399, 400, 3200],
      (let s := withLatency d staged
       s.cfg.valid = true ∧ s.engState = .idle ∧ s.commitPending = true ∧
        memoriesCanonical s = true ∧ s.dmaEn = false ∧ s.shadowCount ≤ s.cfg.maxStates ∧
        (∀ j, j < s.shadowCount →
          (s.shadow.timeAt j).toNat * s.cfg.tickMult < 2 ^ s.cfg.timerBits) ∧
        s.periodUs.toNat * s.cfg.tickMult < 2 ^ s.cfg.timerBits ∧ s.periodUs ≠ 0 ∧
        (EventsTooClose s.cfg.dmaLatencyTicks s.shadowCount
          (s.periodUs.toNat * s.cfg.tickMult + s.cfg.cycleExtra.val) (committedTime s) ↔
            400 ≤ d))) := by decide

theorem witness_GetchReconstructsTheChannel :
    playing.cfg.valid = true ∧ (15 : BitVec 8).toNat < playing.cfg.channelCount ∧
    playing.dmaLen ≤ playing.cfg.maxStates ∧ channelTimes playing 0 = [100, 200, 300] := by decide

theorem witness_GetallReportsEveryChannel :
    playing.cfg.valid = true ∧ playing.dmaLen ≤ playing.cfg.maxStates := by decide

theorem witness_ReadbackAfterCommit :
    memoriesCanonical staged = true ∧ staged.engState = .idle ∧ staged.commitPending = true ∧
    staged.needsCorrection = true ∧
    (∀ j, j < staged.shadowCount → (staged.shadow.timeAt j).toNat * staged.cfg.tickMult < 2 ^ 32) ∧
    ∃ t, exec .start staged = .next t ∧ t.engState = .running :=
  ⟨by decide, rfl, rfl, rfl, by decide, start_of_staged⟩

/-! ## Witnesses that ask for the invariant -/

/-- The invariant of a state with an empty shadow table and nothing staged. -/
theorem blockInv_of_empty_shadow {s : State} (hv : s.cfg.valid = true) (hm : engineModes s = true)
    (hc : memoriesCanonical s = true) (hs : s.shadow = []) (hn : s.shadowCount = 0)
    (hl : s.dmaLen ≤ s.cfg.maxStates) (hi : s.dmaIdx = 0 ∨ s.dmaIdx < s.dmaLen)
    (hf : s.freshSequence = true) (hcnt : s.timCnt < 2 ^ s.cfg.timerBits)
    (hp : s.timPeriod < 2 ^ s.cfg.timerBits) (hr : s.timCcr < 2 ^ s.cfg.timerBits)
    (ht : TimesFit s.cfg s.live s.dmaLen)
    (hw : s.timCen = true → 0 < s.timPeriod ∧ s.timCnt < cycleLength s)
    (h0 : s.timCen = false → s.timCnt = 0) : BlockInv s where
  config := hv
  modes := hm
  tables :=
    { canonical := hc
      shadowCount_le := by omega
      dmaLen_le := hl
      dmaIdx_lt := hi
      tail := by rw [hs, hn]; exact tailClear_nil
      staged := by simp [hf]
      increase := fun _ => by rw [hn]; intro k hk; omega
      nonzero := fun _ => by rw [hn]; intro k hk; omega }
  timer :=
    { cnt := hcnt
      period := hp
      ccr := hr
      liveFit := ht
      shadowFit := fun _ => by rw [hn]; intro k hk; omega
      counting := hw
      stopped := h0 }

theorem blockInv_playing : BlockInv { playing with timCnt := 399 } := by
  apply blockInv_of_empty_shadow <;> decide

theorem blockInv_idle :
    BlockInv { State.reset with periodUs := 1000 } := by
  apply blockInv_of_empty_shadow <;> decide

/-- At both ends of the counter's range. -/
theorem blockInv_playing_ends :
    BlockInv { playing with timCnt := 0 } ∧ BlockInv { playing with timCnt := 3999 } := by
  constructor <;> apply blockInv_of_empty_shadow <;> decide

theorem witness_ReadbackReturnsTheInputList :
    let s := { State.reset with periodUs := 1000 }
    let times : List Word := [5, 10, 15]
    BlockInv s ∧ s.engState = .idle ∧ s.freshSequence = true ∧
    (7 : BitVec 8).toNat < s.cfg.channelCount ∧ (Instr.setch 7 times).wf = true ∧
    times.Pairwise (· < ·) ∧ (0 : Word) ∉ times ∧ times.length ≤ s.cfg.maxToggles ∧
    times.length ≤ s.cfg.maxStates ∧
    (∀ t ∈ times, t.toNat * s.cfg.tickMult < 2 ^ s.cfg.timerBits ∧
      t.toNat * s.cfg.tickMult < 2 ^ 32) ∧
    s.periodUs ≠ 0 ∧ s.periodUs.toNat * s.cfg.tickMult < 2 ^ s.cfg.timerBits ∧
    s.cfg.dmaLatencyTicks = 0 := by
  refine ⟨blockInv_idle, rfl, rfl, by decide, by decide, by decide, by decide, by decide, by decide,
    ?_, by decide, by decide, rfl⟩
  simp [State.reset, State.boot, Config.default]

/-- A tick that only counts, an event's tick and a wrap. -/
theorem witness_TickIsCounterCompareWrap :
    ∀ n ∈ [0, 399, 3999],
      (let s := { playing with timCnt := n, schedule := [.timer] }
       s.cfg.valid = true ∧ nextTurn s = .timer ∧ s.timCen = true ∧
        s.dmaIdx < s.cfg.maxStates) := by decide

theorem witness_TimerHoldsWhileDisabled :
    let s := { State.reset with schedule := [.timer] }
    s.cfg.valid = true ∧ nextTurn s = .timer ∧ s.timCen = false := by decide

/-- Every event of V-P2 lies within its cycle of 4000 ticks. -/
theorem witness_EveryMaskPlaysAtItsTime :
    memoriesCanonical staged = true ∧ staged.engState = .idle ∧ staged.commitPending = true ∧
    staged.needsCorrection = true ∧ 0 < staged.shadowCount ∧
    TimesIncrease staged.shadow staged.shadowCount ∧
    TimesNonzero staged.shadow staged.shadowCount ∧
    (∀ k, k < staged.shadowCount → (staged.shadow.timeAt k).toNat * staged.cfg.tickMult < 2 ^ 32) ∧
    ∃ t, exec .start staged = .next t ∧ t.engState = .running ∧ cycleLength t = 4000 ∧
      ∀ k, k < staged.shadowCount → (staged.shadow.timeAt k).toNat * staged.cfg.tickMult < 4000 := by
  refine ⟨by decide, rfl, rfl, rfl, by decide, by decide, by decide, by decide, ?_⟩
  have h : (nextOf (exec .start staged)).map (fun t => (t.engState, cycleLength t)) =
      some (.running, 4000) := by decide
  cases ho : exec .start staged with
  | next t =>
    simp only [ho, nextOf, Option.map_some, Option.some.injEq, Prod.mk.injEq] at h
    exact ⟨t, rfl, h.1, h.2, by decide⟩
  | fault r => simp [ho, nextOf] at h
  | refused r => simp [ho, nextOf] at h

/-- V-K2's shape: with a period of 50 units the second event of V-P2 is late, and with one of 25 the
first is. -/
theorem witness_LateTimesStallPlayback :
    ∀ p ∈ [((50 : Word), 0), (150, 1)],
      (let s := { staged with periodUs := p.1 }
       memoriesCanonical s = true ∧ s.engState = .idle ∧ s.commitPending = true ∧
        s.needsCorrection = true ∧ TimesIncrease s.shadow s.shadowCount ∧
        TimesNonzero s.shadow s.shadowCount ∧
        (nextOf (exec .start s)).map (fun t => (t.engState, cycleLength t)) =
          some (.running, p.1.toNat * 4) ∧
        (∀ k, k < s.shadowCount → (s.shadow.timeAt k).toNat * s.cfg.tickMult < 2 ^ 32) ∧
        p.2 < s.shadowCount ∧
        (∀ k, k < p.2 → (s.shadow.timeAt k).toNat * s.cfg.tickMult < p.1.toNat * 4) ∧
        p.1.toNat * 4 ≤ (s.shadow.timeAt p.2).toNat * s.cfg.tickMult) := by decide

theorem witness_StopLatencyIsTwoWraps :
    BlockInv { playing with timCnt := 0 } ∧ BlockInv { playing with timCnt := 3999 } ∧
    playing.engState = .running := ⟨blockInv_playing_ends.1, blockInv_playing_ends.2, rfl⟩

theorem witness_StopLeavesTheWaveformAlone :
    let s := { playing with timCnt := 399 }
    BlockInv s ∧ s.engState = .running ∧ (∃ t, exec .stop s = .next t) ∧
      0 < 2 * cycleLength s - s.timCnt :=
  ⟨blockInv_playing, rfl, ⟨_, rfl⟩, by decide⟩

/-- A period of one tick, in its last cycle of a stop. -/
def lastTick : State :=
  { State.reset with
    engState := .stopping, timPeriod := 1, timCen := true, timOpm := true, dmaEn := true }

/-- A run that is fair to the timer agent: it takes every turn, and the first one halts the timer. -/
theorem witness_StopCompletesInEveryFairRun :
    let r : Nat → State := fun i => if i = 0 then lastTick else { State.reset with timPeriod := 1 }
    let t : Nat → Turn := fun _ => .timer
    IsRun r t ∧ FairToTimer r t ∧ BlockInv (r 0) ∧
      ((r 0).engState = .stopRequested ∨ (r 0).engState = .stopping) := by
  refine ⟨fun i => ?_, fun i _ => ⟨i, Nat.le_refl i, rfl⟩, ?_, .inr rfl⟩
  · cases i with
    | zero => rfl
    | succ i => rfl
  · change BlockInv lastTick
    apply blockInv_of_empty_shadow <;> decide

theorem witness_StartOfRunMeetsTheInvariant : Config.default.valid = true := by decide

/-- A step from a state with the invariant; the engine's modes and the canonical memories go with it. -/
theorem witness_StepKeepsTheInvariant :
    let s := { playing with timCnt := 399, schedule := [.timer] }
    BlockInv s ∧ engineModes s = true ∧ memoriesCanonical s = true ∧ ∃ t, step s = .next t := by
  refine ⟨?_, by decide, by decide, ⟨_, rfl⟩⟩
  apply blockInv_of_empty_shadow <;> decide

theorem witness_NothingStopsTheMachine : BlockInv { playing with timCnt := 399 } := blockInv_playing

theorem witness_ElementsFitTheirWidths :
    let s := { playing with timCnt := 3999 }
    BlockInv s ∧ elementValue s 0x10 = some (.scalar 3999) ∧ elementWidth s.cfg 0x10 = some 32 ∧
      elementValue s 0x22 = some (.scalar 0) ∧ elementWidth s.cfg 0x22 = some 6 ∧
      elementValue s 0x40 = some (.countedTable 0 (tableEntries s.cfg s.shadow)) ∧
      elementWidth s.cfg 0x40 = some (7 + 4096) ∧
      elementValue s 0x41 = some (.table (tableEntries s.cfg s.live)) ∧
      elementWidth s.cfg 0x41 = some 4096 :=
  ⟨blockInv_playing_ends.2, by decide, by decide, by decide, by decide, rfl, by decide, rfl, by decide⟩

/-- The four clauses, each at the first count past a table of three entries. -/
theorem witness_CountsPastTheTableStop :
    (let s := { staged with cfg := config false false 2 }
     s.cfg.valid = true ∧ (0 : BitVec 8).toNat < s.cfg.channelCount ∧
      (0 : Word) ∉ [(5 : Word)].take s.cfg.maxToggles ∧ s.freshSequence = false ∧
      s.cfg.maxStates < s.shadowCount ∧ s.engState = .idle ∧ s.commitPending = true ∧
      s.dmaEn = false) ∧
    (let s := { loaded with cfg := config false false 2 }
     s.cfg.valid = true ∧ s.cfg.maxStates < s.dmaLen ∧ s.engState = .idle ∧
      s.commitPending = false ∧ s.timPeriod ≠ 0) ∧
    (let s := { playing with
        cfg := config false false 2, dmaIdx := 2, timCnt := 399, schedule := [.timer] }
     s.cfg.valid = true ∧ nextTurn s = .timer ∧ s.timCen = true ∧ s.dmaEn = true ∧
      0 < s.dmaLen ∧ s.cfg.maxStates ≤ s.dmaIdx ∧
      s.timCcr =
        (if s.timPeriod + s.cfg.cycleExtra.val ≤ s.timCnt + 1 then 0 else s.timCnt + 1)) := by decide

/-- A command that completes, one that faults, a tick that counts, one that holds, and the timer's turn. -/
theorem witness_FaultsAreSetAloneOrNotAtAll :
    (∃ t, exec .start staged = .next t ∧ t.engState = .running) ∧
    (nextOf (exec (.setch 0 [0]) State.reset)).map State.fault = some 0b00001 ∧
    (∃ t, settle playing (timerResult playing) = .next t) ∧
    (∃ t, settle State.reset (timerResult State.reset) = .next t) ∧
    (let s := { playing with schedule := [.timer] }
     nextTurn s ≠ .command ∧ ∃ t, step s = .next t) :=
  ⟨start_of_staged, by decide, ⟨_, rfl⟩, ⟨_, rfl⟩, by decide, ⟨_, rfl⟩⟩

theorem witness_FaultIsNotObservable :
    ∃ t, step { playing with schedule := [.timer] } = .next t := ⟨_, rfl⟩

theorem witness_StepsOnlyAppendAndKeepFaults :
    ∃ t, step { State.reset with schedule := [.host [1]] } = .next t := ⟨_, rfl⟩

/-- A step that commits: START at `CMD_PC` over the staged events. -/
theorem witness_LiveTableWrittenOnlyByACommit :
    let s := { staged with cmdIn := [0x01000000], schedule := [.command] }
    (nextOf (step s)).map (fun t => (t.timPeriod, t.dmaLen)) = some (4000, 3) ∧
      s.timPeriod ≠ 4000 := by decide

/-- A running engine's command turn, and a host turn while a RESET waits at `CMD_PC`. -/
theorem witness_OnlyTicksMoveTheOutputs :
    (let s := { playing with cmdIn := [0x08000000], schedule := [.command] }
     (∃ t, step s = .next t) ∧ nextTurn s ≠ .timer ∧
      (nextTurn s = .command → fetch s ≠ some .reset) ∧ s.engState ≠ .idle) ∧
    (let s := { playing with cmdIn := [0x0B000000], schedule := [.host [1]] }
     (∃ t, step s = .next t) ∧ nextTurn s ≠ .timer ∧
      (nextTurn s = .command → fetch s ≠ some .reset) ∧ fetch s = some .reset) :=
  ⟨⟨⟨_, rfl⟩, by decide, by decide, by decide⟩, ⟨_, rfl⟩, by decide, by decide, by decide⟩

end Sys2Proof.Tests
end

section
/-! PROOF. What a command and a turn can do, said once, and the statements about a run as a whole: invalid
configurations are refused, no step takes anything back, and a stop completes in every fair run. -/

namespace Sys2Proof.Machine

/-! ## What a command can do -/

/-- A command's outcome before it is settled: what each arm of `exec` gives to `runCommand`. -/
def commandResult (i : Instr) (s : State) : Result :=
  match i with
  | .start => startResult s
  | .stop => .next (advance 1 (reply (replyLine 0x02 0 []) (markFresh (stopRequest s))))
  | .setper p => .next (advance 2 (reply (periodLine 0x03 (stagePeriod p s)) (stagePeriod p s)))
  | .setch ch times => setchResult ch times s
  | .getper => .next (advance 1 (reply (periodLine 0x05 s) s))
  | .getch ch => getchResult ch s
  | .getall => getallResult s
  | .ping => .next (advance 1 (reply (replyLine 0x08 0 []) s))
  | .setaddr _ => .next (advance 1 s)
  | .getaddr => .next (advance 1 s)
  | .reset => .next (advance 1 (resetBlock (reply (replyLine 0x0B 0 []) s)))
  | .reserved _ => .next (advance 1 s)

theorem exec_eq_runCommand (i : Instr) (s : State) : exec i s = runCommand s (commandResult i s) := by
  cases i <;> rfl

/-- What a completed command does before its reply and the move of `CMD_PC`: `CommandEffect i s u` takes
`s` to `u`. -/
inductive CommandEffect : Instr → State → State → Prop
  /-- The queries, PING, the address commands, reserved headers, out-of-range channels (R212, R224). -/
  | nothing {i : Instr} {s : State} (hq : i ≠ .start ∧ i ≠ .stop ∧ i ≠ .reset) : CommandEffect i s s
  /-- SETPER (R120). -/
  | setper {s : State} (p : Word) : CommandEffect (.setper p) s (stagePeriod p s)
  /-- SETCH of an in-range channel (R110). -/
  | setch {s : State} (ch : BitVec 8) (times : List Word) :
      CommandEffect (.setch ch times) s (setchStaged ch times s)
  /-- STOP (R165). -/
  | stop {s : State} : CommandEffect .stop s (markFresh (stopRequest s))
  /-- START in RUNNING (R161). -/
  | startRunning {s : State} (hr : s.engState = .running) : CommandEffect .start s (markFresh s)
  /-- START from IDLE: the commit, if one is pending, and the arm (R161). -/
  | startIdle {s s1 : State} (hi : s.engState = .idle)
      (hc : (if s.commitPending then commit s else .next s) = .next s1)
      (ha : arm s1 = .next (armed s1)) :
      CommandEffect .start s (markFresh { armed s1 with engState := .running })
  /-- RESET (R222, R270). -/
  | reset {s : State} : CommandEffect .reset s (resetBlock s)

/-- A command that completes has its effect, appends a reply (none is the empty one) and moves `CMD_PC`. -/
theorem commandResult_eq_next {i : Instr} {s t : State} (h : commandResult i s = .next t) :
    ∃ n ws u, CommandEffect i s u ∧ t = advance n (reply ws u) := by
  have silent : ∀ n, advance n s = advance n (reply [] s) := fun n => by simp [advance, reply]
  cases i with
  | start =>
    rcases startResult_eq_next.1 h with ⟨hr, rfl⟩ | ⟨hi, s1, hc, ha, rfl⟩
    · exact ⟨1, _, _, .startRunning hr, rfl⟩
    · exact ⟨1, _, _, .startIdle hi hc ha, rfl⟩
  | setch ch times =>
    rcases setchResult_cases ch times s with ⟨-, hs⟩ | ⟨-, -, hs⟩ | ⟨-, -, -, hs⟩ | ⟨-, -, -, hs⟩ <;>
      cases hs.symm.trans h
    · exact ⟨_, _, _, .nothing (by simp), silent _⟩
    · exact ⟨_, _, _, .setch ch times, rfl⟩
  | getch ch =>
    simp only [commandResult, getchResult] at h
    split_ifs at h <;> cases h
    · exact ⟨_, _, _, .nothing (by simp), silent _⟩
    · exact ⟨_, _, _, .nothing (by simp), rfl⟩
  | getall =>
    simp only [commandResult, getallResult] at h
    split_ifs at h
    cases h
    exact ⟨_, _, _, .nothing (by simp), rfl⟩
  | stop => cases h; exact ⟨_, _, _, .stop, rfl⟩
  | setper p => cases h; exact ⟨_, _, _, .setper p, rfl⟩
  | reset => cases h; exact ⟨_, _, _, .reset, rfl⟩
  | getper => cases h; exact ⟨_, _, _, .nothing (by simp), rfl⟩
  | ping => cases h; exact ⟨_, _, _, .nothing (by simp), rfl⟩
  | setaddr _ => cases h; exact ⟨_, _, _, .nothing (by simp), silent _⟩
  | getaddr => cases h; exact ⟨_, _, _, .nothing (by simp), silent _⟩
  | reserved _ => cases h; exact ⟨_, _, _, .nothing (by simp), silent _⟩

/-- A command's next state: completed, held, or with one more fault bit (R11). -/
theorem exec_eq_next {i : Instr} {s t : State} (h : exec i s = .next t) :
    (∃ n ws u, CommandEffect i s u ∧ t = advance n (reply ws u)) ∨ t = s ∨
      ∃ k, t = raiseFault k s := by
  rw [exec_eq_runCommand] at h
  rcases (runCommand_eq_next.1 h).2 with hn | ⟨-, ht⟩ | ⟨k, -, ht⟩
  · exact .inl (commandResult_eq_next hn)
  · exact .inr (.inl ht)
  · exact .inr (.inr ⟨k, ht⟩)

theorem stagePeriod_eq (p : Word) (s : State) :
    stagePeriod p s = { s with periodUs := (stagePeriod p s).periodUs
                               commitPending := (stagePeriod p s).commitPending } := by
  unfold stagePeriod
  split <;> rfl

/-- A STOP writes `ENG_STATE` alone, and that in RUNNING only (R165). -/
theorem stopRequest_eq (s : State) :
    stopRequest s =
      { s with engState := if s.engState = .running then .stopRequested else s.engState } := by
  obtain ⟨_, e⟩ := s
  cases e <;> rfl

/-- No command's effect reaches the configuration, `FAULT` or a stream (R6, R28, R41, R42). -/
theorem CommandEffect.streams {i : Instr} {s u : State} (h : CommandEffect i s u) :
    u.cfg = s.cfg ∧ u.fault = s.fault ∧ u.cmdIn = s.cmdIn ∧ u.respOut = s.respOut := by
  cases h with
  | nothing _ => exact ⟨rfl, rfl, rfl, rfl⟩
  | setper p => rw [stagePeriod_eq]; exact ⟨rfl, rfl, rfl, rfl⟩
  | setch ch times => rw [setchStaged_eq]; exact ⟨rfl, rfl, rfl, rfl⟩
  | stop => rw [stopRequest_eq]; exact ⟨rfl, rfl, rfl, rfl⟩
  | startRunning _ => exact ⟨rfl, rfl, rfl, rfl⟩
  | startIdle _ hc _ =>
    split_ifs at hc
    · obtain ⟨-, -, -, -, rfl⟩ := commit_eq_next.1 hc
      exact ⟨rfl, rfl, rfl, rfl⟩
    · cases hc
      exact ⟨rfl, rfl, rfl, rfl⟩
  | reset => exact ⟨rfl, rfl, rfl, rfl⟩

/-- Outside IDLE every command but RESET writes flags, staged data and, as STOP does, `ENG_STATE` in
RUNNING only: the timer, the DMA, the outputs and the live table stay (R70). -/
theorem CommandEffect.frame_outside_idle {i : Instr} {s u : State} (h : CommandEffect i s u)
    (hs : s.engState ≠ .idle) :
    (i = .reset ∧ u = resetBlock s) ∨
      (u = { s with engState := u.engState, commitPending := u.commitPending,
                    freshSequence := u.freshSequence, needsCorrection := u.needsCorrection,
                    periodUs := u.periodUs, shadow := u.shadow, shadowCount := u.shadowCount } ∧
        (s.engState ≠ .running → u.engState = s.engState)) := by
  cases h with
  | nothing _ => exact .inr ⟨rfl, fun _ => rfl⟩
  | setper p => rw [stagePeriod_eq]; exact .inr ⟨rfl, fun _ => rfl⟩
  | setch ch times => rw [setchStaged_eq]; exact .inr ⟨rfl, fun _ => rfl⟩
  | stop => rw [stopRequest_eq]; exact .inr ⟨rfl, fun hr => if_neg hr⟩
  | startRunning _ => exact .inr ⟨rfl, fun _ => rfl⟩
  | startIdle hidle _ _ => exact absurd hidle hs
  | reset => exact .inl ⟨rfl, rfl⟩

/-! ## Turns -/

/-- A settled timer turn: a tick, or the same state while the timer is off (R180, R240). -/
theorem settle_timerResult_eq_next {s t : State} :
    settle s (timerResult s) = .next t ↔
      (s.timCen = true ∧ tick s = .next t) ∨ (s.timCen = false ∧ t = s) := by
  rcases timerResult_cases s with ⟨hc, h⟩ | ⟨hc, u, hu, h⟩ | ⟨hc, -, h⟩
  · simp [h, hc, settle, eq_comm]
  · simp [h, hc, hu, settle]
  · have ht : tick s = .stop .tableBounds := by rw [← h, timerResult, if_pos hc]
    simp [h, hc, ht, settle]

/-- A turn's next state, by the agent that takes it. -/
theorem turn_eq_next {a : Turn} {s t : State} (h : turn a s = .next t) :
    (∃ ws, a = .host ws ∧ t = hostAppend ws s) ∨
      (a = .command ∧ ((∃ i, exec i s = .next t) ∨ t = s)) ∨
      (a = .timer ∧ ((s.timCen = true ∧ tick s = .next t) ∨ (s.timCen = false ∧ t = s))) := by
  unfold turn at h
  split_ifs at h
  cases a with
  | host ws => exact .inl ⟨ws, rfl, by cases h; rfl⟩
  | command =>
    rcases commandTurn_eq_next.1 h with ⟨i, -, he⟩ | ⟨-, ht⟩
    · exact .inr (.inl ⟨rfl, .inl ⟨i, he⟩⟩)
    · exact .inr (.inl ⟨rfl, .inr ht⟩)
  | timer => exact .inr (.inr ⟨rfl, settle_timerResult_eq_next.1 h⟩)

/-! ## Invalid configurations -/

theorem exec_of_invalid {s : State} (hv : ¬s.cfg.valid = true) (i : Instr) :
    exec i s = .refused .configInvalid := by
  rw [exec_eq_runCommand, runCommand, if_neg hv]

theorem step_of_invalid {s : State} (hv : ¬s.cfg.valid = true) :
    step s = .refused .configInvalid := by
  unfold step turn
  rw [turnTaken_cfg, if_neg hv]

/-- Settles O4: each of the seven ways contradicts what a valid configuration says. -/
theorem invalidConfigIsRefused : Obligations.InvalidConfigIsRefused := by
  intro s i hbroken
  have hv : ¬s.cfg.valid = true := by
    intro hv
    obtain ⟨hmin, hmax, -, -, hmult, hstates, htoggles⟩ := config_valid_iff.1 hv
    rcases hbroken with h | h | ⟨c, hc, hpin⟩ | ⟨c, d, hcd, hd, hpin⟩ | h | h | h
    · omega
    · omega
    · exact absurd (pin_lt hv hc) (by omega)
    · exact absurd (pin_injective hv (hcd.trans hd) hd hpin) (by omega)
    · omega
    · omega
    · omega
  exact ⟨exec_of_invalid hv i, step_of_invalid hv⟩

/-! ## What every step keeps -/

/-- `t` has the configuration of `s`, its fault bits and more, and its streams with words after them. -/
structure Extends (s t : State) : Prop where
  cfg : t.cfg = s.cfg
  fault : s.fault &&& t.fault = s.fault
  respOut : s.respOut <+: t.respOut
  cmdIn : s.cmdIn <+: t.cmdIn

theorem Extends.of_eq {s t : State} (hc : t.cfg = s.cfg) (hf : t.fault = s.fault)
    (hr : s.respOut <+: t.respOut) (hi : s.cmdIn <+: t.cmdIn) : Extends s t :=
  ⟨hc, by rw [hf, BitVec.and_self], hr, hi⟩

theorem Extends.refl (s : State) : Extends s s :=
  .of_eq rfl rfl (List.prefix_refl _) (List.prefix_refl _)

theorem extends_raiseFault (k : FaultKind) (s : State) : Extends s (raiseFault k s) where
  cfg := rfl
  fault := by
    apply BitVec.eq_of_getLsbD_eq
    intro j _
    rw [raiseFault_fault, BitVec.getLsbD_and, BitVec.getLsbD_or]
    exact inf_sup_self
  respOut := List.prefix_refl _
  cmdIn := List.prefix_refl _

theorem extends_of_exec {i : Instr} {s t : State} (h : exec i s = .next t) : Extends s t := by
  rcases exec_eq_next h with ⟨n, ws, u, hu, rfl⟩ | rfl | ⟨k, rfl⟩
  · obtain ⟨hcfg, hfault, hin, hout⟩ := hu.streams
    exact .of_eq hcfg hfault ⟨ws, by simp [hout]⟩ ⟨[], by simp [hin]⟩
  · exact .refl _
  · exact extends_raiseFault k s

theorem extends_of_tick {s t : State} (h : tick s = .next t) : Extends s t := by
  rw [tick_frame h]
  exact .of_eq rfl rfl (List.prefix_refl _) (List.prefix_refl _)

theorem extends_of_turn {a : Turn} {s t : State} (h : turn a s = .next t) : Extends s t := by
  rcases turn_eq_next h with ⟨ws, -, rfl⟩ | ⟨-, ⟨i, he⟩ | rfl⟩ | ⟨-, ⟨-, ht⟩ | ⟨-, rfl⟩⟩
  · exact .of_eq rfl rfl (List.prefix_refl _) ⟨ws, rfl⟩
  · exact extends_of_exec he
  · exact .refl _
  · exact extends_of_tick ht
  · exact .refl _

/-- Settles O52: a step is a turn taken in a state that differs in the schedule only. -/
theorem stepsOnlyAppendAndKeepFaults : Obligations.StepsOnlyAppendAndKeepFaults := by
  intro s t h
  obtain ⟨hcfg, hfault, hout, hin⟩ := extends_of_turn (s := turnTaken s) h
  exact ⟨hcfg, hfault, hout, hin⟩

/-! ## A stop in progress -/

/-- A stop is in progress: the timer still counts, below the cycle length. -/
structure StopPending (s : State) : Prop where
  state : s.engState = .stopRequested ∨ s.engState = .stopping
  cen : s.timCen = true
  cnt : s.timCnt < cycleLength s

/-- The ticks a stop in progress still takes: the rest of this cycle and, until STOPPING is reached, one
whole cycle more (R166). -/
def ticksToIdle (s : State) : Nat :=
  (if s.engState = .stopRequested then cycleLength s else 0) + (cycleLength s - s.timCnt)

theorem stopPending_of_blockInv {s : State} (hb : BlockInv s)
    (hs : s.engState = .stopRequested ∨ s.engState = .stopping) : StopPending s := by
  have hcen : s.timCen = true := by
    have hm := hb.modes
    rcases hs with h | h <;> simp [engineModes, h] at hm <;> exact hm.1.2
  exact ⟨hs, hcen, (hb.timer.counting hcen).2⟩

/-- Only these five fields matter to a stop in progress. -/
theorem StopPending.congr {s t : State} (hs : StopPending s) (hcfg : t.cfg = s.cfg)
    (heng : t.engState = s.engState) (hcen : t.timCen = s.timCen) (hcnt : t.timCnt = s.timCnt)
    (hper : t.timPeriod = s.timPeriod) : StopPending t ∧ ticksToIdle t = ticksToIdle s := by
  have hlen : cycleLength t = cycleLength s := by rw [cycleLength, cycleLength, hcfg, hper]
  refine ⟨⟨by rw [heng]; exact hs.state, by rw [hcen]; exact hs.cen, ?_⟩, ?_⟩
  · rw [hcnt, hlen]; exact hs.cnt
  · rw [ticksToIdle, ticksToIdle, heng, hcnt, hlen]

theorem StopPending.state_ne {s : State} (hs : StopPending s) :
    s.engState ≠ .idle ∧ s.engState ≠ .running := by
  rcases hs.state with h | h <;> simp [h]

/-- A command leaves a stop in progress as it is, but for RESET, which ends it. -/
theorem exec_of_stopPending {i : Instr} {s t : State} (hs : StopPending s)
    (h : exec i s = .next t) :
    t.engState = .idle ∨ (StopPending t ∧ ticksToIdle t = ticksToIdle s) := by
  rcases exec_eq_next h with ⟨n, ws, u, hu, rfl⟩ | rfl | ⟨k, rfl⟩
  · rcases hu.frame_outside_idle hs.state_ne.1 with ⟨-, rfl⟩ | ⟨hframe, heng⟩
    · exact .inl rfl
    · have hu : StopPending u ∧ ticksToIdle u = ticksToIdle s :=
        hs.congr (by rw [hframe]) (heng hs.state_ne.2) (by rw [hframe]) (by rw [hframe])
          (by rw [hframe])
      have hdone := hu.1.congr (t := advance n (reply ws u)) rfl rfl rfl rfl rfl
      exact .inr ⟨hdone.1, hdone.2.trans hu.2⟩
  · exact .inr ⟨hs, rfl⟩
  · exact .inr (hs.congr rfl rfl rfl rfl rfl)

/-- A tick brings a stop in progress one tick nearer to IDLE, or is the halting wrap (R166, R185). -/
theorem tick_of_stopPending {s t : State} (hs : StopPending s) (h : tick s = .next t) :
    t.engState = .idle ∨ (StopPending t ∧ ticksToIdle t + 1 = ticksToIdle s) := by
  obtain ⟨s1, h1, rfl⟩ := tick_eq_next.1 h
  have hframe := compareStep_frame h1
  have hlen : cycleLength s1 = cycleLength s := by rw [hframe]; rfl
  have heng : s1.engState = s.engState := by rw [hframe]; rfl
  have hcen : s1.timCen = true := by rw [hframe]; exact hs.cen
  have hcnt : s1.timCnt = if wraps s then 0 else s.timCnt + 1 := by rw [hframe]; rfl
  have hbelow := hs.cnt
  by_cases hw : wraps s = true
  · have hlast : cycleLength s = s.timCnt + 1 := by
      have := of_decide_eq_true hw
      omega
    rw [if_pos hw] at hcnt ⊢
    rcases wrapService_cases s1 with ⟨hno, -⟩ | ⟨hreq, hws⟩ | ⟨-, hws⟩
    · rw [heng] at hno
      exact absurd hno (not_or.2 hs.state_ne.symm)
    · right
      rw [hws]
      refine ⟨⟨.inr rfl, hcen, ?_⟩, ?_⟩
      · change s1.timCnt < cycleLength s1
        omega
      · change 0 + (cycleLength s1 - s1.timCnt) + 1 = ticksToIdle s
        rw [ticksToIdle, if_pos (heng.symm.trans hreq)]
        omega
    · rw [hws]
      exact .inl rfl
  · have hmore : s.timCnt + 1 < cycleLength s := by
      simpa [wraps] using hw
    rw [if_neg hw] at hcnt ⊢
    refine .inr ⟨⟨by rw [heng]; exact hs.state, hcen, by omega⟩, ?_⟩
    rw [ticksToIdle, ticksToIdle, heng, hlen]
    omega

/-- Whoever takes the turn, a stop in progress ends or goes on, and the timer's turn brings its end one
tick nearer. -/
theorem turn_of_stopPending {a : Turn} {s t : State} (hs : StopPending s) (h : turn a s = .next t) :
    t.engState = .idle ∨
      (StopPending t ∧ ticksToIdle t + (if a = .timer then 1 else 0) = ticksToIdle s) := by
  rcases turn_eq_next h with ⟨ws, rfl, rfl⟩ | ⟨rfl, ⟨i, he⟩ | rfl⟩ | ⟨rfl, ⟨-, ht⟩ | ⟨hoff, -⟩⟩
  · exact .inr (hs.congr rfl rfl rfl rfl rfl)
  · exact exec_of_stopPending hs he
  · exact .inr ⟨hs, rfl⟩
  · exact tick_of_stopPending hs ht
  · exact absurd (hs.cen.symm.trans hoff) (by decide)

/-- In a run that never reaches IDLE, a stop in progress is in progress for ever. -/
theorem stopPending_forever {r : Nat → State} {t : Nat → Turn} (hr : IsRun r t)
    (h0 : StopPending (r 0)) (hne : ∀ i, (r i).engState ≠ .idle) (i : Nat) : StopPending (r i) := by
  induction i with
  | zero => exact h0
  | succ i ih => exact ((turn_of_stopPending ih (hr i)).resolve_left (hne _)).1

/-- Settles O42: were IDLE never reached, the timer would stay enabled, so fairness would give it turn
after turn, each with fewer ticks to go. -/
theorem stopCompletesInEveryFairRun : Obligations.StopCompletesInEveryFairRun := by
  intro r t hr hfair hb hs
  by_contra hnone
  have hne : ∀ i, (r i).engState ≠ .idle := not_exists.1 hnone
  have hpend := stopPending_forever hr (stopPending_of_blockInv hb hs) hne
  have hstep : ∀ i, ticksToIdle (r (i + 1)) + (if t i = .timer then 1 else 0) = ticksToIdle (r i) :=
    fun i => ((turn_of_stopPending (hpend i) (hr i)).resolve_left (hne _)).2
  have hanti : Antitone fun i => ticksToIdle (r i) :=
    antitone_nat_of_succ_le fun i => by have := hstep i; omega
  have hfall : ∀ n, ∃ i, ticksToIdle (r i) + n ≤ ticksToIdle (r 0) := by
    intro n
    induction n with
    | zero => exact ⟨0, le_rfl⟩
    | succ n ih =>
      obtain ⟨i, hi⟩ := ih
      obtain ⟨j, hij, hj⟩ := hfair i fun j _ => (hpend j).cen
      have hlater : ticksToIdle (r j) ≤ ticksToIdle (r i) := hanti hij
      have htick := hstep j
      rw [if_pos hj] at htick
      exact ⟨j + 1, by omega⟩
  obtain ⟨i, hi⟩ := hfall (ticksToIdle (r 0) + 1)
  omega

end Sys2Proof.Machine
end

section
/-! PROOF. What the fetch and a turn do, what every step keeps of the engine's modes and of the invariant of
the block, the widths of its elements, and what neither the host nor the pins can see. -/

namespace Sys2Proof.Machine

/-! ## Fetch and turns -/

theorem fetch_of_decode {s : State} {i : Instr} {rest : List Word}
    (h : decode (s.cmdIn.drop s.cmdPc) = .ok (i, rest)) : fetch s = some i := by
  rw [fetch, h]

theorem fetch_of_error {s : State} {e : DecodeError}
    (h : decode (s.cmdIn.drop s.cmdPc) = .error e) : fetch s = none := by
  rw [fetch, h]

theorem decode_of_short {h : Word} {ops : List Word} (hs : 1 + ops.length < commandLength h) :
    decode (h :: ops) = .error .incomplete := by
  rw [decode, if_pos (by omega)]

/-- The command agent's turn on a complete command (R41). -/
theorem step_of_fetch {s : State} {i : Instr} (hv : s.cfg.valid = true) (hn : nextTurn s = .command)
    (hf : fetch (turnTaken s) = some i) : step s = exec i (turnTaken s) := by
  rw [step_of_command hv hn, commandTurn, hf]

/-- The command agent's turn while the command is incomplete (R41). -/
theorem step_of_no_fetch {s : State} (hv : s.cfg.valid = true) (hn : nextTurn s = .command)
    (hf : fetch (turnTaken s) = none) : step s = .next (turnTaken s) := by
  rw [step_of_command hv hn, commandTurn, hf]

theorem nextTurn_of_scheduled {s : State} {a : Turn} {turns : List Turn}
    (h : s.schedule = a :: turns) : nextTurn s = a := by
  rw [nextTurn, h, List.headD_cons]

theorem turnTaken_of_scheduled {s : State} {a : Turn} {turns : List Turn}
    (h : s.schedule = a :: turns) : turnTaken s = { s with schedule := turns } := by
  simp [turnTaken, h]

theorem turnTaken_of_unscheduled {s : State} (h : s.schedule = []) :
    turnTaken s = { s with turnCount := s.turnCount + 1 } := by
  obtain ⟨⟩ := s
  subst h
  rfl

/-- Settles O1: the fetch reads `CMD_IN` and `CMD_PC` only, which taking the turn leaves alone. -/
theorem stepRunsTheFetchedCommand : Obligations.StepRunsTheFetchedCommand :=
  ⟨fun _ _ _ hv hn hd => step_of_fetch hv hn (fetch_of_decode hd),
    fun _ _ _ h => ⟨nextTurn_of_scheduled h, turnTaken_of_scheduled h⟩,
    fun _ => turnTaken_of_unscheduled⟩

/-- Settles O3: the decoder reports the missing header or the missing operands, and the agent holds. -/
theorem incompleteCommandHolds : Obligations.IncompleteCommandHolds := by
  refine ⟨fun s hv hn hlen => ?_, fun s h ops hv hn hdrop hshort => ?_, fun s ws hv hn => ?_⟩
  · have hnone : decode (s.cmdIn.drop s.cmdPc) = .error .noHeader := by
      rw [List.drop_eq_nil_of_le hlen, decode]
    exact step_of_no_fetch hv hn (fetch_of_error hnone)
  · have hmissing : decode (s.cmdIn.drop s.cmdPc) = .error .incomplete := by
      rw [hdrop, decode_of_short hshort]
    exact step_of_no_fetch hv hn (fetch_of_error hmissing)
  · exact step_of_host hv hn

/-! ## What every step keeps -/

/-- The second state has the engine, the timer, the tables and the sequence flags of the first. Everything
else a command or a turn may write without touching playback is free. -/
inductive SameEngine (s : State) : State → Prop
  | intro (pending : Bool) (period : Word) (fault : BitVec 5) (odr : Levels) (pc : Nat)
      (cmds resps : List Word) (turns : List Turn) (count : Nat) :
      SameEngine s
        { s with commitPending := pending, periodUs := period, fault := fault, gpioOdr := odr,
                 cmdPc := pc, cmdIn := cmds, respOut := resps, schedule := turns, turnCount := count }

theorem sameEngine_turnTaken (s : State) : SameEngine s (turnTaken s) := .intro ..

theorem sameEngine_hostAppend (ws : List Word) (s : State) : SameEngine s (hostAppend ws s) :=
  .intro ..

theorem sameEngine_raiseFault (k : FaultKind) (s : State) : SameEngine s (raiseFault k s) := .intro ..

theorem sameEngine_done (n : Nat) (ws : List Word) (s : State) :
    SameEngine s (advance n (reply ws s)) := .intro ..

theorem sameEngine_stagePeriod (p : Word) (s : State) : SameEngine s (stagePeriod p s) := by
  rw [stagePeriod_eq]
  exact .intro ..

/-- A SETCH that does anything passed its zero check (R116), which `CommandEffect` does not record. -/
def ZeroChecked (i : Instr) (s u : State) : Prop :=
  ∀ ch times, i = .setch ch times → u = s ∨ hasZeroTime s.cfg times = false

/-- A completed command has its effect, and a SETCH passed its zero check. -/
theorem commandResult_eq_next_checked {i : Instr} {s t : State} (h : commandResult i s = .next t) :
    ∃ n ws u, CommandEffect i s u ∧ ZeroChecked i s u ∧ t = advance n (reply ws u) := by
  by_cases hi : ∃ ch times, i = .setch ch times
  · obtain ⟨ch, times, rfl⟩ := hi
    rcases setchResult_cases ch times s with
      ⟨-, hs⟩ | ⟨-, -, hs⟩ | ⟨-, -, -, hs⟩ | ⟨-, hz, -, hs⟩ <;> cases hs.symm.trans h
    · exact ⟨1 + times.length, [], s, .nothing (by simp), fun _ _ _ => .inl rfl,
        by simp [advance, reply]⟩
    · refine ⟨_, _, _, .setch ch times, fun _ _ he => .inr ?_, rfl⟩
      obtain ⟨-, rfl⟩ := Instr.setch.inj he
      exact hz
  · obtain ⟨n, ws, u, hu, ht⟩ := commandResult_eq_next h
    exact ⟨n, ws, u, hu, fun ch times he => absurd ⟨ch, times, he⟩ hi, ht⟩

/-- A property is kept by every step if it reads the engine only, and every completed command and every
tick of an enabled timer keep it. -/
theorem step_keeps {P : State → Prop} (hsame : ∀ {s t}, SameEngine s t → P s → P t)
    (heffect : ∀ {i s u}, CommandEffect i s u → ZeroChecked i s u → P s → P u)
    (htick : ∀ {s t}, s.timCen = true → tick s = .next t → P s → P t) {s t : State}
    (h : step s = .next t) (hs : P s) : P t := by
  have hstart : P (turnTaken s) := hsame (sameEngine_turnTaken s) hs
  rcases turn_eq_next h with ⟨ws, -, rfl⟩ | ⟨-, ⟨i, he⟩ | rfl⟩ | ⟨-, ⟨hcen, ht⟩ | ⟨-, rfl⟩⟩
  · exact hsame (sameEngine_hostAppend ws _) hstart
  · rw [exec_eq_runCommand] at he
    rcases (runCommand_eq_next.1 he).2 with hn | ⟨-, rfl⟩ | ⟨k, -, rfl⟩
    · obtain ⟨n, ws, u, hu, hz, rfl⟩ := commandResult_eq_next_checked hn
      exact hsame (sameEngine_done n ws u) (heffect hu hz hstart)
    · exact hstart
    · exact hsame (sameEngine_raiseFault k _) hstart
  · exact hstart
  · exact htick hcen ht hstart
  · exact hstart

/-! ## The modes of R23 -/

theorem SameEngine.engineModes {s t : State} (h : SameEngine s t) (hm : engineModes s = true) :
    engineModes t = true := by
  cases h
  exact hm

/-- The table of R23 by its columns: the DMA and the counter are on outside IDLE, one-shot in STOPPING. -/
theorem engineModes_iff {s : State} :
    engineModes s = true ↔
      s.dmaEn = decide (s.engState ≠ .idle) ∧ s.timCen = decide (s.engState ≠ .idle) ∧
        s.timOpm = decide (s.engState = .stopping) := by
  unfold engineModes
  cases s.engState <;> simp [and_assoc]

theorem timCen_of_idle {s : State} (hm : engineModes s = true) (h : s.engState = .idle) :
    s.timCen = false := by
  obtain ⟨-, hcen, -⟩ := engineModes_iff.1 hm
  simpa [h] using hcen

/-- A STOP moves between two rows with the same modes (R165). -/
theorem engineModes_stopRequest {s : State} (hm : engineModes s = true) :
    engineModes (stopRequest s) = true := by
  unfold stopRequest
  cases h : s.engState with
  | running =>
    rw [engineModes_iff, h] at hm
    exact engineModes_iff.2 hm
  | idle => exact hm
  | stopRequested => exact hm
  | stopping => exact hm

/-- A completed command keeps the table of R23. -/
theorem CommandEffect.engineModes {i : Instr} {s u : State} (h : CommandEffect i s u)
    (hm : engineModes s = true) : engineModes u = true := by
  cases h with
  | nothing _ => exact hm
  | setper p => exact (sameEngine_stagePeriod p s).engineModes hm
  | setch ch times => rw [setchStaged_eq]; exact hm
  | stop => exact engineModes_stopRequest hm
  | startRunning _ => exact hm
  | startIdle _ _ _ => rfl
  | reset => rfl

/-- The wrap service moves from a row of R23 to a row of R23 (R185). -/
theorem engineModes_wrapService {s : State} (hm : engineModes s = true) :
    engineModes (wrapService s) = true := by
  rcases wrapService_cases s with ⟨-, h⟩ | ⟨hreq, h⟩ | ⟨-, h⟩ <;> rw [h]
  · exact hm
  · obtain ⟨hdma, hcen, -⟩ := engineModes_iff.1 hm
    rw [hreq] at hdma hcen
    exact engineModes_iff.2 ⟨hdma, hcen, rfl⟩
  · rfl

/-- A tick keeps the table of R23. -/
theorem engineModes_tick {s t : State} (h : tick s = .next t) (hm : engineModes s = true) :
    engineModes t = true := by
  obtain ⟨s1, h1, rfl⟩ := tick_eq_next.1 h
  have hs1 : engineModes s1 = true := by
    rw [compareStep_frame h1]
    exact hm
  split
  · exact engineModes_wrapService hs1
  · exact hs1

/-- Settles O44: only START, STOP, RESET and the wrap service write the modes, each a whole row. -/
theorem stepKeepsTheEngineModes : Obligations.StepKeepsTheEngineModes := fun _ _ hm h =>
  step_keeps SameEngine.engineModes (fun hu _ => hu.engineModes) (fun _ => engineModes_tick) h hm

/-! ## The shadow table while a sequence is staged -/

/-- The shadow table of a sequence that is being staged: in its space, in order, clear past its count, its
times not yet corrected (R39, R118). -/
structure Staged (s : State) : Prop where
  canonical : s.shadow.wf = true
  count_le : s.shadowCount ≤ s.cfg.maxStates
  tail : TailClear s.shadow s.shadowCount
  increase : TimesIncrease s.shadow s.shadowCount
  nonzero : TimesNonzero s.shadow s.shadowCount

/-- What is below the first time of the table is below all (R113). -/
theorem Staged.lt_timeAt {s : State} (h : Staged s) {t : Word} (ht : t < minTime s) {j : Nat}
    (hj : j < s.shadowCount) : t < s.shadow.timeAt j := by
  rcases Nat.eq_zero_or_pos j with rfl | hpos
  · exact ht
  · exact BitVec.lt_trans ht (h.increase j hj 0 hpos)

/-- What is above the last time of the table is above all (R113). -/
theorem Staged.timeAt_lt {s : State} (h : Staged s) {t : Word} (ht : maxTime s < t) {j : Nat}
    (hj : j < s.shadowCount) : s.shadow.timeAt j < t := by
  rw [maxTime, if_neg (by omega)] at ht
  rcases Nat.lt_or_ge j (s.shadowCount - 1) with hlt | hge
  · exact BitVec.lt_trans (h.increase _ (by omega) j hlt) ht
  · rwa [show j = s.shadowCount - 1 by omega]

/-- The times after an insert with room: the new one at its position, those above it one up (R113). -/
theorem timeAt_insertEntry {s : State} (hm : s.shadow.wf = true) (hr : s.shadowCount < s.cfg.maxStates)
    {pos : Nat} (hp : pos ≤ s.shadowCount) (t b : Word) :
    (∀ k, k < pos → (insertEntry pos t b s).shadow.timeAt k = s.shadow.timeAt k) ∧
      (insertEntry pos t b s).shadow.timeAt pos = t ∧
      (∀ k, pos < k → k ≤ s.shadowCount →
        (insertEntry pos t b s).shadow.timeAt k = s.shadow.timeAt (k - 1)) := by
  obtain ⟨-, hentry, -⟩ := insertEntry_room hm hr hp t b
  refine ⟨fun k hk => ?_, ?_, fun k hk hle => ?_⟩
  · have h := hentry k
    rw [if_pos hk] at h
    exact congrArg EventEntry.time h
  · have h := hentry pos
    rw [if_neg (Nat.lt_irrefl pos), if_pos rfl] at h
    exact congrArg EventEntry.time h
  · have h := hentry k
    rw [if_neg (by omega), if_neg (by omega), if_pos hle] at h
    exact congrArg EventEntry.time h

/-- An insert between the times below it and those above it keeps the table in order (R113, R114). -/
theorem Staged.insertEntry {s : State} (h : Staged s) {t : Word} (ht : t ≠ 0) (b : Word) {pos : Nat}
    (hpos : pos ≤ s.shadowCount) (hbelow : ∀ j, j < pos → s.shadow.timeAt j < t)
    (habove : ∀ j, pos ≤ j → j < s.shadowCount → t < s.shadow.timeAt j) :
    Staged (insertEntry pos t b s) := by
  rcases Nat.lt_or_ge s.shadowCount s.cfg.maxStates with hroom | hfull
  swap
  · rwa [insertEntry_full hfull]
  obtain ⟨heq, hentry, -⟩ := insertEntry_room h.canonical hroom hpos t b
  obtain ⟨hlow, hat, hhigh⟩ := timeAt_insertEntry h.canonical hroom hpos t b
  have hcount : (Machine.insertEntry pos t b s).shadowCount = s.shadowCount + 1 := by rw [heq]
  constructor
  case canonical => exact wf_insertEntry h.canonical pos t b
  case count_le => rw [heq]; exact hroom
  case tail =>
    intro k hk
    rw [hcount] at hk
    rw [hentry, if_neg (by omega), if_neg (by omega), if_neg (by omega)]
    exact h.tail k (by omega)
  case increase =>
    intro k hk j hjk
    replace hk : k ≤ s.shadowCount := by omega
    rcases Nat.lt_trichotomy k pos with hkp | rfl | hkp
    · rw [hlow k hkp, hlow j (hjk.trans hkp)]
      exact h.increase k (by omega) j hjk
    · rw [hat, hlow j hjk]
      exact hbelow j hjk
    · rw [hhigh k hkp hk]
      rcases Nat.lt_trichotomy j pos with hjp | rfl | hjp
      · rw [hlow j hjp]
        exact h.increase _ (by omega) j (by omega)
      · rw [hat]
        exact habove _ (by omega) (by omega)
      · rw [hhigh j hjp (by omega)]
        exact h.increase _ (by omega) _ (by omega)
  case nonzero =>
    intro k hk
    rcases Nat.lt_trichotomy k pos with hkp | rfl | hkp
    · rw [hlow k hkp]
      exact h.nonzero k (by omega)
    · rw [hat]
      exact ht
    · rw [hhigh k hkp (by omega)]
      exact h.nonzero _ (by omega)

/-- An OR into the mask of an entry below the count moves no time (R113). -/
theorem Staged.orMask {s : State} (h : Staged s) {j : Nat} (hj : j < s.shadowCount) (b : Word) :
    Staged (orMask j b s) := by
  have htime : ∀ k, (Machine.orMask j b s).shadow.timeAt k = s.shadow.timeAt k :=
    fun k => Memory.timeAt_setMask h.canonical j k _
  constructor
  case canonical => exact Memory.wf_setMask _ _ h.canonical
  case count_le => exact h.count_le
  case tail =>
    intro k (hk : s.shadowCount ≤ k)
    rw [orMask_shadow, Memory.entry_setMask h.canonical, if_neg (by omega)]
    exact h.tail k hk
  case increase =>
    intro k hk i hik
    rw [htime, htime]
    exact h.increase k hk i hik
  case nonzero =>
    intro k hk
    rw [htime]
    exact h.nonzero k hk

/-- A merge of a non-zero time keeps the table in order: each of its ways finds the right place (R113). -/
theorem Staged.mergeInsert {s : State} (h : Staged s) {t : Word} (ht : t ≠ 0) (b : Word) :
    Staged (mergeInsert t b s) := by
  rcases mergeInsert_cases t b s with ⟨hmin, hm⟩ | ⟨hmax, hm⟩ | ⟨j, hj, -, hm⟩ | ⟨-, -, hne, hm⟩ <;>
    rw [hm]
  · exact h.insertEntry ht b (Nat.zero_le _) (fun j hj => absurd hj (Nat.not_lt_zero j))
      fun j _ hj => h.lt_timeAt hmin hj
  · exact h.insertEntry ht b le_rfl (fun j hj => h.timeAt_lt hmax hj)
      fun j hle hlt => absurd hlt (Nat.not_lt.2 hle)
  · exact h.orMask hj b
  · obtain ⟨hbelow, habove⟩ := firstAbove_splits h.increase hne
    exact h.insertEntry ht b (firstAbove_le s t) hbelow habove

theorem Staged.mergeAll {s : State} (h : Staged s) {tbs : List (Word × Word)}
    (hz : ∀ tb ∈ tbs, tb.1 ≠ 0) : Staged (mergeAll tbs s) := by
  induction tbs generalizing s with
  | nil => exact h
  | cons tb tbs ih =>
    obtain ⟨htb, htbs⟩ := List.forall_mem_cons.1 hz
    exact ih (h.mergeInsert htb tb.2) htbs

/-- The values a SETCH that passes the zero check merges are not zero (R116). -/
theorem toggles_ne_zero {c : Config} {times : List Word} (hz : hasZeroTime c times = false)
    (ch : BitVec 8) : ∀ tb ∈ toggles c ch times, tb.1 ≠ 0 := by
  intro tb htb
  obtain ⟨⟨t, i⟩, hmem, rfl⟩ := List.mem_map.1 htb
  have hall := List.any_eq_false.1 hz t (List.fst_mem_of_mem_zipIdx hmem)
  simpa using hall

theorem tailClear_clearTable {c : Config} {m : Memory} (hm : m.wf = true) {n : Nat}
    (hn : n ≤ c.maxStates) (ht : TailClear m n) : TailClear (m.clearTable c) 0 := by
  intro k _
  rw [Memory.entry_clearTable c hm]
  split_ifs with hk
  · rfl
  · exact ht k (by omega)

/-! ## The tables -/

theorem TableInv.wf {s : State} (h : TableInv s) : s.shadow.wf = true ∧ s.live.wf = true := by
  simpa [memoriesCanonical] using h.canonical

theorem SameEngine.tableInv {s t : State} (h : SameEngine s t) (hs : TableInv s) : TableInv t := by
  cases h
  exact { hs with }

/-- The first SETCH of a sequence clears the table; a later one finds it staged (R111). -/
theorem TableInv.staged_freshSequenceCheck {s : State} (h : TableInv s) :
    Staged (freshSequenceCheck s) := by
  rcases freshSequenceCheck_cases s with ⟨-, he⟩ | ⟨hf, he⟩ <;> rw [he]
  · exact
      { canonical := Memory.wf_clearTable _ h.wf.1
        count_le := Nat.zero_le _
        tail := tailClear_clearTable h.wf.1 h.shadowCount_le h.tail
        increase := fun k hk => absurd hk (Nat.not_lt_zero k)
        nonzero := fun k hk => absurd hk (Nat.not_lt_zero k) }
  · have hc := h.staged hf
    exact ⟨h.wf.1, h.shadowCount_le, h.tail, h.increase hc, h.nonzero hc⟩

/-- A SETCH leaves a staged table (R110). -/
theorem TableInv.staged_setchStaged {s : State} (h : TableInv s) (ch : BitVec 8) {times : List Word}
    (hz : hasZeroTime s.cfg times = false) : Staged (setchStaged ch times s) := by
  have hfresh : Staged (markPending (freshSequenceCheck s)) := { h.staged_freshSequenceCheck with }
  exact hfresh.mergeAll (toggles_ne_zero hz ch)

/-- A SETCH finds a sequence to correct, or begins one (R111). -/
theorem TableInv.fresh_or_needsCorrection {s : State} (h : TableInv s) :
    (s.freshSequence || s.needsCorrection) = true := by
  cases hf : s.freshSequence
  · exact h.staged hf
  · rfl

theorem TableInv.setchStaged {s : State} (h : TableInv s) (ch : BitVec 8) {times : List Word}
    (hz : hasZeroTime s.cfg times = false) : TableInv (setchStaged ch times s) := by
  have hst := h.staged_setchStaged ch hz
  have hcfg : (Machine.setchStaged ch times s).cfg = s.cfg := by rw [setchStaged_eq]
  have hcanonical : memoriesCanonical (Machine.setchStaged ch times s) = true := by
    rw [setchStaged_eq]
    simp [memoriesCanonical, hst.canonical, h.wf.2]
  rw [setchStaged_eq] at hcanonical ⊢
  exact
    { canonical := hcanonical
      shadowCount_le := hcfg ▸ hst.count_le
      dmaLen_le := h.dmaLen_le
      dmaIdx_lt := h.dmaIdx_lt
      tail := hst.tail
      staged := fun _ => h.fresh_or_needsCorrection
      increase := fun _ => hst.increase
      nonzero := fun _ => hst.nonzero }

/-- After a START or a STOP no sequence is staged (R25). -/
theorem TableInv.markFresh {s : State} (h : TableInv s) : TableInv (markFresh s) :=
  { h with staged := fun hf => absurd hf.symm Bool.false_ne_true }

theorem TableInv.stopRequest {s : State} (h : TableInv s) : TableInv (stopRequest s) := by
  rw [stopRequest_eq]
  exact { h with }

/-- What a START from IDLE writes whatever the commit left: the index and the fresh-sequence flag
(R161, R162). Before these two writes a commit's state need not meet the invariant. -/
def rewound (s : State) : State := { s with dmaIdx := 0, freshSequence := true }

/-- The state a START from IDLE leaves but for its reply, from the state its commit left. -/
theorem started_eq_rewound (s : State) :
    Machine.markFresh { armed s with engState := .running } =
      { armed (rewound s) with engState := .running } := rfl

theorem TableInv.rewound {s : State} (h : TableInv s) : TableInv (rewound s) :=
  { h.markFresh with dmaIdx_lt := .inl rfl }

/-- The corrected shadow is clear past its count, as the shadow was (R143). -/
theorem TableInv.tail_correctedShadow {s : State} (h : TableInv s) :
    TailClear (correctedShadow s) s.shadowCount := by
  obtain ⟨-, hmask, htime, -, -⟩ := correctedShadow_spec h.wf.1
  intro k hk
  rw [Memory.entry, htime k hk, hmask]
  exact h.tail k hk

/-- The tables of a commit (R140). -/
theorem TableInv.rewound_committed {s : State} (h : TableInv s) :
    TableInv (Machine.rewound (committed s)) where
  canonical := memoriesCanonical_committed h.canonical
  shadowCount_le := h.shadowCount_le
  dmaLen_le := h.shadowCount_le
  dmaIdx_lt := .inl rfl
  tail := h.tail_correctedShadow
  staged hf := absurd hf.symm Bool.false_ne_true
  increase hc := absurd hc Bool.false_ne_true
  nonzero hc := absurd hc Bool.false_ne_true

/-- The state that a START from IDLE arms, with the commit it makes if one is pending, meets what the
commit and the state before it meet once rewound (R161). -/
theorem rewound_of_commit {P : State → Prop} {s s1 : State}
    (hc : (if s.commitPending then commit s else .next s) = .next s1) (hsame : P (rewound s))
    (hcommit : timeOverflows s = false → periodOverflows s = false → P (rewound (committed s))) :
    P (rewound s1) := by
  split_ifs at hc
  · obtain ⟨-, -, htime, hperiod, rfl⟩ := commit_eq_next.1 hc
    exact hcommit htime hperiod
  · cases hc
    exact hsame

/-- A `Reset()` leaves empty tables (R270). -/
theorem TableInv.resetBlock {s : State} (h : TableInv s) : TableInv (resetBlock s) where
  canonical := by simp [memoriesCanonical, Memory.wf_clearTable _ h.wf.1, Memory.wf_clearTable _ h.wf.2]
  shadowCount_le := Nat.zero_le _
  dmaLen_le := Nat.zero_le _
  dmaIdx_lt := .inl rfl
  tail := tailClear_clearTable h.wf.1 h.shadowCount_le h.tail
  staged hf := absurd hf.symm Bool.false_ne_true
  increase hc := absurd hc Bool.false_ne_true
  nonzero hc := absurd hc Bool.false_ne_true

/-- A completed command keeps the invariants of the tables. -/
theorem CommandEffect.tableInv {i : Instr} {s u : State} (h : CommandEffect i s u)
    (hz : ZeroChecked i s u) (ht : TableInv s) : TableInv u := by
  cases h with
  | nothing _ => exact ht
  | setper p => exact (sameEngine_stagePeriod p s).tableInv ht
  | setch ch times =>
    rcases hz ch times rfl with hsame | hz
    · rwa [hsame]
    · exact ht.setchStaged ch hz
  | stop => exact ht.stopRequest.markFresh
  | startRunning _ => exact ht.markFresh
  | startIdle _ hc _ =>
    rw [started_eq_rewound]
    exact { rewound_of_commit hc ht.rewound fun _ _ => ht.rewound_committed with }
  | reset => exact ht.resetBlock

theorem transferDue_iff {s : State} :
    transferDue s = true ↔ s.timCnt = s.timCcr ∧ s.dmaEn = true ∧ 0 < s.dmaLen := by
  simp [transferDue, and_assoc]

/-- The transfer moves the index within the live table (R183). -/
theorem TableInv.dmaTransfer {s : State} (h : TableInv s) (hdue : transferDue s = true) :
    TableInv (dmaTransfer s) :=
  { h with dmaIdx_lt := .inr (Nat.mod_lt _ (transferDue_iff.1 hdue).2.2) }

theorem TableInv.wrapService {s : State} (h : TableInv s) : TableInv (wrapService s) := by
  rw [wrapService_frame]
  exact { h with }

/-- A tick keeps the invariants of the tables. -/
theorem tableInv_tick {s t : State} (h : tick s = .next t) (ht : TableInv s) : TableInv t := by
  obtain ⟨s1, h1, rfl⟩ := tick_eq_next.1 h
  have hcounted : TableInv (counterStep s) := { ht with }
  have hs1 : TableInv s1 := by
    rcases compareStep_eq_next.1 h1 with ⟨-, rfl⟩ | ⟨hdue, -, rfl⟩
    · exact hcounted
    · exact hcounted.dmaTransfer hdue
  split
  · exact hs1.wrapService
  · exact hs1

/-! ## The timer -/

theorem SameEngine.timerInv {s t : State} (h : SameEngine s t) (hs : TimerInv s) : TimerInv t := by
  cases h
  exact { hs with }

theorem TimerInv.stopRequest {s : State} (h : TimerInv s) : TimerInv (stopRequest s) := by
  rw [stopRequest_eq]
  exact { h with }

/-- After a SETCH the shadow holds uncorrected times, which need not fit the timer (R111). -/
theorem TimerInv.setchStaged {s : State} (h : TimerInv s) (ht : TableInv s) (ch : BitVec 8)
    (times : List Word) : TimerInv (setchStaged ch times s) := by
  rw [setchStaged_eq]
  exact
    { h with shadowFit := fun hc => absurd (hc.symm.trans ht.fresh_or_needsCorrection) (by decide) }

/-- A scaled time that passes the check of R144 is stored as a value that fits the timer, also where it
does not fit its own field (log 7). -/
theorem storedTime_lt {n bits : Nat} (hn : n < 2 ^ bits) : (storedTime n).toNat < 2 ^ bits := by
  unfold storedTime
  split_ifs with hword
  · rwa [BitVec.toNat_ofNat, Nat.mod_eq_of_lt hword]
  · exact (Config.overlongTime n).isLt.trans_le (by omega)

/-- A commit that passes its checks leaves a shadow whose times fit the timer (R142, R144). -/
theorem timesFit_correctedShadow {s : State} (ht : TableInv s) (h : TimerInv s)
    (hover : timeOverflows s = false) : TimesFit s.cfg (correctedShadow s) s.shadowCount := by
  obtain ⟨-, -, -, hkept, hscaled⟩ := correctedShadow_spec ht.wf.1
  cases hc : s.needsCorrection
  · rw [hkept hc]
    exact h.shadowFit hc
  · intro j hj
    rw [hscaled hc j hj]
    exact storedTime_lt (timeOverflows_eq_false.1 hover hc _ (Nat.mod_lt _ (by omega)))

theorem TimerInv.rewound {s : State} (h : TimerInv s) : TimerInv (rewound s) := { h with }

/-- The timer's registers after a commit that passes its checks (R140, R144, R146). -/
theorem TimerInv.rewound_committed {s : State} (h : TimerInv s) (ht : TableInv s)
    (htime : timeOverflows s = false) (hperiod : periodOverflows s = false) (hcen : s.timCen = false) :
    TimerInv (Machine.rewound (committed s)) where
  cnt := h.cnt
  period := periodOverflows_eq_false.1 hperiod
  ccr := h.ccr
  liveFit j hj := by
    have hlive : (committed s).live.timeAt j = (correctedShadow s).timeAt j :=
      congrArg EventEntry.time
        (entry_live_committed ht.canonical (Nat.lt_of_lt_of_le hj ht.shadowCount_le))
    change ((committed s).live.timeAt j).toNat < 2 ^ s.cfg.timerBits
    rw [hlive]
    exact timesFit_correctedShadow ht h htime j hj
  shadowFit _ := timesFit_correctedShadow (s := s) ht h htime
  counting hon := absurd (hcen.symm.trans hon) Bool.false_ne_true
  stopped := h.stopped

/-- The arm step starts the timer below a cycle that is not empty (R162, R163). -/
theorem TimerInv.armed {s : State} (h : TimerInv s) (hp : s.timPeriod ≠ 0) : TimerInv (armed s) where
  cnt := Nat.two_pow_pos _
  period := h.period
  ccr := by
    rw [armed_timCcr]
    split_ifs with hlen
    · exact h.liveFit _ (by omega)
    · exact h.ccr
  liveFit := h.liveFit
  shadowFit := h.shadowFit
  counting _ := ⟨Nat.pos_of_ne_zero hp, by simp only [cycleLength, armed_timCnt, armed_timPeriod]; omega⟩
  stopped hoff := absurd hoff.symm Bool.false_ne_true

theorem timerInv_resetBlock (s : State) : TimerInv (resetBlock s) where
  cnt := Nat.two_pow_pos _
  period := Nat.two_pow_pos _
  ccr := Nat.two_pow_pos _
  liveFit _ hj := absurd hj (Nat.not_lt_zero _)
  shadowFit _ _ hj := absurd hj (Nat.not_lt_zero _)
  counting hon := absurd hon Bool.false_ne_true
  stopped _ := rfl

/-- A completed command keeps the invariants of the timer. -/
theorem CommandEffect.timerInv {i : Instr} {s u : State} (h : CommandEffect i s u) (hb : BlockInv s) :
    TimerInv u := by
  cases h with
  | nothing _ => exact hb.timer
  | setper p => exact (sameEngine_stagePeriod p s).timerInv hb.timer
  | setch ch times => exact hb.timer.setchStaged hb.tables ch times
  | stop => exact { hb.timer.stopRequest with }
  | startRunning _ => exact { hb.timer with }
  | startIdle hidle hc harm =>
    have hcen := timCen_of_idle hb.modes hidle
    have hrewound := rewound_of_commit hc hb.timer.rewound fun htime hperiod =>
      hb.timer.rewound_committed hb.tables htime hperiod hcen
    have hperiod := (arm_eq_next.1 harm).1
    rw [started_eq_rewound]
    exact { hrewound.armed hperiod with }
  | reset => exact timerInv_resetBlock s

/-- The counter stays below the cycle length, which its register holds but for `CYCLE_EXTRA` (R181). -/
theorem TimerInv.counterStep {s : State} (h : TimerInv s) (hcen : s.timCen = true) :
    TimerInv (counterStep s) := by
  obtain ⟨hpos, -⟩ := h.counting hcen
  have hbelow : (Machine.counterStep s).timCnt < cycleLength s := by
    rw [counterStep_timCnt]
    split_ifs with hw
    · exact Nat.lt_of_lt_of_le hpos (Nat.le_add_right _ _)
    · simpa [wraps] using hw
  have hfits : (Machine.counterStep s).timCnt < 2 ^ s.cfg.timerBits := by
    have hperiod := h.period
    have hextra := s.cfg.cycleExtra.isLt
    unfold cycleLength at hbelow
    omega
  exact { h with
    cnt := hfits
    counting := fun _ => ⟨hpos, hbelow⟩
    stopped := fun hoff => absurd (hoff.symm.trans hcen) Bool.false_ne_true }

/-- The transfer takes a time of the live table into `TIM_CCR` (R182). -/
theorem TimerInv.dmaTransfer {s : State} (h : TimerInv s) (ht : TableInv s)
    (hdue : transferDue s = true) : TimerInv (dmaTransfer s) := by
  have hlen := (transferDue_iff.1 hdue).2.2
  have hidx : s.dmaIdx < s.dmaLen := ht.dmaIdx_lt.elim (fun h0 => h0 ▸ hlen) id
  exact { h with ccr := h.liveFit _ hidx }

/-- The wrap service finds the counter at 0, where the halt leaves it (R185). -/
theorem TimerInv.wrapService {s : State} (h : TimerInv s) (h0 : s.timCnt = 0) :
    TimerInv (wrapService s) := by
  rcases wrapService_cases s with ⟨-, hw⟩ | ⟨-, hw⟩ | ⟨-, hw⟩ <;> rw [hw]
  · exact h
  · exact { h with }
  · exact { h with
      counting := fun hon => absurd hon Bool.false_ne_true
      stopped := fun _ => h0 }

/-- A tick of an enabled timer keeps the invariants of the timer. -/
theorem timerInv_tick {s t : State} (hcen : s.timCen = true) (h : tick s = .next t)
    (ht : TableInv s) (hs : TimerInv s) : TimerInv t := by
  obtain ⟨s1, h1, rfl⟩ := tick_eq_next.1 h
  have hs1 : TimerInv s1 := by
    rcases compareStep_eq_next.1 h1 with ⟨-, rfl⟩ | ⟨hdue, -, rfl⟩
    · exact hs.counterStep hcen
    · exact (hs.counterStep hcen).dmaTransfer { ht with } hdue
  split_ifs with hw
  · refine hs1.wrapService ?_
    rw [compareStep_frame h1]
    exact if_pos hw
  · exact hs1

/-! ## The invariant of the block -/

theorem SameEngine.blockInv {s t : State} (h : SameEngine s t) (hb : BlockInv s) : BlockInv t where
  config := by cases h; exact hb.config
  modes := h.engineModes hb.modes
  tables := h.tableInv hb.tables
  timer := h.timerInv hb.timer

theorem CommandEffect.blockInv {i : Instr} {s u : State} (h : CommandEffect i s u)
    (hz : ZeroChecked i s u) (hb : BlockInv s) : BlockInv u where
  config := h.streams.1 ▸ hb.config
  modes := h.engineModes hb.modes
  tables := h.tableInv hz hb.tables
  timer := h.timerInv hb

theorem blockInv_tick {s t : State} (hcen : s.timCen = true) (h : tick s = .next t)
    (hb : BlockInv s) : BlockInv t where
  config := (extends_of_tick h).cfg ▸ hb.config
  modes := engineModes_tick h hb.modes
  tables := tableInv_tick h hb.tables
  timer := timerInv_tick hcen h hb.tables hb.timer

/-- Settles O45: the modes, the tables and the timer are kept each by its own lemmas. -/
theorem stepKeepsTheInvariant : Obligations.StepKeepsTheInvariant := fun _ _ hb h =>
  step_keeps SameEngine.blockInv CommandEffect.blockInv blockInv_tick h hb

/-! ## The widths of R21 -/

/-- An element fits a width: a number below two to the width, a count below two to the bits the width gives
it before its table, a table of `MAX_STATES` entries of 64 bits. -/
def Element.Fits (c : Config) (w : Nat) : Element → Prop
  | .scalar v => v < 2 ^ w
  | .countedTable n es =>
    n < 2 ^ clog2 (c.maxStates + 1) ∧ es.length = c.maxStates ∧
      w = clog2 (c.maxStates + 1) + c.maxStates * 64
  | .table es => es.length = c.maxStates ∧ w = c.maxStates * 64
  | .writeOnly => True

theorem le_two_pow_clog2 (n : Nat) : n ≤ 2 ^ clog2 n := by
  unfold clog2
  split_ifs with h
  · exact h
  · have := Nat.lt_log2_self (n := n - 1)
    omega

/-- A count of entries of a table fits the bits R21 gives it (R36, R39). -/
theorem count_lt {c : Config} {n : Nat} (h : n ≤ c.maxStates) : n < 2 ^ clog2 (c.maxStates + 1) :=
  Nat.lt_of_lt_of_le (Nat.lt_succ_of_le h) (le_two_pow_clog2 _)

theorem length_tableEntries (c : Config) (m : Memory) : (tableEntries c m).length = c.maxStates := by
  simp [tableEntries]

/-- `DMA_IDX` numbers an entry of the table (R33). -/
theorem TableInv.dmaIdx_lt_two_pow {s : State} (h : TableInv s) : s.dmaIdx < 2 ^ clog2 s.cfg.maxStates := by
  rcases h.dmaIdx_lt with h0 | hlt
  · rw [h0]
    exact Nat.two_pow_pos _
  · exact (hlt.trans_le h.dmaLen_le).trans_le (le_two_pow_clog2 _)

/-- The element numbers of R21 with a width: all but `CMD_PC`. -/
theorem number_of_elementWidth {c : Config} {no w : Nat} (hw : elementWidth c no = some w) :
    no ∈ [0x00, 0x01, 0x02, 0x03, 0x10, 0x11, 0x12, 0x13, 0x20, 0x21, 0x22, 0x30, 0x31, 0x40, 0x41] := by
  by_contra hno
  simp only [List.mem_cons, List.not_mem_nil, or_false, not_or] at hno
  simp [elementWidth, hno] at hw

/-- Every element of the register map fits its width. -/
theorem elementValue_fits {s : State} {no w : Nat} {e : Element} (hb : BlockInv s)
    (hw : elementWidth s.cfg no = some w) (hv : elementValue s no = some e) : e.Fits s.cfg w := by
  have hno := number_of_elementWidth hw
  simp only [List.mem_cons, List.not_mem_nil, or_false] at hno
  rcases hno with rfl | rfl | rfl | rfl | rfl | rfl | rfl | rfl | rfl | rfl | rfl | rfl | rfl | rfl |
      rfl <;>
    cases hw <;> cases hv
  · exact BitVec.isLt _  -- ENG_STATE
  · exact BitVec.isLt _  -- FLAGS
  · exact BitVec.isLt _  -- PERIOD_US
  · exact BitVec.isLt _  -- FAULT
  · exact hb.timer.cnt  -- TIM_CNT
  · exact hb.timer.period  -- TIM_PERIOD
  · exact hb.timer.ccr  -- TIM_CCR
  · exact BitVec.isLt _  -- TIM_CR
  · exact Bool.toNat_lt _  -- DMA_EN
  · exact count_lt hb.tables.dmaLen_le  -- DMA_LEN
  · exact hb.tables.dmaIdx_lt_two_pow  -- DMA_IDX
  · exact BitVec.isLt _  -- GPIO_ODR
  · trivial  -- GPIO_BSRR
  · exact ⟨count_lt hb.tables.shadowCount_le, length_tableEntries _ _, rfl⟩  -- the shadow table
  · exact ⟨length_tableEntries _ _, rfl⟩  -- the live table

/-- Settles O49: each shape of element is one case of `Element.Fits`. -/
theorem elementsFitTheirWidths : Obligations.ElementsFitTheirWidths := fun _ _ _ hb hw =>
  ⟨fun _ hv => elementValue_fits hb hw hv, fun _ _ hv => elementValue_fits hb hw hv,
    fun _ hv => elementValue_fits hb hw hv⟩

/-! ## FAULT is not read -/

/-- The same state with other fault bits. -/
def State.withFault (f : BitVec 5) (s : State) : State := { s with fault := f }

/-- The same part of a step, with its next state changed by `g`. -/
def Result.mapNext (g : State → State) : Result → Result
  | .next s => .next (g s)
  | .hold => .hold
  | .raise k => .raise k
  | .refuse r => .refuse r
  | .stop e => .stop e

/-- `F` gives the same outcome whatever `FAULT` holds, and hands `FAULT` on. -/
def IgnoresFault (F : State → Result) : Prop :=
  ∀ f s, F (s.withFault f) = (F s).mapNext (State.withFault f)

/-- A part of a step that ignores `FAULT` may follow one that has. -/
theorem andThen_mapNext {F : State → Result} (hF : IgnoresFault F) (r : Result) (f : BitVec 5) :
    (r.mapNext (State.withFault f)).andThen F = (r.andThen F).mapNext (State.withFault f) := by
  cases r with
  | next s => exact hF f s
  | _ => rfl

theorem ignoresFault_commit : IgnoresFault commit := by
  intro f s
  simp only [commit, apply_ite (Result.mapNext _)]
  rfl

theorem ignoresFault_arm : IgnoresFault arm := by
  intro f s
  simp only [arm, apply_ite (Result.mapNext _)]
  rfl

theorem ignoresFault_startResult : IgnoresFault startResult := by
  intro f s
  have hcommit : (if (s.withFault f).commitPending then commit (s.withFault f)
      else .next (s.withFault f)) =
      (if s.commitPending then commit s else .next s).mapNext (State.withFault f) := by
    rw [ignoresFault_commit, apply_ite (Result.mapNext _)]
    rfl
  have harm : IgnoresFault fun s1 => (arm s1).andThen fun s2 =>
      .next (startDone { s2 with engState := .running }) := by
    intro f s1
    simp only [ignoresFault_arm f s1]
    exact andThen_mapNext (fun _ _ => rfl) _ f
  have hstate : (s.withFault f).engState = s.engState := rfl
  unfold startResult
  rw [hstate]
  cases s.engState with
  | idle =>
    simp only [hcommit]
    exact andThen_mapNext harm _ f
  | _ => rfl

theorem insertEntry_withFault (pos : Nat) (t b : Word) (f : BitVec 5) (s : State) :
    insertEntry pos t b (s.withFault f) = (insertEntry pos t b s).withFault f := by
  simp only [insertEntry, apply_ite (State.withFault f)]
  rfl

theorem mergeInsert_withFault (t b : Word) (f : BitVec 5) (s : State) :
    mergeInsert t b (s.withFault f) = (mergeInsert t b s).withFault f := by
  have hfind : entryWithTime (s.withFault f) t = entryWithTime s t := rfl
  simp only [mergeInsert, insertEntry_withFault, hfind, apply_ite (State.withFault f)]
  cases entryWithTime s t <;> rfl

theorem mergeAll_withFault (tbs : List (Word × Word)) (f : BitVec 5) (s : State) :
    mergeAll tbs (s.withFault f) = (mergeAll tbs s).withFault f := by
  induction tbs generalizing s with
  | nil => rfl
  | cons tb tbs ih => exact (congrArg (mergeAll tbs) (mergeInsert_withFault ..)).trans (ih _)

theorem freshSequenceCheck_withFault (f : BitVec 5) (s : State) :
    freshSequenceCheck (s.withFault f) = (freshSequenceCheck s).withFault f := by
  simp only [freshSequenceCheck, apply_ite (State.withFault f)]
  rfl

theorem setchStaged_withFault (ch : BitVec 8) (times : List Word) (f : BitVec 5) (s : State) :
    setchStaged ch times (s.withFault f) = (setchStaged ch times s).withFault f := by
  unfold setchStaged
  rw [freshSequenceCheck_withFault]
  exact mergeAll_withFault (toggles s.cfg ch times) f (markPending (freshSequenceCheck s))

theorem ignoresFault_setchResult (ch : BitVec 8) (times : List Word) :
    IgnoresFault (setchResult ch times) := by
  intro f s
  simp only [setchResult, freshSequenceCheck_withFault, setchStaged_withFault,
    apply_ite (Result.mapNext _)]
  rfl

theorem stagePeriod_withFault (p : Word) (f : BitVec 5) (s : State) :
    stagePeriod p (s.withFault f) = (stagePeriod p s).withFault f := by
  simp only [stagePeriod, apply_ite (State.withFault f)]
  rfl

theorem stopRequest_withFault (f : BitVec 5) (s : State) :
    stopRequest (s.withFault f) = (stopRequest s).withFault f := by
  rw [stopRequest_eq, stopRequest_eq]
  rfl

/-- No command reads `FAULT` (R46). -/
theorem ignoresFault_commandResult (i : Instr) : IgnoresFault (commandResult i) := by
  intro f s
  cases i with
  | start => exact ignoresFault_startResult f s
  | setch ch times => exact ignoresFault_setchResult ch times f s
  | setper p => simp only [commandResult, stagePeriod_withFault]; rfl
  | stop => simp only [commandResult, stopRequest_withFault]; rfl
  | getch ch => simp only [commandResult, getchResult, apply_ite (Result.mapNext _)]; rfl
  | getall => simp only [commandResult, getallResult, apply_ite (Result.mapNext _)]; rfl
  | _ => rfl

theorem ignoresFault_compareStep : IgnoresFault compareStep := by
  intro f s
  simp only [compareStep, apply_ite (Result.mapNext _)]
  rfl

theorem wrapService_withFault (f : BitVec 5) (s : State) :
    wrapService (s.withFault f) = (wrapService s).withFault f := by
  have hstate : (s.withFault f).engState = s.engState := rfl
  unfold wrapService
  rw [hstate]
  cases s.engState <;> rfl

/-- Nor does a tick. -/
theorem ignoresFault_tick : IgnoresFault tick := by
  intro f s
  have hwrap : IgnoresFault fun s1 => .next (if wraps s then wrapService s1 else s1) := by
    intro f s1
    simp only [wrapService_withFault, Result.mapNext, apply_ite (State.withFault f)]
  exact (congrArg (Result.andThen · _) (ignoresFault_compareStep f (counterStep s))).trans
    (andThen_mapNext hwrap _ f)

theorem ignoresFault_timerResult : IgnoresFault timerResult := by
  intro f s
  simp only [timerResult, ignoresFault_tick f s, apply_ite (Result.mapNext _)]
  rfl

/-- A settled step writes `FAULT` by a fault of its own only (R11). -/
theorem settle_withFault {F : State → Result} (hF : IgnoresFault F) (f : BitVec 5) {s t : State}
    (h : settle s (F s) = .next t) :
    ∃ g, settle (s.withFault f) (F (s.withFault f)) = .next (t.withFault g) := by
  rw [hF f s]
  rcases settle_eq_next.1 h with hr | ⟨hr, rfl⟩ | ⟨k, hr, rfl⟩ <;> rw [hr]
  · exact ⟨f, rfl⟩
  · exact ⟨f, rfl⟩
  · exact ⟨f ||| k.bit, rfl⟩

theorem exec_withFault {i : Instr} (f : BitVec 5) {s t : State} (h : exec i s = .next t) :
    ∃ g, exec i (s.withFault f) = .next (t.withFault g) := by
  rw [exec_eq_runCommand] at h ⊢
  have hv : s.cfg.valid = true := (runCommand_eq_next.1 h).1
  rw [runCommand_valid hv] at h
  rw [runCommand_valid (s := s.withFault f) hv]
  exact settle_withFault (ignoresFault_commandResult i) f h

theorem step_withFault (f : BitVec 5) {s t : State} (h : step s = .next t) :
    ∃ g, step (s.withFault f) = .next (t.withFault g) := by
  obtain ⟨hv, ⟨ws, hn, rfl⟩ | ⟨hn, hc⟩ | ⟨hn, ht⟩⟩ := step_eq_next.1 h
  · exact ⟨f, step_of_host (s := s.withFault f) hv hn⟩
  · rcases commandTurn_eq_next.1 hc with ⟨i, hf, he⟩ | ⟨hf, rfl⟩
    · obtain ⟨g, hg⟩ := exec_withFault f he
      exact ⟨g, (step_of_fetch (s := s.withFault f) hv hn hf).trans hg⟩
    · exact ⟨f, step_of_no_fetch (s := s.withFault f) hv hn hf⟩
  · obtain ⟨g, hg⟩ := settle_withFault ignoresFault_timerResult f ht
    exact ⟨g, (step_of_timer (s := s.withFault f) hv hn).trans hg⟩

/-- Settles O51: what the host observes does not mention `FAULT`. -/
theorem faultIsNotObservable : Obligations.FaultIsNotObservable := by
  intro s t f h
  obtain ⟨g, hg⟩ := step_withFault f h
  exact ⟨g, hg, rfl⟩

/-! ## What moves the outputs -/

/-- The outputs of `t` are those of `s`, and outside IDLE so are the timer's counter and compare register,
the playback index and the three mode bits. -/
structure SamePlayback (s t : State) : Prop where
  gpioOdr : t.gpioOdr = s.gpioOdr
  outsideIdle : s.engState ≠ .idle →
    t.timCnt = s.timCnt ∧ t.timCcr = s.timCcr ∧ t.dmaIdx = s.dmaIdx ∧ t.timCen = s.timCen ∧
      t.timOpm = s.timOpm ∧ t.dmaEn = s.dmaEn

theorem SamePlayback.refl (s : State) : SamePlayback s s := by
  constructor <;> simp

/-- No command but RESET writes the outputs (R37). -/
theorem CommandEffect.gpioOdr {i : Instr} {s u : State} (h : CommandEffect i s u) (hi : i ≠ .reset) :
    u.gpioOdr = s.gpioOdr := by
  cases h with
  | nothing _ => rfl
  | setper p => rw [stagePeriod_eq]
  | setch ch times => rw [setchStaged_eq]
  | stop => rw [stopRequest_eq]; rfl
  | startRunning _ => rfl
  | startIdle _ hc _ =>
    split_ifs at hc
    · obtain ⟨-, -, -, -, rfl⟩ := commit_eq_next.1 hc
      rfl
    · cases hc
      rfl
  | reset => exact absurd rfl hi

theorem samePlayback_of_exec {i : Instr} {s t : State} (hi : i ≠ .reset) (h : exec i s = .next t) :
    SamePlayback s t := by
  rcases exec_eq_next h with ⟨n, ws, u, hu, rfl⟩ | rfl | ⟨k, rfl⟩
  · refine ⟨hu.gpioOdr hi, fun hidle => ?_⟩
    rcases hu.frame_outside_idle hidle with ⟨hreset, -⟩ | ⟨hframe, -⟩
    · exact absurd hreset hi
    · rw [hframe]
      exact ⟨rfl, rfl, rfl, rfl, rfl, rfl⟩
  · exact .refl _
  · exact { SamePlayback.refl s with }

/-- Settles O54: the fetched command is not RESET, and a turn taken moves nothing of the engine. -/
theorem onlyTicksMoveTheOutputs : Obligations.OnlyTicksMoveTheOutputs := by
  intro s t h hno hreset
  suffices hsame : SamePlayback s t from ⟨hsame.gpioOdr, hsame.outsideIdle⟩
  obtain ⟨-, ⟨ws, -, rfl⟩ | ⟨hn, hc⟩ | ⟨hn, -⟩⟩ := step_eq_next.1 h
  · exact { SamePlayback.refl s with }
  · rcases commandTurn_eq_next.1 hc with ⟨i, hf, he⟩ | ⟨-, rfl⟩
    · have hi : i ≠ .reset := fun hi => hreset hn (hi ▸ hf)
      exact { samePlayback_of_exec hi he with }
    · exact { SamePlayback.refl s with }
  · exact absurd hn hno

end Sys2Proof.Machine
end

section
/-! PROOF. The tables: their canonical form in every step, who writes what playback fetches, accesses past a
table space, and the byte transport of words. -/

namespace Sys2Proof

/-! ## The byte transport -/

/-- The four bytes of a word are read back as that word, whatever bytes follow (R63). -/
theorem wordsOfBytes_bytesOfWord_append (w : Word) (bs : List Byte) :
    wordsOfBytes (bytesOfWord w ++ bs) = w :: wordsOfBytes bs :=
  congrArg (· :: wordsOfBytes bs) (Machine.bytes_of_word w)

/-- Settles O8: by induction on the words, each read back from the front of the stream. -/
theorem byteTransportRoundTrip : Obligations.ByteTransportRoundTrip := by
  intro ws
  induction ws with
  | nil => rfl
  | cons w ws ih => rw [List.flatMap_cons, wordsOfBytes_bytesOfWord_append, ih]

end Sys2Proof

namespace Sys2Proof.Machine

/-! ## The canonical form of the tables -/

theorem memoriesCanonical_iff {s : State} :
    memoriesCanonical s = true ↔ s.shadow.wf = true ∧ s.live.wf = true := by
  rw [memoriesCanonical, Bool.and_eq_true]

theorem SameEngine.memoriesCanonical {s t : State} (h : SameEngine s t)
    (hm : memoriesCanonical s = true) : memoriesCanonical t = true := by
  cases h
  exact hm

/-- A SETCH writes the shadow table alone, by the clear and the merges (R110, R111). -/
theorem memoriesCanonical_setchStaged {s : State} (hm : memoriesCanonical s = true) (ch : BitVec 8)
    (times : List Word) : memoriesCanonical (setchStaged ch times s) = true := by
  obtain ⟨hshadow, hlive⟩ := memoriesCanonical_iff.1 hm
  have hfresh : (markPending (freshSequenceCheck s)).shadow.wf = true := wf_freshSequenceCheck hshadow
  refine memoriesCanonical_iff.2 ⟨wf_mergeAll hfresh _, ?_⟩
  rw [setchStaged_eq]
  exact hlive

theorem memoriesCanonical_resetBlock {s : State} (hm : memoriesCanonical s = true) :
    memoriesCanonical (resetBlock s) = true := by
  obtain ⟨hshadow, hlive⟩ := memoriesCanonical_iff.1 hm
  exact memoriesCanonical_iff.2 ⟨Memory.wf_clearTable _ hshadow, Memory.wf_clearTable _ hlive⟩

/-- A completed command keeps both table spaces canonical. -/
theorem CommandEffect.memoriesCanonical {i : Instr} {s u : State} (h : CommandEffect i s u)
    (hm : memoriesCanonical s = true) : memoriesCanonical u = true := by
  cases h with
  | nothing _ => exact hm
  | setper p => exact (sameEngine_stagePeriod p s).memoriesCanonical hm
  | setch ch times => exact memoriesCanonical_setchStaged hm ch times
  | stop => rw [stopRequest_eq]; exact hm
  | startRunning _ => exact hm
  | startIdle _ hc _ =>
    split_ifs at hc
    · obtain ⟨-, -, -, -, rfl⟩ := commit_eq_next.1 hc
      exact memoriesCanonical_committed hm
    · cases hc
      exact hm
  | reset => exact memoriesCanonical_resetBlock hm

/-- A tick writes no table. -/
theorem memoriesCanonical_tick {s t : State} (h : tick s = .next t) (hm : memoriesCanonical s = true) :
    memoriesCanonical t = true := by
  rw [tick_frame h]
  exact hm

/-- Settles O46: SETCH, the commit and RESET are the only writers of a table, and each keeps the form. -/
theorem stepKeepsMemoriesCanonical : Obligations.StepKeepsMemoriesCanonical := fun _ _ hm h =>
  step_keeps SameEngine.memoriesCanonical (fun hu _ => hu.memoriesCanonical)
    (fun _ => memoriesCanonical_tick) h hm

/-! ## Who writes what playback fetches -/

/-- `t` has what the playback of `s` fetches: the live table, the period and the table's length. -/
structure SamePlayed (s t : State) : Prop where
  live : t.live = s.live
  timPeriod : t.timPeriod = s.timPeriod
  dmaLen : t.dmaLen = s.dmaLen

theorem SamePlayed.refl (s : State) : SamePlayed s s := ⟨rfl, rfl, rfl⟩

/-- The commands that may write what playback fetches: RESET (R270), and a START that commits (R141). -/
def WritesPlayed (i : Instr) (s : State) : Prop :=
  i = .reset ∨ (i = .start ∧ s.engState = .idle ∧ s.dmaEn = false ∧ s.commitPending = true)

/-- No other completed command writes it (R70, R73). -/
theorem CommandEffect.samePlayed {i : Instr} {s u : State} (h : CommandEffect i s u)
    (hno : ¬WritesPlayed i s) : SamePlayed s u := by
  cases h with
  | nothing _ => exact .refl s
  | setper p => rw [stagePeriod_eq]; exact { SamePlayed.refl s with }
  | setch ch times => rw [setchStaged_eq]; exact { SamePlayed.refl s with }
  | stop => rw [stopRequest_eq]; exact { SamePlayed.refl s with }
  | startRunning _ => exact { SamePlayed.refl s with }
  | startIdle hidle hc _ =>
    split_ifs at hc with hpending
    · obtain ⟨hdma, -⟩ := commit_eq_next.1 hc
      exact absurd (.inr ⟨rfl, hidle, hdma, hpending⟩) hno
    · cases hc
      exact { SamePlayed.refl s with }
  | reset => exact absurd (.inl rfl) hno

theorem samePlayed_of_exec {i : Instr} {s t : State} (hno : ¬WritesPlayed i s)
    (h : exec i s = .next t) : SamePlayed s t := by
  rcases exec_eq_next h with ⟨n, ws, u, hu, rfl⟩ | rfl | ⟨k, rfl⟩
  · exact { hu.samePlayed hno with }
  · exact .refl _
  · exact { SamePlayed.refl s with }

/-- A tick fetches it and writes none of it (R182). -/
theorem samePlayed_of_tick {s t : State} (h : tick s = .next t) : SamePlayed s t := by
  rw [tick_frame h]
  exact { SamePlayed.refl s with }

/-- A step leaves it, or is the command agent's turn on one of those commands. -/
theorem samePlayed_of_step {s t : State} (h : step s = .next t) :
    SamePlayed s t ∨ (nextTurn s = .command ∧ ∃ i, fetch s = some i ∧ WritesPlayed i s) := by
  obtain ⟨-, ⟨ws, -, rfl⟩ | ⟨hn, hc⟩ | ⟨-, ht⟩⟩ := step_eq_next.1 h
  · exact .inl { SamePlayed.refl s with }
  · rcases commandTurn_eq_next.1 hc with ⟨i, hf, he⟩ | ⟨-, rfl⟩
    · by_cases hw : WritesPlayed i s
      · exact .inr ⟨hn, i, hf, hw⟩
      · exact .inl { samePlayed_of_exec (s := turnTaken s) hw he with }
    · exact .inl { SamePlayed.refl s with }
  · rcases settle_timerResult_eq_next.1 ht with ⟨-, htick⟩ | ⟨-, rfl⟩
    · exact .inl { samePlayed_of_tick htick with }
    · exact .inl { SamePlayed.refl s with }

/-- Settles O53: a change excludes every step but a RESET or a START that commits. -/
theorem liveTableWrittenOnlyByACommit : Obligations.LiveTableWrittenOnlyByACommit := by
  intro s t h hchange
  rcases samePlayed_of_step h with hsame | ⟨hn, i, hf, rfl | ⟨rfl, hstart⟩⟩
  · exact absurd hchange (by simp [hsame.live, hsame.timPeriod, hsame.dmaLen])
  · exact .inl ⟨hn, hf⟩
  · exact .inr ⟨hn, hf, hstart⟩

/-! ## Accesses past a table space -/

theorem countOutside_iff {s : State} {n : Nat} : countOutside s n = true ↔ s.cfg.maxStates < n :=
  decide_eq_true_iff

/-- A command that would reach outside a table space stops the machine (log 5). -/
theorem exec_of_stop {i : Instr} {s : State} {f : Fault} (hv : s.cfg.valid = true)
    (h : commandResult i s = .stop f) : exec i s = .fault f := by
  rw [exec_eq_runCommand, runCommand_valid hv, h, settle]

theorem hasZeroTime_eq_false {c : Config} {times : List Word} :
    hasZeroTime c times = false ↔ (0 : Word) ∉ times.take c.maxToggles := by
  simp only [hasZeroTime, usedTimes, List.any_eq_false, beq_iff_eq]
  exact ⟨fun h hmem => h 0 hmem rfl, fun h t hmem ht => h (ht ▸ hmem)⟩

theorem setchResult_of_outside {s : State} {ch : BitVec 8} {times : List Word}
    (hch : ch.toNat < s.cfg.channelCount) (hz : (0 : Word) ∉ times.take s.cfg.maxToggles)
    (hfresh : s.freshSequence = false) (hcount : s.cfg.maxStates < s.shadowCount) :
    setchResult ch times s = .stop .tableBounds := by
  have hrange := channelInRange_iff.2 hch
  have hzero := hasZeroTime_eq_false.2 hz
  have hsame : freshSequenceCheck s = s := by
    rw [freshSequenceCheck, if_neg (by simp [hfresh])]
  rw [setchResult, hrange, hzero, hsame, countOutside_iff.2 hcount]
  rfl

theorem commit_of_outside {s : State} (hdma : s.dmaEn = false)
    (hcount : s.cfg.maxStates < s.shadowCount) : commit s = .stop .tableBounds := by
  rw [commit, hdma, countOutside_iff.2 hcount]
  rfl

theorem arm_of_outside {s : State} (hperiod : s.timPeriod ≠ 0) (hlen : s.cfg.maxStates < s.dmaLen) :
    arm s = .stop .tableBounds := by
  rw [arm, if_neg hperiod, if_pos (countOutside_iff.2 hlen)]

/-- A START from IDLE stops where its commit does. -/
theorem startResult_of_commit_stop {s : State} {f : Fault} (hidle : s.engState = .idle)
    (hpending : s.commitPending = true) (hc : commit s = .stop f) : startResult s = .stop f := by
  simp [startResult, hidle, hpending, hc, Result.andThen]

/-- A START from IDLE with nothing to commit stops where its arm does. -/
theorem startResult_of_arm_stop {s : State} {f : Fault} (hidle : s.engState = .idle)
    (hpending : s.commitPending = false) (ha : arm s = .stop f) : startResult s = .stop f := by
  simp [startResult, hidle, hpending, ha, Result.andThen]

theorem getchResult_of_outside {s : State} {ch : BitVec 8} (hch : ch.toNat < s.cfg.channelCount)
    (hlen : s.cfg.maxStates < s.dmaLen) : getchResult ch s = .stop .tableBounds := by
  rw [getchResult, channelInRange_iff.2 hch, countOutside_iff.2 hlen]
  rfl

theorem getallResult_of_outside {s : State} (hlen : s.cfg.maxStates < s.dmaLen) :
    getallResult s = .stop .tableBounds := by
  rw [getallResult, if_pos (countOutside_iff.2 hlen)]

theorem compareStep_of_outside {s : State} (hdue : transferDue s = true)
    (hidx : s.cfg.maxStates ≤ s.dmaIdx) : compareStep s = .stop .tableBounds := by
  have hout : countOutside s (s.dmaIdx + 1) = true := countOutside_iff.2 (Nat.lt_succ_of_le hidx)
  rw [compareStep, hdue, hout]
  rfl

/-- The transfer a tick makes is due when the counter's next value is the compare value (R181, R182). -/
theorem transferDue_counterStep {s : State} (hdma : s.dmaEn = true) (hlen : 0 < s.dmaLen)
    (hccr : s.timCcr = if cycleLength s ≤ s.timCnt + 1 then 0 else s.timCnt + 1) :
    transferDue (counterStep s) = true := by
  refine transferDue_iff.2 ⟨?_, hdma, hlen⟩
  simp [hccr, wraps]

theorem timerResult_of_outside {s : State} (hcen : s.timCen = true)
    (hdue : transferDue (counterStep s) = true) (hidx : s.cfg.maxStates ≤ s.dmaIdx) :
    timerResult s = .stop .tableBounds := by
  rw [timerResult, if_pos hcen, tick, compareStep_of_outside hdue hidx, Result.andThen]

/-- Settles O48: each command's own part, and the tick's compare step, stops at its check. -/
theorem countsPastTheTableStop : Obligations.CountsPastTheTableStop := by
  intro s hv
  refine ⟨fun ch times hch hz hfresh hcount => ?_, fun hidle hpending hdma hcount => ?_,
    fun hlen => ⟨fun hidle hpending hperiod => ?_, fun ch hch => ?_, ?_⟩,
    fun hn hcen hdma hlen hidx hccr => ?_⟩
  · exact exec_of_stop hv (setchResult_of_outside hch hz hfresh hcount)
  · exact exec_of_stop hv (startResult_of_commit_stop hidle hpending (commit_of_outside hdma hcount))
  · exact exec_of_stop hv (startResult_of_arm_stop hidle hpending (arm_of_outside hperiod hlen))
  · exact exec_of_stop hv (getchResult_of_outside hch hlen)
  · exact exec_of_stop hv (getallResult_of_outside hlen)
  · have hdue : transferDue (counterStep (turnTaken s)) = true :=
      transferDue_counterStep (s := turnTaken s) hdma hlen hccr
    have hstop := timerResult_of_outside (s := turnTaken s) hcen hdue hidx
    rw [step_of_timer hv hn, hstop, settle]

end Sys2Proof.Machine
end

section
/-! PROOF. What a header selects, by its opcode and the fields of its format, and from it the round trip of
the encoder and the decoder (30_encoding.md R84 to R93). -/

namespace Sys2Proof

/-! ## What a header selects -/

/-- The header `h`, before the words `ws`, selects the command: R90's map with the operand fields of R86, and
R91 outside the map. -/
inductive Selects (h : Word) (ws : List Word) : Instr → Prop
  | start (op : opcodeOf h = 0x01#8) : Selects h ws .start
  | stop (op : opcodeOf h = 0x02#8) : Selects h ws .stop
  | setper {value : Word} (op : opcodeOf h = 0x03#8) (hvalue : ws.headD 0 = value) :
      Selects h ws (.setper value)
  | setch {ch : BitVec 8} {times : List Word} (op : opcodeOf h = 0x04#8) (hch : channelOf h = ch)
      (htimes : ws.take (countOf h).toNat = times) : Selects h ws (.setch ch times)
  | getper (op : opcodeOf h = 0x05#8) : Selects h ws .getper
  | getch {ch : BitVec 8} (op : opcodeOf h = 0x06#8) (hch : channelOf h = ch) : Selects h ws (.getch ch)
  | getall (op : opcodeOf h = 0x07#8) : Selects h ws .getall
  | ping (op : opcodeOf h = 0x08#8) : Selects h ws .ping
  | setaddr {addr : BitVec 8} (op : opcodeOf h = 0x09#8) (haddr : addressOf h = addr) :
      Selects h ws (.setaddr addr)
  | getaddr (op : opcodeOf h = 0x0A#8) : Selects h ws .getaddr
  | reset (op : opcodeOf h = 0x0B#8) : Selects h ws .reset
  | reserved {o : BitVec 8} (op : opcodeOf h = o) (hres : reservedOpcode o = true) :
      Selects h ws (.reserved o)

section Headers

variable {h h' : Word} {ws ops rest : List Word} {i : Instr}

theorem commandOf_of_selects (hs : Selects h ws i) : commandOf h ws = i := by
  cases hs with
  | setper op hvalue => rw [commandOf, op, ← hvalue]; rfl
  | setch op hch htimes => rw [commandOf, op, ← hch, ← htimes]; rfl
  | getch op hch => rw [commandOf, op, ← hch]; rfl
  | setaddr op haddr => rw [commandOf, op, ← haddr]; rfl
  | reserved op hres => simp [commandOf, op, reservedOpcode_ne hres]
  | _ op => rw [commandOf, op]; rfl

/-- An opcode of none of the map's commands is reserved (R91). -/
theorem reservedOpcode_of_ne {o : BitVec 8} (h1 : o ≠ 0x01#8) (h2 : o ≠ 0x02#8) (h3 : o ≠ 0x03#8)
    (h4 : o ≠ 0x04#8) (h5 : o ≠ 0x05#8) (h6 : o ≠ 0x06#8) (h7 : o ≠ 0x07#8) (h8 : o ≠ 0x08#8)
    (h9 : o ≠ 0x09#8) (h10 : o ≠ 0x0A#8) (h11 : o ≠ 0x0B#8) : reservedOpcode o = true := by
  simp only [reservedOpcode, Bool.or_eq_true, decide_eq_true_eq]
  bv_omega

/-- Every header selects a command: no header word is refused (R243). -/
theorem exists_selects (h : Word) (ws : List Word) : ∃ i, Selects h ws i :=
  if h1 : opcodeOf h = 0x01#8 then ⟨_, .start h1⟩
  else if h2 : opcodeOf h = 0x02#8 then ⟨_, .stop h2⟩
  else if h3 : opcodeOf h = 0x03#8 then ⟨_, .setper h3 rfl⟩
  else if h4 : opcodeOf h = 0x04#8 then ⟨_, .setch h4 rfl rfl⟩
  else if h5 : opcodeOf h = 0x05#8 then ⟨_, .getper h5⟩
  else if h6 : opcodeOf h = 0x06#8 then ⟨_, .getch h6 rfl⟩
  else if h7 : opcodeOf h = 0x07#8 then ⟨_, .getall h7⟩
  else if h8 : opcodeOf h = 0x08#8 then ⟨_, .ping h8⟩
  else if h9 : opcodeOf h = 0x09#8 then ⟨_, .setaddr h9 rfl⟩
  else if h10 : opcodeOf h = 0x0A#8 then ⟨_, .getaddr h10⟩
  else if h11 : opcodeOf h = 0x0B#8 then ⟨_, .reset h11⟩
  else ⟨_, .reserved rfl (reservedOpcode_of_ne h1 h2 h3 h4 h5 h6 h7 h8 h9 h10 h11)⟩

theorem Selects.wf (hs : Selects h ws i) : i.wf = true := by
  cases hs with
  | setch op hch htimes =>
    subst htimes
    have htake := List.length_take_le (countOf h).toNat ws
    have hcount := (countOf h).isLt
    simp only [Instr.wf, countFits, decide_eq_true_eq]
    omega
  | reserved op hres => exact hres
  | _ => rfl

/-- With its operand words there, the command is as long as its header says (R92). -/
theorem Selects.words_eq (hs : Selects h ws i) (hw : commandLength h - 1 ≤ ws.length) :
    i.words = commandLength h := by
  cases hs with
  | setch op hch htimes =>
    subst htimes
    have hcount : (countOf h).toNat ≤ ws.length := by simpa [commandLength, op] using hw
    simp [Instr.words, commandLength, op, hcount]
  | reserved op hres =>
    have hne := reservedOpcode_ne hres
    simp [Instr.words, commandLength, op, hne]
  | _ op => rw [commandLength, op]; rfl

/-- Only the reserved command has a reserved opcode (R91). -/
theorem Selects.eq_reserved (hs : Selects h ws i) (hres : reservedOpcode (opcodeOf h) = true) :
    i = .reserved (opcodeOf h) := by
  rw [← commandOf_of_selects hs, commandOf_of_selects (.reserved rfl hres)]

/-- A header followed by its operand words decodes to the command it selects (R92). -/
theorem decode_of_selects (hlen : commandLength h = 1 + ops.length) (hs : Selects h (ops ++ rest) i) :
    decode (h :: (ops ++ rest)) = .ok (i, rest) := by
  have hops : commandLength h - 1 = ops.length := by omega
  rw [decode_cons (by simp [hops]), commandOf_of_selects hs, hops, List.drop_left]

/-! ## The encoder's words -/

theorem encodeLength (i : Instr) : Laws.EncodeLength.Statement i := by
  cases i with
  | start => exact Laws.EncodeLength.start
  | stop => exact Laws.EncodeLength.stop
  | setper value => exact Laws.EncodeLength.setper value
  | setch ch times => exact Laws.EncodeLength.setch ch times
  | getper => exact Laws.EncodeLength.getper
  | getch ch => exact Laws.EncodeLength.getch ch
  | getall => exact Laws.EncodeLength.getall
  | ping => exact Laws.EncodeLength.ping
  | setaddr addr => exact Laws.EncodeLength.setaddr addr
  | getaddr => exact Laws.EncodeLength.getaddr
  | reset => exact Laws.EncodeLength.reset
  | reserved opcode => exact Laws.EncodeLength.reserved opcode

theorem encode_ne_nil (i : Instr) : encode i ≠ [] := by cases i <;> exact List.cons_ne_nil _ _

/-- The header the encoder writes selects the command it was written for (R85, R86). -/
theorem selects_of_encode (hwf : i.wf = true) (he : encode i = h :: ops) (rest : List Word) :
    Selects h (ops ++ rest) i := by
  cases i with
  | setper value => cases he; exact .setper (opcodeOf_commandHeader ..) rfl
  | setch ch times =>
    cases he
    have hcount := toNat_count hwf
    refine .setch (opcodeOf_commandHeader ..) (channelOf_commandHeader ..) ?_
    rw [countOf_commandHeader, hcount, List.take_left]
  | getch ch => cases he; exact .getch (opcodeOf_commandHeader ..) (channelOf_commandHeader ..)
  | setaddr addr => cases he; exact .setaddr (opcodeOf_commandHeader ..) (addressOf_commandHeader ..)
  | reserved o => cases he; exact .reserved (opcodeOf_commandHeader ..) hwf
  | _ => cases he; constructor; rfl

/-! ## The ignored bits -/

/-- The two headers agree in the opcode and in the fields that the opcode's format names (R93). -/
structure SameFields (h h' : Word) : Prop where
  opcode : opcodeOf h = opcodeOf h'
  setch : opcodeOf h = 0x04#8 → channelOf h = channelOf h' ∧ countOf h = countOf h'
  getch : opcodeOf h = 0x06#8 → channelOf h = channelOf h'
  setaddr : opcodeOf h = 0x09#8 → addressOf h = addressOf h'

theorem commandLength_congr (hf : SameFields h h') : commandLength h = commandLength h' := by
  by_cases h4 : opcodeOf h = 0x04#8
  · obtain ⟨-, hcount⟩ := hf.setch h4
    simp only [commandLength, ← hf.opcode, hcount]
  · simp only [commandLength, ← hf.opcode, if_neg h4]

/-- The ignored bits have no part in what a header selects (R93). -/
theorem Selects.congr (hf : SameFields h h') (hs : Selects h ws i) : Selects h' ws i := by
  have hop := hf.opcode
  cases hs with
  | setper op hvalue => exact .setper (hop ▸ op) hvalue
  | setch op hch htimes =>
    obtain ⟨hch', hcount⟩ := hf.setch op
    exact .setch (hop ▸ op) (hch' ▸ hch) (hcount ▸ htimes)
  | getch op hch => exact .getch (hop ▸ op) (hf.getch op ▸ hch)
  | setaddr op haddr => exact .setaddr (hop ▸ op) (hf.setaddr op ▸ haddr)
  | reserved op hres => exact .reserved (hop ▸ op) hres
  | _ op => constructor; exact hop ▸ op

end Headers

/-! ## The encoding's obligations -/

/-- Settles O5: the encoder's header selects the command and announces the operand words behind it. -/
theorem decodeOfEncodeIsTheCommand : Obligations.DecodeOfEncodeIsTheCommand := by
  intro i rest hwf
  obtain ⟨h, ops, he⟩ := List.exists_cons_of_ne_nil (encode_ne_nil i)
  obtain ⟨hwords, hlen⟩ := encodeLength i hwf
  rw [he] at hwords hlen ⊢
  have hops : commandLength h = 1 + ops.length := by
    rw [Nat.add_comm, ← List.length_cons, hwords]
    exact hlen
  exact decode_of_selects hops (selects_of_encode hwf he rest)

/-- Settles O6: the length and the selected command read the opcode and the format's fields only. -/
theorem ignoredBitsMeanNothing : Obligations.IgnoredBitsMeanNothing := by
  intro h h' ws hop hsetch hgetch hsetaddr
  have hf : SameFields h h' := ⟨hop, hsetch, hgetch, hsetaddr⟩
  obtain ⟨i, hs⟩ := exists_selects h ws
  rw [decode, decode, commandLength_congr hf, commandOf_of_selects hs, commandOf_of_selects (hs.congr hf)]

/-- Settles O7: every header selects a command, well formed and as long as the header says. -/
theorem everyHeaderDecodes : Obligations.EveryHeaderDecodes := by
  intro h ops rest hlen
  have hlen : commandLength h = 1 + ops.length := hlen.symm
  obtain ⟨i, hs⟩ := exists_selects h (ops ++ rest)
  have hwords := hs.words_eq (by rw [List.length_append]; omega)
  exact ⟨i, decode_of_selects hlen hs, hs.wf, hwords.trans hlen, hs.eq_reserved⟩

/-- Settles O2: the words of the tables are the encoder's, and the round trip decodes them. -/
theorem commandWordsDecode : Obligations.CommandWordsDecode :=
  ⟨decodeOfEncodeIsTheCommand .start [] rfl,
    decodeOfEncodeIsTheCommand .stop [] rfl,
    decodeOfEncodeIsTheCommand (.setper 40000#32) [] rfl,
    decodeOfEncodeIsTheCommand (.setch 5#8 [490#32, 502#32]) [0x01000000#32] rfl,
    decodeOfEncodeIsTheCommand (.getch 200#8) [] rfl,
    decodeOfEncodeIsTheCommand (.setaddr 5#8) [] rfl,
    decodeOfEncodeIsTheCommand (.reserved 0x0C#8) [] rfl⟩

end Sys2Proof
end

section
/-! PROOF. The configuration commands: a merge as one insert or one OR, what the merges of a list leave of the
table's entries, and the whole effects of SETCH and SETPER (40_config_commands.md R110 to R120). -/

namespace Sys2Proof.Machine

/-! ## One merge -/

theorem timeAt_le_of_increase {m : Memory} {n : Nat} (h : TimesIncrease m n) {j k : Nat} (hjk : j ≤ k)
    (hk : k < n) : m.timeAt j ≤ m.timeAt k := by
  rcases Nat.eq_or_lt_of_le hjk with rfl | hlt
  · exact BitVec.le_refl _
  · exact BitVec.le_of_lt (h k hk j hlt)

/-- Each time stands once in an ordered table (R118). -/
theorem eq_of_timeAt_eq {m : Memory} {n : Nat} (h : TimesIncrease m n) {j k : Nat} (hj : j < n)
    (hk : k < n) (he : m.timeAt j = m.timeAt k) : j = k := by
  rcases Nat.lt_trichotomy j k with hlt | heq | hgt
  · exact absurd (h k hk j hlt) (he ▸ BitVec.lt_irrefl _)
  · exact heq
  · exact absurd (h j hj k hgt) (he ▸ BitVec.lt_irrefl _)

/-- A time that is in an ordered table lies within its extremes (R113). -/
theorem within_extremes {s : State} (hinc : TimesIncrease s.shadow s.shadowCount) {j : Nat}
    (hj : j < s.shadowCount) :
    ¬s.shadow.timeAt j < minTime s ∧ ¬maxTime s < s.shadow.timeAt j := by
  rw [maxTime, if_neg (by omega), minTime, BitVec.not_lt, BitVec.not_lt]
  exact ⟨timeAt_le_of_increase hinc (Nat.zero_le j) hj,
    timeAt_le_of_increase hinc (by omega) (by omega)⟩

/-- A merge at a time of the table is the OR into the one entry that has it (R113). -/
theorem mergeInsert_of_timeAt_eq {s : State} {t : Word} (hinc : TimesIncrease s.shadow s.shadowCount)
    {j : Nat} (hj : j < s.shadowCount) (ht : s.shadow.timeAt j = t) (b : Word) :
    mergeInsert t b s = orMask j b s := by
  subst ht
  obtain ⟨hmin, hmax⟩ := within_extremes hinc hj
  rcases mergeInsert_cases (s.shadow.timeAt j) b s with
    ⟨hlt, -⟩ | ⟨hlt, -⟩ | ⟨i, hi, he, hm⟩ | ⟨-, -, hne, -⟩
  · exact absurd hlt hmin
  · exact absurd hlt hmax
  · rw [hm, eq_of_timeAt_eq hinc hi hj he]
  · exact absurd rfl (hne j hj)

/-- A merge at a new time is an insert at its sorted place; the two shortcuts of R113 find the same one. -/
theorem mergeInsert_of_new {s : State} {t : Word} (hinc : TimesIncrease s.shadow s.shadowCount)
    (hne : ∀ j, j < s.shadowCount → s.shadow.timeAt j ≠ t) (b : Word) :
    mergeInsert t b s = insertEntry (firstAbove s t) t b s := by
  obtain ⟨hbelow, habove⟩ := firstAbove_splits hinc hne
  rcases mergeInsert_cases t b s with ⟨hmin, hm⟩ | ⟨hmax, hm⟩ | ⟨j, hj, he, -⟩ | ⟨-, -, -, hm⟩
  · have hfirst : firstAbove s t = 0 := by
      by_contra hpos
      exact BitVec.lt_asymm hmin (hbelow 0 (by omega))
    rw [hm, hfirst]
  · have hlast : firstAbove s t = s.shadowCount := by
      by_contra hlt
      have hle := firstAbove_le s t
      rw [maxTime, if_neg (by omega)] at hmax
      exact BitVec.lt_asymm hmax (habove _ (by omega) (by omega))
    rw [hm, hlast]
  · exact absurd he (hne j hj)
  · exact hm

/-- The OR of a bit into an entry's mask: that entry and its bytes only (R113). -/
theorem orMask_places {s : State} (hm : s.shadow.wf = true) (j : Nat) (b : Word) :
    (∀ k, (orMask j b s).shadow.entry k =
        if k = j then ⟨s.shadow.timeAt j, s.shadow.maskAt j ||| b⟩ else s.shadow.entry k) ∧
      (∀ a, a < 8 * j ∨ 8 * j + 8 ≤ a → (orMask j b s).shadow.readByte a = s.shadow.readByte a) := by
  refine ⟨fun k => Memory.entry_setMask hm j k _, fun a ha => ?_⟩
  rw [orMask_shadow, Memory.setMask, Memory.readByte_write32 hm, if_neg (by unfold maskAddr; omega)]

/-- Settles O20: an equal time takes the bit by `orMask`; a new one goes in at `firstAbove`, if there is
room. -/
theorem mergeInsertPlacesTheTime : Obligations.MergeInsertPlacesTheTime := by
  intro s t b _ hm _ hinc _
  refine ⟨fun j hj ht => ?_, fun hne hfull => ?_, fun hne hroom => ?_⟩
  · obtain ⟨hentry, hbytes⟩ := orMask_places hm j b
    rw [mergeInsert_of_timeAt_eq hinc hj ht b]
    exact ⟨rfl, by rw [hentry, if_pos rfl, ht], fun k hk => by rw [hentry, if_neg hk], hbytes⟩
  · rw [mergeInsert_of_new hinc hne b, insertEntry_full hfull.ge]
  · obtain ⟨hbelow, habove⟩ := firstAbove_splits hinc hne
    obtain ⟨heq, hentry, hbytes⟩ := insertEntry_room hm hroom (firstAbove_le s t) t b
    rw [mergeInsert_of_new hinc hne b]
    refine ⟨_, firstAbove_le s t, hbelow, habove, heq, ?_, fun k hk => ?_, fun k hk hlt => ?_, hbytes⟩
    · rw [hentry, if_neg (Nat.lt_irrefl _), if_pos rfl]
    · rw [hentry, if_pos hk]
    · rw [hentry, if_neg (by omega), if_neg (by omega), if_pos (by omega), Nat.add_sub_cancel]

/-! ## What the merges of a list leave -/

/-- A property of entries that splits over the OR of masks: one of the time alone, or of one mask bit. -/
def SplitsOverOr (P : EventEntry → Prop) : Prop := ∀ t m b, P ⟨t, m ||| b⟩ ↔ P ⟨t, m⟩ ∨ P ⟨t, b⟩

/-- Some entry of the shadow table has the property. -/
def SomeEntry (P : EventEntry → Prop) (s : State) : Prop := ∃ k, k < s.shadowCount ∧ P (s.shadow.entry k)

theorem someEntry_insertEntry {s : State} (hm : s.shadow.wf = true)
    (hr : s.shadowCount < s.cfg.maxStates) {pos : Nat} (hp : pos ≤ s.shadowCount) (t b : Word)
    (P : EventEntry → Prop) : SomeEntry P (insertEntry pos t b s) ↔ SomeEntry P s ∨ P ⟨t, b⟩ := by
  obtain ⟨heq, hentry, -⟩ := insertEntry_room hm hr hp t b
  have hcount : (insertEntry pos t b s).shadowCount = s.shadowCount + 1 := by rw [heq]
  simp only [SomeEntry, hcount, hentry]
  constructor
  · rintro ⟨k, hk, hP⟩
    split_ifs at hP with hlow hat hhigh
    · exact .inl ⟨k, by omega, hP⟩
    · exact .inr hP
    · exact .inl ⟨k - 1, by omega, hP⟩
    · omega
  · rintro (⟨k, hk, hP⟩ | hP)
    · rcases Nat.lt_or_ge k pos with hlow | hhigh
      · exact ⟨k, by omega, by rwa [if_pos hlow]⟩
      · refine ⟨k + 1, by omega, ?_⟩
        rwa [if_neg (by omega), if_neg (by omega), if_pos (by omega), Nat.add_sub_cancel]
    · exact ⟨pos, by omega, by rwa [if_neg (Nat.lt_irrefl _), if_pos rfl]⟩

theorem someEntry_orMask {s : State} (hm : s.shadow.wf = true) {j : Nat} (hj : j < s.shadowCount)
    (b : Word) {P : EventEntry → Prop} (hP : SplitsOverOr P) :
    SomeEntry P (orMask j b s) ↔ SomeEntry P s ∨ P ⟨s.shadow.timeAt j, b⟩ := by
  obtain ⟨hentry, -⟩ := orMask_places hm j b
  have hold : P (s.shadow.entry j) ↔ P ⟨s.shadow.timeAt j, s.shadow.maskAt j⟩ := Iff.rfl
  simp only [SomeEntry, orMask_shadowCount, hentry]
  constructor
  · rintro ⟨k, hk, hPk⟩
    split_ifs at hPk with hkj
    · exact ((hP _ _ _).1 hPk).imp_left fun h => ⟨j, hj, hold.2 h⟩
    · exact .inl ⟨k, hk, hPk⟩
  · rintro (⟨k, hk, hPk⟩ | hb)
    · refine ⟨k, hk, ?_⟩
      split_ifs with hkj
      · subst hkj
        exact (hP _ _ _).2 (.inl (hold.1 hPk))
      · exact hPk
    · exact ⟨j, hj, by rw [if_pos rfl]; exact (hP _ _ _).2 (.inr hb)⟩

/-- A merge with room adds the merged time and bit to the table, and nothing else (R113, R118). -/
theorem Staged.someEntry_mergeInsert {s : State} (h : Staged s) (hr : s.shadowCount < s.cfg.maxStates)
    (t b : Word) {P : EventEntry → Prop} (hP : SplitsOverOr P) :
    SomeEntry P (Machine.mergeInsert t b s) ↔ SomeEntry P s ∨ P ⟨t, b⟩ := by
  by_cases hmem : ∃ j, j < s.shadowCount ∧ s.shadow.timeAt j = t
  · obtain ⟨j, hj, rfl⟩ := hmem
    rw [mergeInsert_of_timeAt_eq h.increase hj rfl]
    exact someEntry_orMask h.canonical hj b hP
  · have hne : ∀ j, j < s.shadowCount → s.shadow.timeAt j ≠ t := fun j hj he => hmem ⟨j, hj, he⟩
    rw [mergeInsert_of_new h.increase hne]
    exact someEntry_insertEntry h.canonical hr (firstAbove_le s t) t b P

/-- A merge adds at most one entry (R113). -/
theorem shadowCount_mergeInsert_le (t b : Word) (s : State) :
    (mergeInsert t b s).shadowCount ≤ s.shadowCount + 1 := by
  have hins : ∀ pos, (insertEntry pos t b s).shadowCount ≤ s.shadowCount + 1 := by
    intro pos
    unfold insertEntry
    split
    · exact Nat.le_succ _
    · exact le_rfl
  rcases mergeInsert_cases t b s with ⟨-, h⟩ | ⟨-, h⟩ | ⟨j, -, -, h⟩ | ⟨-, -, -, h⟩ <;> rw [h]
  · exact hins _
  · exact hins _
  · exact Nat.le_succ _
  · exact hins _

@[simp] theorem mergeInsert_cfg (t b : Word) (s : State) : (mergeInsert t b s).cfg = s.cfg := by
  rw [mergeInsert_eq]

/-- The merges of a list, with room for each, add its times and bits to the table, and nothing else
(R118). -/
theorem Staged.someEntry_mergeAll {s : State} (h : Staged s) {tbs : List (Word × Word)}
    (hz : ∀ tb ∈ tbs, tb.1 ≠ 0) (hr : s.shadowCount + tbs.length ≤ s.cfg.maxStates)
    {P : EventEntry → Prop} (hP : SplitsOverOr P) :
    SomeEntry P (Machine.mergeAll tbs s) ↔ SomeEntry P s ∨ ∃ tb ∈ tbs, P ⟨tb.1, tb.2⟩ := by
  induction tbs generalizing s with
  | nil => simp [Machine.mergeAll]
  | cons tb tbs ih =>
    obtain ⟨htb, htbs⟩ := List.forall_mem_cons.1 hz
    rw [List.length_cons] at hr
    have hcount := shadowCount_mergeInsert_le tb.1 tb.2 s
    have hroom : (Machine.mergeInsert tb.1 tb.2 s).shadowCount + tbs.length ≤
        (Machine.mergeInsert tb.1 tb.2 s).cfg.maxStates := by
      rw [mergeInsert_cfg]
      omega
    have hrest := ih (h.mergeInsert htb tb.2) htbs hroom
    rw [h.someEntry_mergeInsert (by omega) tb.1 tb.2 hP] at hrest
    rw [List.exists_mem_cons_iff, ← or_assoc]
    exact hrest

/-- The entry is at `t` and its mask has bit `p`. -/
def TogglesAt (t : Word) (p : Nat) (e : EventEntry) : Prop := e.time = t ∧ e.mask.getLsbD p = true

theorem splitsOverOr_togglesAt (t : Word) (p : Nat) : SplitsOverOr (TogglesAt t p) := by
  intro u m b
  simp only [TogglesAt, BitVec.getLsbD_or, Bool.or_eq_true, and_or_left]

theorem splitsOverOr_time (t : Word) : SplitsOverOr fun e => e.time = t :=
  fun _ _ _ => (or_self_iff).symm

theorem getLsbD_maskForTime (s : State) (t : Word) (p : Nat) :
    (maskForTime s.shadow s.shadowCount t).getLsbD p = true ↔ SomeEntry (TogglesAt t p) s := by
  simp [maskForTime, getLsbD_foldl_or, SomeEntry, TogglesAt, Memory.entry]

theorem getLsbD_bitsForTime (tbs : List (Word × Word)) (t : Word) (p : Nat) :
    (bitsForTime tbs t).getLsbD p = true ↔ ∃ tb ∈ tbs, TogglesAt t p ⟨tb.1, tb.2⟩ := by
  simp [bitsForTime, getLsbD_foldl_or, TogglesAt]

/-- Settles O21: order and tail by `Staged.mergeAll`; the masks, bit by bit, and the times are properties
that split over the OR. -/
theorem mergedMasksAreTheOrOfTheToggles : Obligations.MergedMasksAreTheOrOfTheToggles := by
  intro s tbs hm hinc hnz htail hz hroom
  have hs : Staged s := ⟨hm, by omega, htail, hinc, hnz⟩
  have hdone := hs.mergeAll hz
  refine ⟨hdone.increase, hdone.nonzero, hdone.tail, fun t => ?_, fun t => ?_⟩
  · apply BitVec.eq_of_getLsbD_eq
    intro p _
    rw [Bool.eq_iff_iff, BitVec.getLsbD_or, Bool.or_eq_true, getLsbD_maskForTime, getLsbD_maskForTime,
      getLsbD_bitsForTime]
    exact hs.someEntry_mergeAll hz hroom (splitsOverOr_togglesAt t p)
  · exact hs.someEntry_mergeAll hz hroom (splitsOverOr_time t)

/-! ## SETCH -/

/-- The merges of a list keep every byte past the table space (R60). -/
theorem mergeAll_frame {s : State} (hm : s.shadow.wf = true) (hc : s.shadowCount ≤ s.cfg.maxStates)
    (tbs : List (Word × Word)) {a : Nat} (ha : 8 * s.cfg.maxStates ≤ a) :
    (mergeAll tbs s).shadow.readByte a = s.shadow.readByte a := by
  induction tbs generalizing s with
  | nil => rfl
  | cons tb tbs ih =>
    obtain ⟨hcount, hbytes⟩ := mergeInsert_frame hm hc tb.1 tb.2
    rw [← hbytes a ha]
    exact ih (wf_mergeInsert hm _ _) (by rwa [mergeInsert_cfg]) (by rwa [mergeInsert_cfg])

/-- The table the first merge of a SETCH finds: empty in a fresh sequence, else as it was (R111). -/
theorem freshSequenceCheck_table {s : State} (hm : s.shadow.wf = true) :
    (if s.freshSequence then
      (freshSequenceCheck s).shadowCount = 0 ∧
        ∀ k, k < s.cfg.maxStates → (freshSequenceCheck s).shadow.entry k = ⟨0, 0⟩
      else (freshSequenceCheck s).shadowCount = s.shadowCount ∧
        (freshSequenceCheck s).shadow = s.shadow) ∧
    (freshSequenceCheck s).cfg = s.cfg ∧
    ∀ a, 8 * s.cfg.maxStates ≤ a →
      (freshSequenceCheck s).shadow.readByte a = s.shadow.readByte a := by
  rcases freshSequenceCheck_cases s with ⟨hf, h⟩ | ⟨hf, h⟩ <;> rw [h, hf]
  · refine ⟨⟨rfl, fun k hk => ?_⟩, rfl, fun a ha => ?_⟩
    · rw [Memory.entry_clearTable _ hm, if_pos hk]
    · rw [Memory.readByte_clearTable _ hm, if_neg (by unfold spaceBytes; omega)]
  · exact ⟨⟨rfl, rfl⟩, rfl, fun _ _ => rfl⟩

theorem exec_of_next {i : Instr} {s t : State} (hv : s.cfg.valid = true)
    (h : commandResult i s = .next t) : exec i s = .next t := by
  rw [exec_eq_runCommand, runCommand_valid hv, h, settle]

/-- The reply of a SETCH whose list the encoding can hold (R86, R110). -/
theorem setch_replyLine (c : Config) (ch : BitVec 8) {times : List Word} (h : times.length ≤ 255) :
    replyLine 0x04 ch.toNat (usedTimes c times) =
      (0x04#8 ++ ch ++ BitVec.ofNat 16 (min times.length c.maxToggles)) :: times.take c.maxToggles := by
  have hlen : (usedTimes c times).length = min times.length c.maxToggles := by
    rw [usedTimes, List.length_take, Nat.min_comm]
  rw [replyLine, hlen, replyHeader_fits _ _ (by omega), BitVec.ofNat_toNat, BitVec.setWidth_eq, usedTimes]
  rfl

theorem setchResult_of_inRange {s : State} {ch : BitVec 8} {times : List Word}
    (hch : ch.toNat < s.cfg.channelCount) (hz : (0 : Word) ∉ times.take s.cfg.maxToggles)
    (hc : (freshSequenceCheck s).shadowCount ≤ s.cfg.maxStates) :
    setchResult ch times s =
      .next (advance (1 + times.length)
        (reply (replyLine 0x04 ch.toNat (usedTimes s.cfg times)) (setchStaged ch times s))) := by
  have hrange := channelInRange_iff.2 hch
  have hzero := hasZeroTime_eq_false.2 hz
  rcases setchResult_cases ch times s with ⟨hr, -⟩ | ⟨-, h0, -⟩ | ⟨-, -, hout, -⟩ | ⟨-, -, -, h⟩
  · simp [hrange] at hr
  · simp [hzero] at h0
  · omega
  · exact h

/-- Settles O18: the merges start from the table the fresh-sequence check leaves. -/
theorem setchMergesIntoTheShadow : Obligations.SetchMergesIntoTheShadow := by
  intro s ch times hv hmem hch hwf hz hcount
  obtain ⟨hm, -⟩ := memoriesCanonical_iff.1 hmem
  obtain ⟨htable, hcfg, hbytes⟩ := freshSequenceCheck_table hm
  have hwf' := wf_freshSequenceCheck hm
  have hc : (freshSequenceCheck s).shadowCount ≤ s.cfg.maxStates := by
    split_ifs at htable <;> omega
  have hline := setch_replyLine s.cfg ch (of_decide_eq_true hwf : times.length ≤ 255)
  refine ⟨_, markPending (freshSequenceCheck s), exec_of_next hv (setchResult_of_inRange hch hz hc),
    ?_, htable, hcfg, hwf', rfl, rfl, fun a ha => ?_⟩
  · rw [hline, setchStaged_eq]
    simp [advance, reply, Nat.add_assoc]
  · rw [← hbytes a ha]
    exact mergeAll_frame (s := markPending (freshSequenceCheck s)) hwf' (hcfg ▸ hc) _
      (by rwa [markPending_cfg, hcfg])

/-- Settles O16: both commands check the channel first. -/
theorem outOfRangeChannelIsNoOp : Obligations.OutOfRangeChannelIsNoOp := by
  intro s ch hv hout
  have hrange : channelInRange s.cfg ch = false := decide_eq_false (Nat.not_lt.2 hout)
  refine ⟨fun times => exec_of_next hv ?_, exec_of_next hv ?_⟩
  · simp [commandResult, setchResult, hrange, advance, Nat.add_assoc]
  · simp [commandResult, getchResult, hrange, advance]

/-- Settles O17: the zero check stands before every write of a SETCH. -/
theorem zeroTimeFaults : Obligations.ZeroTimeFaults := by
  intro s ch times hv hch hz
  have hrange := channelInRange_iff.2 hch
  have hzero : hasZeroTime s.cfg times = true := by
    by_contra hno
    exact hasZeroTime_eq_false.1 (Bool.eq_false_iff.2 hno) hz
  have hraise : commandResult (.setch ch times) s = .raise .zeroTime := by
    simp [commandResult, setchResult, hrange, hzero]
  rw [exec_eq_runCommand, runCommand_valid hv, hraise]
  rfl

theorem getLsbD_bit_of_lt {p q : Nat} (hq : q < 32) :
    (Sys2Proof.bit p).getLsbD q = decide (q = p) := by
  rw [getLsbD_bit, decide_eq_true hq, Bool.true_and]
  exact decide_eq_decide.2 eq_comm

/-- Settles O19: set and reset bits are powers of two at the pin and 16 above it. -/
theorem toggleBitAlternates : Obligations.ToggleBitAlternates := by
  intro c ch i _ _ p hp
  have hparity : ((i % 2 == 0) != c.inv ch) = xor (decide (i % 2 = 0)) (c.inv ch) := rfl
  rw [toggleBit, hparity]
  split_ifs
  · exact getLsbD_bit_of_lt hp
  · exact getLsbD_bit_of_lt hp

/-! ## SETPER -/

theorem decode_setper {h : Word} (p : Word) (ws : List Word) (hop : opcodeOf h = 0x03#8) :
    decode (h :: p :: ws) = .ok (.setper p, ws) := by
  have hlen : commandLength h = 1 + [p].length := by rw [commandLength, if_pos hop]; rfl
  exact decode_of_selects hlen (.setper hop rfl)

theorem periodLine_setper (s : State) : periodLine 0x03 s = [0x03000001#32, s.periodUs] := by
  rw [periodLine, replyLine, List.length_singleton, replyHeader_fits _ _ (by decide)]
  rfl

@[simp] theorem stagePeriod_zero (s : State) : stagePeriod 0 s = s := if_pos rfl

theorem stagePeriod_of_ne {p : Word} (hp : p ≠ 0) (s : State) :
    stagePeriod p s = markPending { s with periodUs := p } := if_neg hp

/-- Settles O15: the opcode selects SETPER, and a non-zero period is staged before the reply. -/
theorem setperStagesThePeriod : Obligations.SetperStagesThePeriod := by
  refine ⟨fun h p ws hop => decode_setper p ws hop, fun s p hv => exec_of_next hv ?_⟩
  rw [commandResult, periodLine_setper]
  rcases eq_or_ne p 0 with rfl | hp
  · rw [stagePeriod_zero]
    rfl
  · rw [stagePeriod_of_ne hp, if_neg hp, if_neg hp]
    rfl

end Sys2Proof.Machine
end

section
/-! PROOF. START from IDLE with its commit: what a commit that passes its checks leaves, that committing it
again changes nothing, and the faults of the checks in their order (41_commit.md R140 to R148). -/

namespace Sys2Proof.Machine

/-! ## The bytes of an entry -/

/-- Byte `j` of a word read is the byte at `a + j` (R62). -/
theorem Memory.extractLsb'_read32 (m : Memory) (a : Nat) {j : Nat} (hj : j < 4) :
    (m.read32 a).extractLsb' (8 * j) 8 = m.readByte (a + j) := by
  unfold Memory.read32
  apply BitVec.eq_of_getLsbD_eq
  intro i hi
  simp only [BitVec.getLsbD_extractLsb', BitVec.getLsbD_append, hi, decide_true, Bool.true_and]
  interval_cases j
  · simp [hi]
  · simp [hi]
  · simp [hi, show ¬16 + i < 8 by omega, show 16 + i - 8 = 8 + i by omega]
  · simp [hi, show ¬24 + i < 8 by omega, show 24 + i - 8 = 16 + i by omega,
      show ¬16 + i < 8 by omega, show 16 + i - 8 = 8 + i by omega]

/-- Tables that agree in an entry agree in its eight bytes (R61). -/
theorem Memory.readByte_eq_of_entry {m m' : Memory} {x : Nat}
    (h : m.entry (x / 8) = m'.entry (x / 8)) : m.readByte x = m'.readByte x := by
  obtain ⟨htime, hmask⟩ := EventEntry.mk.inj h
  rcases Nat.lt_or_ge (x % 8) 4 with hlow | hhigh
  · have hx : x = timeAddr (x / 8) + x % 8 := by unfold timeAddr; omega
    rw [hx, ← extractLsb'_read32 m _ hlow, ← extractLsb'_read32 m' _ hlow]
    exact congrArg (BitVec.extractLsb' (8 * (x % 8)) 8) htime
  · have hx : x = maskAddr (x / 8) + (x % 8 - 4) := by unfold maskAddr; omega
    have hj : x % 8 - 4 < 4 := by omega
    rw [hx, ← extractLsb'_read32 m _ hj, ← extractLsb'_read32 m' _ hj]
    exact congrArg (BitVec.extractLsb' (8 * (x % 8 - 4)) 8) hmask

/-- Copying a table onto one with its entries changes nothing (R148). -/
theorem Memory.copyTable_eq_self (c : Config) {src dst : Memory} (hs : src.wf = true)
    (hd : dst.wf = true) (h : ∀ k, k < c.maxStates → dst.entry k = src.entry k) :
    src.copyTable c dst = dst := by
  refine eq_of_readByte (wf_copyTable c hs hd) hd fun x => ?_
  rw [readByte_copyTable c hs hd]
  split_ifs with hx
  · exact (readByte_eq_of_entry (h _ (by unfold spaceBytes at hx; omega))).symm
  · rfl

/-! ## The parts of a START from IDLE -/

/-- A START from IDLE after its commit: the arm, and the completion (R161). -/
def armAndComplete (s : State) : Result :=
  (arm s).andThen fun s1 => .next (startDone { s1 with engState := .running })

theorem startResult_of_pending {s : State} (hidle : s.engState = .idle)
    (hpending : s.commitPending = true) : startResult s = (commit s).andThen armAndComplete := by
  rw [startResult, hidle, hpending]
  rfl

theorem startResult_of_not_pending {s : State} (hidle : s.engState = .idle)
    (hpending : s.commitPending = false) : startResult s = armAndComplete s := by
  rw [startResult, hidle, hpending]
  rfl

theorem armAndComplete_of_zero_period {s : State} (h : s.timPeriod = 0) :
    armAndComplete s = .raise .zeroPeriod := by
  rw [armAndComplete, arm, if_pos h, Result.andThen]

theorem commit_of_timeOverflows {s : State} (hdma : s.dmaEn = false)
    (hcount : s.shadowCount ≤ s.cfg.maxStates) (htime : timeOverflows s = true) :
    commit s = .raise .timeOverflow := by
  simp [commit, countOutside, hdma, Nat.not_lt.2 hcount, htime]

theorem commit_of_periodOverflows {s : State} (hdma : s.dmaEn = false)
    (hcount : s.shadowCount ≤ s.cfg.maxStates) (htime : timeOverflows s = false)
    (hperiod : periodOverflows s = true) : commit s = .raise .periodOverflow := by
  simp [commit, countOutside, hdma, Nat.not_lt.2 hcount, htime, hperiod]

/-- A command that raises a fault sets its bit and changes nothing else (R242). -/
theorem exec_of_raise {i : Instr} {s : State} {k : FaultKind} (hv : s.cfg.valid = true)
    (h : commandResult i s = .raise k) : exec i s = .next { s with fault := s.fault ||| k.bit } := by
  rw [exec_eq_runCommand, runCommand_valid hv, h, settle, raiseFault]

/-- Settles O27: the commit checks the times before the period, and the arm comes after both. -/
theorem startFaultsInOrder : Obligations.StartFaultsInOrder := by
  intro s hv hidle hdma hcount
  refine ⟨fun hpending hc hover => exec_of_raise (k := .timeOverflow) hv ?_,
    fun hpending hfit hover => exec_of_raise (k := .periodOverflow) hv ?_,
    fun hpending hfit hzero => exec_of_raise (k := .zeroPeriod) hv ?_,
    fun hpending hzero => exec_of_raise (k := .zeroPeriod) hv ?_⟩
  · have htime := (timeOverflows_eq_true hc).2 hover
    rw [commandResult, startResult_of_pending hidle hpending,
      commit_of_timeOverflows hdma hcount htime, Result.andThen]
  · have htime := timeOverflows_eq_false.2 hfit
    have hperiod : periodOverflows s = true := decide_eq_true hover
    rw [commandResult, startResult_of_pending hidle hpending,
      commit_of_periodOverflows hdma hcount htime hperiod, Result.andThen]
  · have hticks : periodTicks s = 0 := by simp [periodTicks, hzero]
    have hperiod : periodOverflows s = false := by simp [periodOverflows, hticks]
    have hcommit : commit s = .next (committed s) :=
      commit_eq_next.2 ⟨hdma, hcount, timeOverflows_eq_false.2 hfit, hperiod, rfl⟩
    rw [commandResult, startResult_of_pending hidle hpending, hcommit, Result.andThen_of_next]
    exact armAndComplete_of_zero_period hticks
  · rw [commandResult, startResult_of_not_pending hidle hpending,
      armAndComplete_of_zero_period hzero]

/-! ## A committing START -/

/-- What a START that commits leaves (R161, R162). -/
def startedAfterCommit (s : State) : State :=
  startDone { armed (committed s) with engState := .running }

theorem startResult_eq_next_of_pending {s t : State} (hidle : s.engState = .idle)
    (hpending : s.commitPending = true) :
    startResult s = .next t ↔
      commit s = .next (committed s) ∧ arm (committed s) = .next (armed (committed s)) ∧
        t = startedAfterCommit s := by
  simp only [startResult_eq_next, hidle, hpending, reduceCtorEq, false_and, false_or, true_and, if_true]
  constructor
  · rintro ⟨s1, hc, ha, ht⟩
    obtain ⟨-, -, -, -, rfl⟩ := commit_eq_next.1 hc
    exact ⟨hc, ha, ht⟩
  · exact fun ⟨hc, ha, ht⟩ => ⟨_, hc, ha, ht⟩

/-- A START from IDLE that leaves the engine running neither held nor raised a fault. -/
theorem startResult_of_running {s t : State} (hidle : s.engState = .idle)
    (h : exec .start s = .next t) (hrun : t.engState = .running) : startResult s = .next t := by
  rcases (runCommand_eq_next.1 h).2 with hn | ⟨-, rfl⟩ | ⟨k, -, rfl⟩
  · exact hn
  · simp [hidle] at hrun
  · simp [hidle] at hrun

/-- With a commit pending, such a START committed, its count within the table space (R140). -/
theorem eq_startedAfterCommit {s t : State} (hidle : s.engState = .idle)
    (hpending : s.commitPending = true) (h : exec .start s = .next t) (hrun : t.engState = .running) :
    t = startedAfterCommit s ∧ s.shadowCount ≤ s.cfg.maxStates := by
  obtain ⟨hc, -, ht⟩ :=
    (startResult_eq_next_of_pending hidle hpending).1 (startResult_of_running hidle h hrun)
  obtain ⟨-, hcount, -⟩ := commit_eq_next.1 hc
  exact ⟨ht, hcount⟩

/-- The reply of START (R96, R161). -/
theorem start_replyLine : replyLine 0x01 0 [] = [0x01000000#32] := by
  rw [replyLine, List.length_nil, replyHeader_fits _ _ (by decide)]
  rfl

/-- The compare value the arm sets, with the empty table first (R162). -/
theorem armed_timCcr_of_dmaLen (s : State) :
    (armed s).timCcr =
      if s.dmaLen = 0 then s.timCcr else (s.live.timeAt (s.dmaLen - 1)).toNat := by
  simp only [armed_timCcr, Nat.pos_iff_ne_zero, ite_not]

/-- The arm after a commit passes its checks when the period is not 0 and the committed events are far
enough apart (R162, R163, R189). -/
theorem arm_committed {s : State} (hv : s.cfg.valid = true) (hm : memoriesCanonical s = true)
    (hcount : s.shadowCount ≤ s.cfg.maxStates) (hperiod : s.periodUs ≠ 0)
    (hapart : ¬ EventsTooClose s.cfg.dmaLatencyTicks s.shadowCount (cycleLength (committed s))
      (committedTime s)) :
    arm (committed s) = .next (armed (committed s)) := by
  obtain ⟨-, -, -, -, hmult, -, -⟩ := config_valid_iff.1 hv
  have hus : s.periodUs.toNat ≠ 0 := fun h => hperiod (BitVec.eq_of_toNat_eq h)
  have hticks : (committed s).timPeriod ≠ 0 := Nat.mul_ne_zero hus (by omega)
  have hspacing : 0 < s.cfg.dmaLatencyTicks → spacingViolation (committed s) = false := fun hd =>
    Bool.eq_false_iff.2 fun hviol =>
      hapart ((spacingViolation_committed_iff hm hcount).1 ⟨hd, hviol⟩)
  exact arm_eq_next.2 ⟨hticks, hcount, hspacing, rfl⟩

/-- The shadow entries past the count are not corrected (R143). -/
theorem entry_correctedShadow_of_le {s : State} (hm : s.shadow.wf = true) {k : Nat}
    (hk : s.shadowCount ≤ k) : (correctedShadow s).entry k = s.shadow.entry k := by
  obtain ⟨-, hmask, htime, -, -⟩ := correctedShadow_spec hm
  rw [Memory.entry, Memory.entry, htime k hk, hmask]

/-- Settles O24: the commit and the arm pass their checks; the tables are the corrected shadow's copies. -/
theorem startCommitsAndArms : Obligations.StartCommitsAndArms := by
  intro s hv hm hidle hpending hdma hcount hfit hperiodFit hperiod hapart
  obtain ⟨hshadow, hlive⟩ := memoriesCanonical_iff.1 hm
  obtain ⟨hcorr, -, -, hkept, -⟩ := correctedShadow_spec hshadow
  have hcommit : commit s = .next (committed s) := commit_eq_next.2
    ⟨hdma, hcount, timeOverflows_eq_false.2 hfit, periodOverflows_eq_false.2 hperiodFit, rfl⟩
  have harm := arm_committed hv hm hcount hperiod hapart
  have hstart := (startResult_eq_next_of_pending hidle hpending).2 ⟨hcommit, harm, rfl⟩
  refine ⟨startedAfterCommit s, exec_of_next hv hstart, ?_, fun k hk => entry_live_committed hm hk,
    fun a ha => ?_, hkept, fun k hk => entry_correctedShadow_of_le hshadow hk⟩
  · rw [← start_replyLine]
    exact congrArg (fun ccr => { startedAfterCommit s with timCcr := ccr })
      (armed_timCcr_of_dmaLen (committed s))
  · change ((correctedShadow s).copyTable s.cfg s.live).readByte a = _
    rw [Memory.readByte_copyTable _ hcorr hlive, spaceBytes, if_neg (Nat.not_lt.2 ha)]

/-- Settles O25: the live table is the corrected shadow's copy, and every scaled time is stored exactly. -/
theorem timeCorrectionRotatesAndScales : Obligations.TimeCorrectionRotatesAndScales := by
  intro s t hm hidle hpending hc hfit h hrun k hk
  obtain ⟨rfl, hcount⟩ := eq_startedAfterCommit hidle hpending h hrun
  obtain ⟨hshadow, -⟩ := memoriesCanonical_iff.1 hm
  obtain ⟨-, hmask, -, -, hscaled⟩ := correctedShadow_spec hshadow
  obtain ⟨htimeLive, hmaskLive⟩ := EventEntry.mk.inj (entry_live_committed hm (hk.trans_le hcount))
  have hword := hfit _ (Nat.mod_lt (k + 1) (Nat.zero_lt_of_lt hk))
  refine ⟨hmaskLive.trans (hmask k), ?_⟩
  calc ((committed s).live.timeAt k).toNat
      = (storedTime (scaledTime s.cfg (s.shadow.timeAt ((k + 1) % s.shadowCount)))).toNat := by
        rw [htimeLive, hscaled hc k hk]
    _ = (s.shadow.timeAt ((k + 1) % s.shadowCount)).toNat * s.cfg.tickMult := by
        rw [storedTime, scaledTime, if_pos hword, BitVec.toNat_ofNat, Nat.mod_eq_of_lt hword]

/-- A commit over what an earlier commit left writes the tables, the period and the length as they
stand (R148). -/
theorem committed_of_committed {s : State} (hm : memoriesCanonical s = true)
    (hc : s.needsCorrection = false) (hperiod : s.timPeriod = s.periodUs.toNat * s.cfg.tickMult)
    (hlen : s.dmaLen = s.shadowCount)
    (hcopy : ∀ k, k < s.cfg.maxStates → s.live.entry k = s.shadow.entry k) :
    (committed s).shadow = s.shadow ∧ SamePlayed s (committed s) := by
  obtain ⟨hshadow, hlive⟩ := memoriesCanonical_iff.1 hm
  obtain ⟨-, -, -, hkept, -⟩ := correctedShadow_spec hshadow
  refine ⟨hkept hc, ?_, hperiod.symm, hlen.symm⟩
  rw [committed_live, hkept hc, Memory.copyTable_eq_self _ hshadow hlive hcopy]

/-- Settles O26: a START holds, faults, or arms what it finds, committed once more if a commit is pending. -/
theorem commitIsIdempotent : Obligations.CommitIsIdempotent := by
  constructor
  · intro s t hm hidle hpending h hrun
    obtain ⟨rfl, -⟩ := eq_startedAfterCommit hidle hpending h hrun
    exact ⟨rfl, rfl, rfl, fun k hk => entry_live_committed hm hk⟩
  · intro s t hm hidle hc hperiod hlen hcopy h
    rcases (runCommand_eq_next.1 h).2 with hn | ⟨-, rfl⟩ | ⟨k, -, rfl⟩
    · rcases startResult_eq_next.1 hn with ⟨hr, -⟩ | ⟨-, s1, hs1, -, rfl⟩
      · simp [hidle] at hr
      · split_ifs at hs1
        · obtain ⟨-, -, -, -, rfl⟩ := commit_eq_next.1 hs1
          obtain ⟨hshadow, hsame⟩ := committed_of_committed hm hc hperiod hlen hcopy
          exact ⟨hsame.live, hshadow, hsame.timPeriod, hsame.dmaLen⟩
        · cases hs1
          exact ⟨rfl, rfl, rfl, rfl⟩
    · exact ⟨rfl, rfl, rfl, rfl⟩
    · exact ⟨rfl, rfl, rfl, rfl⟩

end Sys2Proof.Machine
end

section
/-! PROOF. START outside a commit, STOP, and the stop that follows it: how long it takes, and that the waveform
is not changed before its halting wrap (42_engine_commands.md R161 to R167, 43_playback.md R185). -/

namespace Sys2Proof.Machine

/-! ## START -/

/-- START's completion, written out (R161). -/
theorem startDone_eq (s : State) :
    startDone s = { s with
      freshSequence := true, respOut := s.respOut ++ [0x01000000#32], cmdPc := s.cmdPc + 1 } := by
  rw [← start_replyLine]
  rfl

/-- A command that holds leaves the state as it is (R11). -/
theorem exec_of_hold {i : Instr} {s : State} (hv : s.cfg.valid = true)
    (h : commandResult i s = .hold) : exec i s = .next s := by
  rw [exec_eq_runCommand, runCommand_valid hv, h, settle]

theorem startResult_of_stop {s : State}
    (h : s.engState = .stopRequested ∨ s.engState = .stopping) : startResult s = .hold := by
  rcases h with h | h <;> rw [startResult, h]

/-- Settles O22: outside IDLE a START is either complete at once or held. -/
theorem startWhilePlaying : Obligations.StartWhilePlaying := by
  intro s hv
  refine ⟨fun hrun => exec_of_next hv ?_, fun hstop => exec_of_hold hv (startResult_of_stop hstop)⟩
  rw [commandResult, startResult_eq_next]
  exact .inl ⟨hrun, (startDone_eq s).symm⟩

/-- An arm passes its checks when the period is not 0, the live entries are within their space and no two
events are too close (R162, R163, R189). -/
theorem arm_of_apart {s : State} (hperiod : s.timPeriod ≠ 0) (hlen : s.dmaLen ≤ s.cfg.maxStates)
    (hapart : ¬ EventsTooClose s.cfg.dmaLatencyTicks s.dmaLen (cycleLength s)
      (cyclicTime s.live s.dmaLen)) : arm s = .next (armed s) := by
  have hspacing : 0 < s.cfg.dmaLatencyTicks → spacingViolation s = false := fun hd =>
    Bool.eq_false_iff.2 fun hviol => hapart (spacingViolation_iff.1 ⟨hd, hviol⟩)
  exact arm_eq_next.2 ⟨hperiod, hlen, hspacing, rfl⟩

/-- Settles O23: with nothing to commit a START arms what the live table holds. -/
theorem startArmsFromIdle : Obligations.StartArmsFromIdle := by
  intro s hv hidle hpending hperiod hlen hapart
  refine exec_of_next hv ?_
  rw [commandResult, startResult_of_not_pending hidle hpending, armAndComplete,
    arm_of_apart hperiod hlen hapart, Result.andThen_of_next, startDone_eq, ← armed_timCcr_of_dmaLen]
  rfl

/-! ## STOP -/

/-- The state a STOP leaves (R165). -/
def afterStop (s : State) : State :=
  { s with
    engState := if s.engState = .running then .stopRequested else s.engState
    freshSequence := true
    respOut := s.respOut ++ [0x02000000#32]
    cmdPc := s.cmdPc + 1 }

/-- The reply of STOP (R96, R165). -/
theorem stop_replyLine : replyLine 0x02 0 [] = [0x02000000#32] := by
  rw [replyLine, List.length_nil, replyHeader_fits _ _ (by decide)]
  rfl

theorem afterStop_eq (s : State) :
    afterStop s = advance 1 (reply (replyLine 0x02 0 []) (markFresh (stopRequest s))) := by
  rw [stop_replyLine, stopRequest_eq]
  rfl

/-- STOP always completes (R165). -/
theorem exec_stop {s : State} (hv : s.cfg.valid = true) : exec .stop s = .next (afterStop s) :=
  exec_of_next hv (congrArg Result.next (afterStop_eq s).symm)

/-- STOP is one word long, so the words after its header stay (R92). -/
theorem decode_stop {h : Word} (ws : List Word) (hop : opcodeOf h = 0x02#8) :
    decode (h :: ws) = .ok (.stop, ws) :=
  decode_of_selects (ops := []) (by simp [commandLength, hop]) (.stop hop)

/-- Settles O29: the opcode selects STOP, whose parts write the engine state, the flag and the reply. -/
theorem stopRequestsAGracefulStop : Obligations.StopRequestsAGracefulStop :=
  ⟨fun _ ws hop => decode_stop ws hop, fun _ hv => exec_stop hv⟩

theorem blockInv_afterStop {s : State} (hb : BlockInv s) : BlockInv (afterStop s) := by
  have hstop : BlockInv (markFresh (stopRequest s)) :=
    CommandEffect.stop.blockInv (fun _ _ h => Instr.noConfusion h) hb
  rw [afterStop_eq]
  exact (sameEngine_done _ _ _).blockInv hstop

/-- After a STOP in RUNNING a stop is in progress, with the rest of this cycle and the next to go (R166). -/
theorem stopPending_afterStop {s : State} (hb : BlockInv s) (hrun : s.engState = .running) :
    StopPending (afterStop s) ∧ ticksToIdle (afterStop s) = cycleLength s + (cycleLength s - s.timCnt) := by
  have hreq : (afterStop s).engState = .stopRequested := if_pos hrun
  exact ⟨stopPending_of_blockInv (blockInv_afterStop hb) (.inl hreq),
    congrArg (· + (cycleLength s - s.timCnt)) (if_pos hreq)⟩

/-! ## One tick of a stop -/

theorem timerResult_eq_next {s t : State} :
    timerResult s = .next t ↔ s.timCen = true ∧ tick s = .next t := by
  unfold timerResult
  cases s.timCen <;> simp

/-- In a state of the block an enabled timer ticks: `DMA_IDX` numbers an entry of the table space (R33). -/
theorem exists_tick_of_blockInv {s : State} (hb : BlockInv s) (hcen : s.timCen = true) :
    ∃ t, tick s = .next t := by
  rcases timerResult_cases s with ⟨hoff, -⟩ | ⟨-, t, ht, -⟩ | ⟨-, hout, -⟩
  · exact absurd (hcen.symm.trans hoff) (by decide)
  · exact ⟨t, ht⟩
  · obtain ⟨-, -, -, -, -, hstates, -⟩ := config_valid_iff.1 hb.config
    have hlen := hb.tables.dmaLen_le
    rcases hb.tables.dmaIdx_lt with h | h <;> omega

theorem cycleLength_of_tick {s t : State} (h : tick s = .next t) : cycleLength t = cycleLength s := by
  rw [tick_frame h]
  rfl

/-- More than a cycle to go: the first wrap is still to come (R166). -/
theorem StopPending.stopRequested_iff {s : State} (hs : StopPending s) :
    s.engState = .stopRequested ↔ cycleLength s < ticksToIdle s := by
  have hbelow := hs.cnt
  unfold ticksToIdle
  by_cases h : s.engState = .stopRequested
  · rw [if_pos h]
    exact iff_of_true h (by omega)
  · rw [if_neg h]
    exact iff_of_false h (by omega)

/-- One tick to go: it is the wrap in STOPPING (R185). -/
theorem StopPending.last_tick_iff {s : State} (hs : StopPending s) :
    ticksToIdle s = 1 ↔ s.engState = .stopping ∧ wraps s = true := by
  have hbelow := hs.cnt
  rw [wraps, decide_eq_true_iff, ticksToIdle]
  rcases hs.state with h | h
  · simp only [h, reduceCtorEq, false_and, iff_false, if_true]
    omega
  · simp only [h, reduceCtorEq, true_and, if_false]
    omega

/-- The last tick halts the engine, with the counter back at 0 (R181, R185). -/
theorem tick_eq_halt {s t : State} (hs : StopPending s) (hlast : ticksToIdle s = 1)
    (h : tick s = .next t) : ∃ u, t = halt u ∧ u.timCnt = 0 ∧ u.cfg = s.cfg := by
  obtain ⟨hstopping, hw⟩ := hs.last_tick_iff.1 hlast
  obtain ⟨u, hu, rfl⟩ := tick_eq_next.1 h
  have hframe := compareStep_frame hu
  have hcnt : u.timCnt = 0 := by
    rw [hframe]
    exact if_pos hw
  have heng : u.engState = .stopping := by
    rw [hframe]
    exact hstopping
  refine ⟨u, ?_, hcnt, by rw [hframe]; rfl⟩
  rw [if_pos hw, wrapService, heng]

/-- Every other tick leaves the stop in progress, one tick nearer to its end. -/
theorem tick_keeps_stopPending {s t : State} (hs : StopPending s) (hmore : 1 < ticksToIdle s)
    (h : tick s = .next t) : StopPending t ∧ ticksToIdle t + 1 = ticksToIdle s := by
  refine (tick_of_stopPending hs h).resolve_left fun hidle => ?_
  obtain ⟨u, hu, rfl⟩ := tick_eq_next.1 h
  have heng : u.engState = s.engState := by
    rw [compareStep_frame hu]
    rfl
  have hlast : s.engState = .stopping ∧ wraps s = true := by
    by_cases hw : wraps s = true
    · rw [if_pos hw] at hidle
      rcases wrapService_cases u with ⟨-, hws⟩ | ⟨-, hws⟩ | ⟨hstopping, -⟩
      · rw [hws, heng] at hidle
        exact absurd hidle hs.state_ne.1
      · simp [hws] at hidle
      · exact ⟨heng.symm.trans hstopping, hw⟩
    · rw [if_neg hw, heng] at hidle
      exact absurd hidle hs.state_ne.1
  have := hs.last_tick_iff.2 hlast
  omega

/-! ## The ticks of a stop -/

/-- `a` is the state `i` ticks after `t`, with the stop of `t` still in progress. -/
structure StopProgress (t : State) (i : Nat) (a : State) : Prop where
  run : ticks i t = .next a
  inv : BlockInv a
  pending : StopPending a
  left : ticksToIdle a + i = ticksToIdle t
  length : cycleLength a = cycleLength t
  cfg : a.cfg = t.cfg

theorem StopProgress.zero {t : State} (hb : BlockInv t) (hs : StopPending t) : StopProgress t 0 t :=
  ⟨rfl, hb, hs, rfl, rfl, rfl⟩

/-- While more than one tick is to go, there is a tick and the stop goes on. -/
theorem StopProgress.succ {t a : State} {i : Nat} (h : StopProgress t i a)
    (hmore : 1 < ticksToIdle a) : ∃ b, StopProgress t (i + 1) b := by
  obtain ⟨b, hb⟩ := exists_tick_of_blockInv h.inv h.pending.cen
  obtain ⟨hpending, hleft⟩ := tick_keeps_stopPending h.pending hmore hb
  have htotal := h.left
  exact ⟨b, {
    run := by
      rw [ticks_succ, h.run, Result.andThen_of_next]
      exact timerResult_eq_next.2 ⟨h.pending.cen, hb⟩
    inv := blockInv_tick h.pending.cen hb h.inv
    pending := hpending
    left := by omega
    length := (cycleLength_of_tick hb).trans h.length
    cfg := (extends_of_tick hb).cfg.trans h.cfg }⟩

/-- A stop is in progress for all its ticks but the last (R166). -/
theorem exists_stopProgress {t : State} (hb : BlockInv t) (hs : StopPending t) {i : Nat}
    (hi : i < ticksToIdle t) : ∃ a, StopProgress t i a := by
  induction i with
  | zero => exact ⟨t, .zero hb hs⟩
  | succ i ih =>
    obtain ⟨a, ha⟩ := ih (by omega)
    have hleft := ha.left
    exact ha.succ (by omega)

theorem StopProgress.stopRequested {t a : State} {i : Nat} (h : StopProgress t i a)
    (hi : cycleLength t + i < ticksToIdle t) : a.engState = .stopRequested := by
  have hleft := h.left
  refine h.pending.stopRequested_iff.2 ?_
  rw [h.length]
  omega

/-- With a cycle or less to go the engine is STOPPING, its timer one-shot (R23, R166). -/
theorem StopProgress.stopping {t a : State} {i : Nat} (h : StopProgress t i a)
    (hi : ticksToIdle t ≤ cycleLength t + i) : a.engState = .stopping ∧ a.timOpm = true := by
  have hleft := h.left
  have hno : ¬a.engState = .stopRequested := by
    rw [h.pending.stopRequested_iff, h.length]
    omega
  have hstopping := h.pending.state.resolve_left hno
  obtain ⟨-, -, hopm⟩ := engineModes_iff.1 h.inv.modes
  exact ⟨hstopping, hopm.trans (decide_eq_true hstopping)⟩

/-- The ticks of a whole stop end in the halt (R166, R185). -/
theorem ticks_ticksToIdle {t : State} (hb : BlockInv t) (hs : StopPending t) :
    ∃ u, ticks (ticksToIdle t) t = .next (halt u) ∧ u.timCnt = 0 ∧ u.cfg = t.cfg := by
  have hpos : 0 < ticksToIdle t := by
    have hbelow := hs.cnt
    unfold ticksToIdle
    omega
  obtain ⟨a, ha⟩ := exists_stopProgress hb hs (Nat.sub_lt hpos Nat.one_pos)
  have hleft := ha.left
  obtain ⟨b, htick⟩ := exists_tick_of_blockInv ha.inv ha.pending.cen
  obtain ⟨u, rfl, hcnt, hcfg⟩ := tick_eq_halt ha.pending (by omega) htick
  refine ⟨u, ?_, hcnt, hcfg.trans ha.cfg⟩
  rw [← Nat.sub_add_cancel (Nat.one_le_of_lt hpos), ticks_succ, ha.run, Result.andThen_of_next]
  exact timerResult_eq_next.2 ⟨ha.pending.cen, htick⟩

/-! ## The idle levels after the halt -/

/-- `IDLE_MASK` has a channel's set bit if its pin idles high, else its reset bit (R188). -/
theorem getLsbD_idleMask (c : Config) {q : Nat} (hq : q < 32) :
    (idleMask c).getLsbD q = true ↔
      ∃ ch, ch < c.channelCount ∧ q = if c.inv ch then c.pin ch else 16 + c.pin ch := by
  simp only [idleMask, getLsbD_foldl_or, BitVec.ofNat_eq_ofNat, BitVec.getLsbD_zero, Bool.false_or,
    List.any_eq_true, List.mem_range]
  refine exists_congr fun ch => and_congr_right fun _ => ?_
  rw [setBit, resetBit, ← apply_ite Sys2Proof.bit, getLsbD_bit_of_lt hq, decide_eq_true_iff]

/-- `ODR_apply(IDLE_MASK)` puts every channel's pin at its idle level (R188). -/
theorem getLsbD_odrApply_idleMask {c : Config} (hv : c.valid = true) (odr : Levels) {ch : Nat}
    (hch : ch < c.channelCount) : (odrApply odr (idleMask c)).getLsbD (c.pin ch) = c.inv ch := by
  have hpin := pin_lt hv hch
  have hset : (idleMask c).getLsbD (c.pin ch) = c.inv ch := by
    rw [Bool.eq_iff_iff, getLsbD_idleMask c (by omega)]
    refine ⟨fun ⟨d, hd, he⟩ => ?_, fun hinv => ⟨ch, hch, (if_pos hinv).symm⟩⟩
    split_ifs at he with hinv
    · rwa [pin_injective hv hch hd he]
    · omega
  have hreset : c.inv ch = false → (idleMask c).getLsbD (16 + c.pin ch) = true := fun hinv =>
    (getLsbD_idleMask c (by omega)).2 ⟨ch, hch, by simp [hinv]⟩
  rw [getLsbD_odrApply _ _ hpin, hset]
  cases hinv : c.inv ch
  · simp [hreset hinv]
  · rfl

/-- Settles O40: a STOP leaves `2L - c` ticks to IDLE, and more than `L` of them are to go until STOPPING. -/
theorem stopLatencyIsTwoWraps : Obligations.StopLatencyIsTwoWraps := by
  intro s hb hrun
  have hbt := blockInv_afterStop hb
  obtain ⟨hpending, htotal⟩ := stopPending_afterStop hb hrun
  have hbelow : s.timCnt < cycleLength s := hpending.cnt
  have hlength : cycleLength (afterStop s) = cycleLength s := rfl
  have hlatency : 2 * cycleLength s - s.timCnt = ticksToIdle (afterStop s) := by omega
  refine ⟨afterStop s, exec_stop hb.config, if_pos hrun, by omega, by omega, fun i hi => ?_,
    fun i hle hi => ?_, ?_⟩
  · obtain ⟨a, ha⟩ := exists_stopProgress hbt hpending (i := i) (by omega)
    exact ⟨a, ha.run, ha.stopRequested (by omega)⟩
  · obtain ⟨a, ha⟩ := exists_stopProgress hbt hpending (i := i) (by omega)
    exact ⟨a, ha.run, ha.stopping (by omega)⟩
  · obtain ⟨u, hticks, hcnt, hcfg⟩ := ticks_ticksToIdle hbt hpending
    have hcfg : u.cfg = s.cfg := hcfg
    refine ⟨halt u, hlatency ▸ hticks, rfl, hcnt, rfl, rfl, rfl, fun ch hch => ?_⟩
    rw [halt_gpioOdr, hcfg]
    exact getLsbD_odrApply_idleMask hb.config u.gpioOdr hch

/-! ## The waveform without the STOP -/

/-- `a` with what a STOP in `s` writes, and the wrap service after it short of the halt, put back as it is
in `s`: none of it is an element of the waveform. -/
def withoutStop (s a : State) : State :=
  { a with
    engState := s.engState, timOpm := s.timOpm, freshSequence := s.freshSequence
    respOut := s.respOut, cmdPc := s.cmdPc }

/-- The compare step reads and writes none of those elements (R182). -/
theorem compareStep_withoutStop (s : State) {a b : State} (h : compareStep a = .next b) :
    compareStep (withoutStop s a) = .next (withoutStop s b) := by
  rcases compareStep_eq_next.1 h with ⟨hno, rfl⟩ | ⟨hdue, hidx, rfl⟩
  · exact compareStep_eq_next.2 (.inl ⟨hno, rfl⟩)
  · exact compareStep_eq_next.2 (.inr ⟨hdue, hidx, rfl⟩)

/-- A wrap service that does not reach IDLE writes those elements only (R185). -/
theorem withoutStop_wrapService (s : State) {a : State} (hne : (wrapService a).engState ≠ .idle) :
    withoutStop s (wrapService a) = withoutStop s a := by
  rcases wrapService_cases a with ⟨-, h⟩ | ⟨-, h⟩ | ⟨-, h⟩ <;> rw [h]
  · rfl
  · rw [h] at hne
    exact absurd rfl hne

theorem tick_withoutStop {s a b : State} (hrun : s.engState = .running) (h : tick a = .next b)
    (hne : b.engState ≠ .idle) : tick (withoutStop s a) = .next (withoutStop s b) := by
  obtain ⟨u, hu, rfl⟩ := tick_eq_next.1 h
  refine tick_eq_next.2 ⟨withoutStop s u, compareStep_withoutStop s hu, ?_⟩
  have hrunning : wrapService (withoutStop s u) = withoutStop s u := by
    rw [wrapService, withoutStop, hrun]
  change _ = if wraps a then _ else _
  rw [hrunning, ite_self]
  split_ifs at hne ⊢
  · exact withoutStop_wrapService s hne
  · rfl

/-- The states of a stop in progress are those of the run without it, but for what `withoutStop` puts
back (R166, R167). -/
theorem StopProgress.ticks_withoutStop {s a : State} {i : Nat} (hb : BlockInv s)
    (hrun : s.engState = .running) (h : StopProgress (afterStop s) i a) :
    ticks i s = .next (withoutStop s a) := by
  obtain ⟨hpending, -⟩ := stopPending_afterStop hb hrun
  induction i generalizing a with
  | zero =>
    obtain rfl : afterStop s = a := Result.next.inj h.run
    rfl
  | succ i ih =>
    have hleft := h.left
    obtain ⟨b, hprev⟩ := exists_stopProgress (blockInv_afterStop hb) hpending (i := i) (by omega)
    have hlast : timerResult b = .next a := by
      rw [← h.run, ticks_succ, hprev.run, Result.andThen_of_next]
    obtain ⟨hcen, htick⟩ := timerResult_eq_next.1 hlast
    rw [ticks_succ, ih hprev, Result.andThen_of_next]
    exact timerResult_eq_next.2 ⟨hcen, tick_withoutStop hrun htick h.pending.state_ne.1⟩

/-- Settles O41: the stop is in progress for all its ticks but the last, its waveform that of the run
without it. -/
theorem stopLeavesTheWaveformAlone : Obligations.StopLeavesTheWaveformAlone := by
  intro s t hb hrun hstop i hi
  obtain rfl : afterStop s = t := Host.Outcome.next.inj ((exec_stop hb.config).symm.trans hstop)
  obtain ⟨hpending, htotal⟩ := stopPending_afterStop hb hrun
  have hbelow : s.timCnt < cycleLength s := hpending.cnt
  obtain ⟨a, ha⟩ := exists_stopProgress (blockInv_afterStop hb) hpending (i := i) (by omega)
  exact ⟨a, withoutStop s a, ha.run, ha.ticks_withoutStop hb hrun, rfl, rfl, rfl, rfl⟩

end Sys2Proof.Machine
end

section
/-! PROOF. The GPIO set/reset write pin by pin, the timer agent's turn, and the last of START's faults
(43_playback.md R180 to R189). -/

namespace Sys2Proof.Machine

/-! ## The GPIO set/reset write -/

/-- Settles O13: the reset bits clear the old levels, then the set bits are put over them. -/
theorem odrApplyWorksLaneByLane : Obligations.OdrApplyWorksLaneByLane := by
  intro odr m p hp
  rw [getLsbD_odrApply odr m hp]
  cases m.getLsbD p
  · cases m.getLsbD (16 + p) <;> simp
  · rfl

/-- `IDLE_MASK` has neither bit of a pin that no channel uses (R188). -/
theorem getLsbD_idleMask_unused {c : Config} (hv : c.valid = true) {p : Nat} (hp : p < 16)
    (hunused : ∀ ch, ch < c.channelCount → c.pin ch ≠ p) :
    (idleMask c).getLsbD p = false ∧ (idleMask c).getLsbD (16 + p) = false := by
  have hnone : ∀ q, q = p ∨ q = 16 + p → (idleMask c).getLsbD q = false := fun q hq => by
    rw [Bool.eq_false_iff, ne_eq, getLsbD_idleMask c (by omega)]
    rintro ⟨ch, hch, he⟩
    have hne := hunused ch hch
    have hpin := pin_lt hv hch
    split_ifs at he <;> omega
  exact ⟨hnone p (.inl rfl), hnone (16 + p) (.inr rfl)⟩

/-- Settles O14: a channel's pin has its idle bit in the mask, an unused pin has no bit there. -/
theorem idleMaskForcesIdleLevels : Obligations.IdleMaskForcesIdleLevels := by
  intro c odr hv
  refine ⟨fun ch hch => getLsbD_odrApply_idleMask hv odr hch, fun p hp hunused => ?_⟩
  obtain ⟨hset, hreset⟩ := getLsbD_idleMask_unused hv hp hunused
  rw [getLsbD_odrApply _ _ hp, hset, hreset]
  simp

/-! ## The timer agent's turn -/

/-- Settles O37: with `CEN = 0` the timer agent holds. -/
theorem timerHoldsWhileDisabled : Obligations.TimerHoldsWhileDisabled := by
  intro s hv hturn hcen
  rw [step_of_timer hv hturn, settle_timerResult_eq_next]
  exact .inr ⟨hcen, rfl⟩

/-- The compare step within the table space, written out (R182, R184). -/
theorem compareStep_of_inside {s : State} (hidx : s.dmaIdx < s.cfg.maxStates) :
    compareStep s = .next { s with
      timCcr := if transferDue s then (s.live.timeAt s.dmaIdx).toNat else s.timCcr
      dmaIdx := if transferDue s then (s.dmaIdx + 1) % s.dmaLen else s.dmaIdx
      gpioOdr := if transferDue s then odrApply s.gpioOdr (s.live.maskAt s.dmaIdx)
        else s.gpioOdr } := by
  rw [compareStep_eq_next]
  cases hdue : transferDue s
  · exact .inl ⟨rfl, rfl⟩
  · exact .inr ⟨rfl, hidx, rfl⟩

/-- The wrap service, written out (R185). -/
theorem wrapService_eq (s : State) :
    wrapService s = { s with
      gpioOdr := if s.engState = .stopping then odrApply s.gpioOdr (idleMask s.cfg) else s.gpioOdr
      engState := if s.engState = .stopRequested then .stopping
        else if s.engState = .stopping then .idle else s.engState
      timOpm := if s.engState = .stopRequested then true
        else if s.engState = .stopping then false else s.timOpm
      timCen := if s.engState = .stopping then false else s.timCen
      dmaEn := if s.engState = .stopping then false else s.dmaEn } := by
  rcases wrapService_cases s with ⟨hplay, h⟩ | ⟨hreq, h⟩ | ⟨hstop, h⟩ <;> rw [h]
  · have hne : s.engState ≠ .stopRequested ∧ s.engState ≠ .stopping := by
      rcases hplay with hrun | hidle <;> simp [*]
    simp [hne]
  · simp [hreq]
  · simp [hstop, halt, bsrrWrite]

/-- Settles O36: the counter's step decides the wrap and the transfer, and the wrap service comes last. -/
theorem tickIsCounterCompareWrap : Obligations.TickIsCounterCompareWrap := by
  intro s wrap due cnt odr hv hturn hcen hidx hwrap hcnt hdue hodr
  have hw : wraps (turnTaken s) = wrap := hwrap.symm
  have hc : (counterStep (turnTaken s)).timCnt = cnt := by
    rw [counterStep_timCnt, hw, hcnt]
    rfl
  have hd : transferDue (counterStep (turnTaken s)) = due := by
    rw [transferDue, hc, hdue]
    rfl
  have hcompare := compareStep_of_inside (s := counterStep (turnTaken s)) hidx
  rw [hd, hc] at hcompare
  have htick := tick_eq_next.2 ⟨_, hcompare, rfl⟩
  rw [step_of_timer hv hturn, settle_timerResult_eq_next]
  refine .inl ⟨hcen, htick.trans (congrArg Result.next ?_)⟩
  rw [hw, hodr]
  cases wrap
  · rfl
  · simp only [Bool.true_and, decide_eq_true_eq]
    exact wrapService_eq _

/-! ## The last of START's faults -/

/-- The arm's last check: events too close raise `DMA_SPACING` (R162, R189). -/
theorem armAndComplete_of_tooClose {s : State} (hperiod : s.timPeriod ≠ 0)
    (hlen : s.dmaLen ≤ s.cfg.maxStates)
    (hclose : EventsTooClose s.cfg.dmaLatencyTicks s.dmaLen (cycleLength s)
      (cyclicTime s.live s.dmaLen)) : armAndComplete s = .raise .dmaSpacing := by
  obtain ⟨hlatency, hviolation⟩ := spacingViolation_iff.2 hclose
  have harm : arm s = .raise .dmaSpacing := by
    simp [arm, countOutside, hperiod, Nat.not_lt.2 hlen, hlatency, hviolation]
  rw [armAndComplete, harm, Result.andThen]

theorem committed_timPeriod_ne_zero {s : State} (hv : s.cfg.valid = true) (hperiod : s.periodUs ≠ 0) :
    (committed s).timPeriod ≠ 0 := by
  obtain ⟨-, -, -, -, hmult, -, -⟩ := config_valid_iff.1 hv
  have hus : s.periodUs.toNat ≠ 0 := fun h => hperiod (BitVec.eq_of_toNat_eq h)
  exact Nat.mul_ne_zero hus (by omega)

/-- Settles O28: the spacing is the last check of the arm, over the live events or the committed ones. -/
theorem closeEventsFaultAtArm : Obligations.CloseEventsFaultAtArm := by
  intro s hv hidle
  constructor
  · intro hpending hperiod hlen
    refine ⟨fun hclose => exec_of_raise (k := .dmaSpacing) hv ?_, fun hapart => ?_⟩
    · rw [commandResult, startResult_of_not_pending hidle hpending,
        armAndComplete_of_tooClose hperiod hlen hclose]
    · exact ⟨_, startArmsFromIdle s hv hidle hpending hperiod hlen hapart, rfl, rfl⟩
  · intro hpending hm hdma hcount hfit hperiodFit hperiod
    refine ⟨fun hclose => exec_of_raise (k := .dmaSpacing) hv ?_, fun hapart => ?_⟩
    · have hcommit : commit s = .next (committed s) := commit_eq_next.2
        ⟨hdma, hcount, timeOverflows_eq_false.2 hfit, periodOverflows_eq_false.2 hperiodFit, rfl⟩
      have hcommitted : EventsTooClose s.cfg.dmaLatencyTicks s.shadowCount
          (cycleLength (committed s)) (cyclicTime (committed s).live s.shadowCount) :=
        (eventsTooClose_congr fun _ hk => cyclicTime_committed hm hcount hk).2 hclose
      rw [commandResult, startResult_of_pending hidle hpending, hcommit, Result.andThen_of_next]
      exact armAndComplete_of_tooClose (committed_timPeriod_ne_zero hv hperiod) hcount hcommitted
    · obtain ⟨t, hstart, ht, -⟩ := startCommitsAndArms s hv hm hidle hpending hdma hcount hfit
        hperiodFit hperiod hapart
      exact ⟨t, hstart, by rw [ht], by rw [ht]⟩

end Sys2Proof.Machine
end

section
/-! PROOF. The laws of playback: after a correcting commit the entry at `DMA_IDX` is the next event, and the
compare register holds its tick, so each mask plays at its own time as long as every time lies below the cycle
length (43_playback.md R190, R191). -/

namespace Sys2Proof.Machine

/-! ## The playback of a staged table -/

/-- `u_k`, the counter value of the `k`-th staged event (R190). -/
def stagedTick (s : State) (k : Nat) : Nat := scaledTime s.cfg (s.shadow.timeAt k)

/-- `a` is the state `i` ticks after `t`, RUNNING over the live table of `t`, with the compare register at the
tick of the event at `DMA_IDX`. -/
structure Playing (s t : State) (i : Nat) (a : State) : Prop where
  run : ticks i t = .next a
  running : a.engState = .running
  cen : a.timCen = true
  dma : a.dmaEn = true
  live : a.live = t.live
  len : a.dmaLen = s.shadowCount
  room : s.shadowCount ≤ a.cfg.maxStates
  length : cycleLength a = cycleLength t
  idx : a.dmaIdx < s.shadowCount
  ccr : a.timCcr = stagedTick s a.dmaIdx
  cnt : a.timCnt = i % cycleLength t

/-- `t` begins the playback of the table staged in `s`: its live entries are the staged ones with the time
column a step ahead (R147), its first event is the first staged one, and the staged ticks rise from above 0. -/
structure PlaysStaged (s t : State) : Prop where
  length_pos : 0 < cycleLength t
  mask : ∀ k, k < s.shadowCount → t.live.maskAt k = s.shadow.maskAt k
  time : ∀ k, k < s.shadowCount → (t.live.timeAt k).toNat = stagedTick s ((k + 1) % s.shadowCount)
  tick_pos : ∀ k, k < s.shadowCount → 0 < stagedTick s k
  tick_lt : ∀ k, k < s.shadowCount → ∀ j, j < k → stagedTick s j < stagedTick s k
  first : t.dmaIdx = 0
  playing : Playing s t 0 t

/-- A START that makes a correcting commit of an ordered table begins its playback (R162, R190). -/
theorem playsStaged_of_start {s t : State} (hm : memoriesCanonical s = true)
    (hidle : s.engState = .idle) (hpending : s.commitPending = true) (hc : s.needsCorrection = true)
    (hpos : 0 < s.shadowCount) (hinc : TimesIncrease s.shadow s.shadowCount)
    (hnonzero : TimesNonzero s.shadow s.shadowCount) (h : exec .start s = .next t)
    (hrun : t.engState = .running)
    (hfit : ∀ k, k < s.shadowCount → (s.shadow.timeAt k).toNat * s.cfg.tickMult < 2 ^ 32) :
    PlaysStaged s t := by
  have hlive := timeCorrectionRotatesAndScales s t hm hidle hpending hc hfit h hrun
  obtain ⟨hv, -⟩ := runCommand_eq_next.1 h
  obtain ⟨-, -, -, -, hmult, -, -⟩ := config_valid_iff.1 hv
  obtain ⟨-, harm, rfl⟩ :=
    (startResult_eq_next_of_pending hidle hpending).1 (startResult_of_running hidle h hrun)
  obtain ⟨hperiod, hroom, -, -⟩ := arm_eq_next.1 harm
  have hccr : (startedAfterCommit s).timCcr = stagedTick s 0 := by
    have hlast := (hlive (s.shadowCount - 1) (by omega)).2
    rw [Nat.sub_add_cancel hpos, Nat.mod_self] at hlast
    exact (if_pos hpos).trans hlast
  exact {
    length_pos := Nat.add_pos_left (Nat.pos_of_ne_zero hperiod) _
    mask := fun k hk => (hlive k hk).1
    time := fun k hk => (hlive k hk).2
    tick_pos := fun k hk => Nat.mul_pos
      (Nat.pos_of_ne_zero fun h0 => hnonzero k hk (BitVec.eq_of_toNat_eq h0)) hmult
    tick_lt := fun k hk j hj => Nat.mul_lt_mul_of_pos_right (hinc k hk j hj) hmult
    first := rfl
    playing := {
      run := rfl, running := rfl, cen := rfl, dma := rfl, live := rfl, len := rfl
      room := hroom, length := rfl, idx := hpos, ccr := hccr, cnt := (Nat.zero_mod _).symm } }

/-! ## One tick -/

/-- The count of a cycle goes on by one or wraps to 0. -/
theorem succ_mod_cases (i : Nat) {L : Nat} (hL : 0 < L) :
    (i % L + 1 = L ∧ (i + 1) % L = 0) ∨ (i % L + 1 < L ∧ (i + 1) % L = i % L + 1) := by
  have hmod : (i + 1) % L = (i % L + 1) % L := (Nat.mod_add_mod i L 1).symm
  have hle : i % L + 1 ≤ L := Nat.mod_lt i hL
  rcases Nat.eq_or_lt_of_le hle with h | h
  · exact .inl ⟨h, by rw [hmod, h, Nat.mod_self]⟩
  · exact .inr ⟨h, by rw [hmod, Nat.mod_eq_of_lt h]⟩

/-- The counter's step, where the counter is the number of ticks modulo the cycle length (R181). -/
theorem Playing.timCnt_counterStep {s t a : State} {i : Nat} (h : Playing s t i a)
    (hL : 0 < cycleLength t) : (counterStep a).timCnt = (i + 1) % cycleLength t := by
  rw [counterStep_timCnt, wraps, h.length, h.cnt]
  rcases succ_mod_cases i hL with ⟨hwrap, hnext⟩ | ⟨hwrap, hnext⟩
  · rw [hnext, hwrap]
    simp
  · rw [hnext]
    simp [Nat.not_le.2 hwrap]

/-- In RUNNING the wrap service does nothing, so a tick ends with the compare step (R185). -/
theorem tick_of_running {s t : State} (hrun : s.engState = .running)
    (h : compareStep (counterStep s) = .next t) : tick s = .next t := by
  refine tick_eq_next.2 ⟨t, h, ?_⟩
  have ht : t.engState = .running := by
    rw [compareStep_frame h]
    exact hrun
  rw [wrapService, ht, ite_self]

/-- The tick from `a` to `b` that brings the counter to `c`: the event at `DMA_IDX` happens exactly if it is
due at `c`. -/
structure TickOf (s : State) (c : Nat) (a b : State) : Prop where
  step : timerResult a = .next b
  event : c = stagedTick s a.dmaIdx →
    b.gpioOdr = odrApply a.gpioOdr (s.shadow.maskAt a.dmaIdx) ∧
      b.dmaIdx = (a.dmaIdx + 1) % s.shadowCount
  quiet : c ≠ stagedTick s a.dmaIdx → b.gpioOdr = a.gpioOdr ∧ b.dmaIdx = a.dmaIdx

/-- Playback goes on with every tick: an event loads the tick of the one after it (R182, R190). -/
theorem PlaysStaged.exists_tick {s t a : State} {i : Nat} (hp : PlaysStaged s t)
    (h : Playing s t i a) :
    ∃ b, Playing s t (i + 1) b ∧ TickOf s ((i + 1) % cycleLength t) a b := by
  have hcnt := h.timCnt_counterStep hp.length_pos
  have hrun : ∀ {b}, timerResult a = .next b → ticks (i + 1) t = .next b := fun hb => by
    rw [ticks_succ, h.run, Result.andThen_of_next, hb]
  have htick : ∀ {b}, compareStep (counterStep a) = .next b → timerResult a = .next b := fun hb =>
    timerResult_eq_next.2 ⟨h.cen, tick_of_running h.running hb⟩
  by_cases hdue : (i + 1) % cycleLength t = stagedTick s a.dmaIdx
  · have hlen : 0 < a.dmaLen := h.len ▸ Nat.zero_lt_of_lt h.idx
    have hcompare : compareStep (counterStep a) = .next (dmaTransfer (counterStep a)) :=
      compareStep_eq_next.2 (.inr ⟨transferDue_iff.2
        ⟨hcnt.trans (hdue.trans h.ccr.symm), h.dma, hlen⟩, h.idx.trans_le h.room, rfl⟩)
    have hidx : (dmaTransfer (counterStep a)).dmaIdx = (a.dmaIdx + 1) % s.shadowCount := by
      rw [← h.len]; rfl
    have hccr : (dmaTransfer (counterStep a)).timCcr =
        stagedTick s ((a.dmaIdx + 1) % s.shadowCount) := by
      rw [← hp.time _ h.idx, ← h.live]; rfl
    have hodr : (dmaTransfer (counterStep a)).gpioOdr =
        odrApply a.gpioOdr (s.shadow.maskAt a.dmaIdx) := by
      rw [← hp.mask _ h.idx, ← h.live]; rfl
    exact ⟨_, { h with
        run := hrun (htick hcompare), cnt := hcnt
        idx := hidx ▸ Nat.mod_lt _ (Nat.zero_lt_of_lt h.idx), ccr := hidx ▸ hccr },
      ⟨htick hcompare, fun _ => ⟨hodr, hidx⟩, fun hne => absurd hdue hne⟩⟩
  · have hcompare : compareStep (counterStep a) = .next (counterStep a) := by
      refine compareStep_eq_next.2 (.inl ⟨Bool.eq_false_iff.2 fun htransfer => hdue ?_, rfl⟩)
      exact hcnt.symm.trans ((transferDue_iff.1 htransfer).1.trans h.ccr)
    exact ⟨_, { h with run := hrun (htick hcompare), cnt := hcnt },
      ⟨htick hcompare, fun he => absurd he hdue, fun _ => ⟨rfl, rfl⟩⟩⟩

/-! ## Where in the cycle playback stands -/

/-- The first `p` events, and no others, lie at or before the counter's value, and the next one is at
`DMA_IDX`: after the last event that is the first of the next cycle (R183). -/
structure EventsPassed (s : State) (p : Nat) (a : State) : Prop where
  le : p ≤ s.shadowCount
  idx : a.dmaIdx = p % s.shadowCount
  passed_iff : ∀ k, k < s.shadowCount → (k < p ↔ stagedTick s k ≤ a.timCnt)

/-- An event at the next count is the one after those passed. -/
theorem EventsPassed.eq_of_next {s t a : State} {p k : Nat} (hp : PlaysStaged s t)
    (h : EventsPassed s p a) (hk : k < s.shadowCount) (hdue : a.timCnt + 1 = stagedTick s k) : p = k := by
  have hnot : ¬k < p := fun hlt => by
    have hle := (h.passed_iff k hk).1 hlt
    omega
  refine Nat.le_antisymm (Nat.not_lt.1 hnot) (Nat.not_lt.1 fun hlt => ?_)
  have hbefore := hp.tick_lt k hk p hlt
  exact absurd ((h.passed_iff p (hlt.trans hk)).2 (by omega)) (Nat.lt_irrefl p)

/-- An event that is due is the one at `DMA_IDX`: the wrap's own tick is none's (R190). -/
theorem EventsPassed.eq_dmaIdx {s t a : State} {p k i : Nat} (hp : PlaysStaged s t)
    (h : EventsPassed s p a) (hplay : Playing s t i a) (hk : k < s.shadowCount)
    (hdue : (i + 1) % cycleLength t = stagedTick s k) : k = a.dmaIdx := by
  have hpos := hp.tick_pos k hk
  have hcnt := hplay.cnt
  rcases succ_mod_cases i hp.length_pos with ⟨-, hnext⟩ | ⟨-, hnext⟩
  · omega
  · obtain rfl := h.eq_of_next hp hk (by omega)
    rw [h.idx, Nat.mod_eq_of_lt hk]

/-- A tick within the cycle passes the event at `DMA_IDX` if it is due, and else none (R190). -/
theorem EventsPassed.tick {s t a b : State} {p : Nat} (hp : PlaysStaged s t) (h : EventsPassed s p a)
    (hidx : a.dmaIdx < s.shadowCount) (hcnt : b.timCnt = a.timCnt + 1)
    (htick : TickOf s (a.timCnt + 1) a b) : ∃ p', EventsPassed s p' b := by
  by_cases hdue : a.timCnt + 1 = stagedTick s a.dmaIdx
  · have hnext : p = a.dmaIdx := h.eq_of_next hp hidx hdue
    refine ⟨a.dmaIdx + 1, hidx, (htick.event hdue).2, fun k hk => ?_⟩
    rw [hcnt, hdue]
    rcases Nat.lt_trichotomy k a.dmaIdx with hlt | rfl | hgt
    · exact iff_of_true (by omega) (hp.tick_lt _ hidx k hlt).le
    · exact iff_of_true (by omega) le_rfl
    · exact iff_of_false (by omega) (Nat.not_le.2 (hp.tick_lt k hk _ hgt))
  · refine ⟨p, h.le, (htick.quiet hdue).2.trans h.idx, fun k hk => ?_⟩
    have hpassed := h.passed_iff k hk
    have hne : a.timCnt + 1 ≠ stagedTick s k := fun hk' => by
      obtain rfl := h.eq_of_next hp hk hk'
      rw [h.idx, Nat.mod_eq_of_lt hk] at hdue
      exact hdue hk'
    omega

/-- At the start of a cycle no event is passed (R190). -/
theorem eventsPassed_zero {s t a : State} (hp : PlaysStaged s t) (hidx : a.dmaIdx = 0)
    (hcnt : a.timCnt = 0) : EventsPassed s 0 a where
  le := Nat.zero_le _
  idx := hidx.trans (Nat.zero_mod _).symm
  passed_iff := fun k hk => by
    have hpos := hp.tick_pos k hk
    omega

theorem PlaysStaged.eventsPassed {s t : State} (hp : PlaysStaged s t) : EventsPassed s 0 t :=
  eventsPassed_zero hp hp.first (hp.playing.cnt.trans (Nat.zero_mod _))

/-- On the tick of the wrap no event happens (R190). -/
theorem TickOf.wrap {s t a b : State} (hp : PlaysStaged s t) (htick : TickOf s 0 a b)
    (hidx : a.dmaIdx < s.shadowCount) : b.gpioOdr = a.gpioOdr ∧ b.dmaIdx = a.dmaIdx :=
  htick.quiet (hp.tick_pos _ hidx).ne

/-! ## Every time below the cycle length -/

/-- With every tick below the cycle length, playback finds its place in every cycle (R190). -/
theorem exists_eventsPassed {s t : State} (hp : PlaysStaged s t)
    (hbelow : ∀ k, k < s.shadowCount → stagedTick s k < cycleLength t) (i : Nat) :
    ∃ a p, Playing s t i a ∧ EventsPassed s p a := by
  induction i with
  | zero => exact ⟨t, 0, hp.playing, hp.eventsPassed⟩
  | succ i ih =>
    obtain ⟨a, p, ha, hpassed⟩ := ih
    obtain ⟨b, hb, htick⟩ := hp.exists_tick ha
    have hcnta := ha.cnt
    have hcntb := hb.cnt
    rcases succ_mod_cases i hp.length_pos with ⟨hwrap, hnext⟩ | ⟨-, hnext⟩
    · rw [hnext] at htick hcntb
      have hall : p = s.shadowCount := by
        refine Nat.le_antisymm hpassed.le (Nat.not_lt.1 fun hlt => ?_)
        have hlast := hbelow p hlt
        exact absurd ((hpassed.passed_iff p hlt).2 (by omega)) (Nat.lt_irrefl p)
      have hidx : b.dmaIdx = 0 := by
        rw [(htick.wrap hp ha.idx).2, hpassed.idx, hall, Nat.mod_self]
      exact ⟨b, 0, hb, eventsPassed_zero hp hidx hcntb⟩
    · rw [hnext, ← hcnta] at htick hcntb
      obtain ⟨p', hp'⟩ := hpassed.tick hp ha.idx hcntb htick
      exact ⟨b, p', hb, hp'⟩

/-- Settles O38: the event at `DMA_IDX` is the only one that can be due at the next tick. -/
theorem everyMaskPlaysAtItsTime : Obligations.EveryMaskPlaysAtItsTime := by
  intro s t hm hidle hpending hc hpos hinc hnonzero hstart hrun hfit hbelow i
  have hp := playsStaged_of_start hm hidle hpending hc hpos hinc hnonzero hstart hrun hfit
  obtain ⟨a, p, ha, hpassed⟩ := exists_eventsPassed hp hbelow i
  obtain ⟨b, hb, htick⟩ := hp.exists_tick ha
  refine ⟨a, b, ha.run, htick.step, hb.running, fun k hk hdue => ?_, fun hnone => ?_⟩
  · obtain rfl := hpassed.eq_dmaIdx hp ha hk hdue
    exact (htick.event hdue).1
  · exact (htick.quiet (hnone _ ha.idx)).1

/-! ## A time past the cycle length -/

/-- At the end of a cycle the events before the first late one are passed (R191). -/
theorem EventsPassed.eq_of_late {s a : State} {p K L : Nat} (h : EventsPassed s p a)
    (hK : K < s.shadowCount) (hbelow : ∀ k, k < K → stagedTick s k < L) (hlate : L ≤ stagedTick s K)
    (hcnt : a.timCnt + 1 = L) : p = K := by
  refine Nat.le_antisymm (Nat.not_lt.1 fun hlt => ?_) (Nat.not_lt.1 fun hlt => ?_)
  · have hle := (h.passed_iff K hK).1 hlt
    omega
  · have hbefore := hbelow p hlt
    exact absurd ((h.passed_iff p (hlt.trans hK)).2 (by omega)) (Nat.lt_irrefl p)

/-- An event at a smaller tick is an earlier one. -/
theorem PlaysStaged.lt_of_tick_lt {s t : State} {j k : Nat} (hp : PlaysStaged s t)
    (hj : j < s.shadowCount) (h : stagedTick s j < stagedTick s k) : j < k := by
  refine Nat.not_le.1 fun hle => ?_
  rcases Nat.eq_or_lt_of_le hle with rfl | hlt
  · exact Nat.lt_irrefl _ h
  · exact Nat.lt_asymm h (hp.tick_lt j hj k hlt)

/-- Where the `K`-th tick is the first at or past the cycle length, playback finds its place in the first
cycle, and waits for the `K`-th event from then on (R191). -/
theorem exists_waiting {s t : State} {K : Nat} (hp : PlaysStaged s t) (hK : K < s.shadowCount)
    (hbelow : ∀ k, k < K → stagedTick s k < cycleLength t) (hlate : cycleLength t ≤ stagedTick s K)
    (i : Nat) :
    ∃ a, Playing s t i a ∧
      ((i < cycleLength t ∧ ∃ p, EventsPassed s p a) ∨ (cycleLength t ≤ i ∧ a.dmaIdx = K)) := by
  induction i with
  | zero => exact ⟨t, hp.playing, .inl ⟨hp.length_pos, 0, hp.eventsPassed⟩⟩
  | succ i ih =>
    obtain ⟨a, ha, hplace⟩ := ih
    obtain ⟨b, hb, htick⟩ := hp.exists_tick ha
    have hcnta := ha.cnt
    have hcntb := hb.cnt
    refine ⟨b, hb, ?_⟩
    rcases hplace with ⟨hi, p, hpassed⟩ | ⟨hi, hidx⟩
    · rw [Nat.mod_eq_of_lt hi] at hcnta
      rcases succ_mod_cases i hp.length_pos with ⟨hwrap, hnext⟩ | ⟨hwrap, hnext⟩
      · rw [Nat.mod_eq_of_lt hi] at hwrap
        rw [hnext] at htick
        obtain rfl := hpassed.eq_of_late hK hbelow hlate (hcnta ▸ hwrap)
        refine .inr ⟨hwrap.ge, ?_⟩
        rw [(htick.wrap hp ha.idx).2, hpassed.idx, Nat.mod_eq_of_lt hK]
      · rw [Nat.mod_eq_of_lt hi] at hwrap hnext
        rw [hnext, ← hcnta] at htick hcntb
        exact .inl ⟨hwrap, hpassed.tick hp ha.idx hcntb htick⟩
    · have hbelowL := Nat.mod_lt (i + 1) hp.length_pos
      have hne : (i + 1) % cycleLength t ≠ stagedTick s a.dmaIdx := by
        rw [hidx]
        omega
      exact .inr ⟨hi.trans (Nat.le_succ i), (htick.quiet hne).2.trans hidx⟩

/-- Settles O39: the counter never reaches the `K`-th tick, so the event there, and each after it, is never
due. -/
theorem lateTimesStallPlayback : Obligations.LateTimesStallPlayback := by
  intro s t K hm hidle hpending hc hinc hnonzero hstart hrun hfit hK hbelow hlate i
  have hp := playsStaged_of_start hm hidle hpending hc (Nat.zero_lt_of_lt hK) hinc hnonzero hstart hrun
    hfit
  obtain ⟨a, ha, hplace⟩ := exists_waiting hp hK hbelow hlate i
  obtain ⟨b, hb, htick⟩ := hp.exists_tick ha
  refine ⟨a, b, ha.run, htick.step, fun k hk hdue => ?_, fun hnone => ?_⟩
  · have hi : i + 1 < cycleLength t := hdue ▸ hbelow k hk
    obtain ⟨-, p, hpassed⟩ := hplace.resolve_right fun hr => by omega
    have hdue' : (i + 1) % cycleLength t = stagedTick s k := (Nat.mod_eq_of_lt hi).trans hdue
    obtain rfl := hpassed.eq_dmaIdx hp ha (hk.trans hK) hdue'
    exact (htick.event hdue').1
  · refine (htick.quiet fun hdue => ?_).1
    have hcnt := Nat.mod_lt (i + 1) hp.length_pos
    have hearly : a.dmaIdx < K := hp.lt_of_tick_lt ha.idx ((hdue ▸ hcnt).trans_le hlate)
    obtain ⟨hi, -⟩ := hplace.resolve_right fun hr => hearly.ne hr.2
    have hpos := hp.tick_pos _ ha.idx
    rcases succ_mod_cases i hp.length_pos with ⟨-, hnext⟩ | ⟨-, hnext⟩
    · omega
    · rw [hnext, Nat.mod_eq_of_lt hi] at hdue
      exact hnone _ hearly hdue

end Sys2Proof.Machine
end

section
/-! PROOF. The queries and housekeeping commands: their one-word encodings, their replies and their whole
effects (44_query_commands.md R210 to R224, 70_reset_and_hazards.md R270). -/

namespace Sys2Proof.Machine

/-! ## One-word commands -/

/-- A command with an opcode of one word leaves the words after its header (R92). -/
theorem decode_oneWord {h : Word} {ws : List Word} {i : Instr} {op : BitVec 8} (hs : Selects h ws i)
    (hop : opcodeOf h = op) (hsetper : op ≠ 0x03#8 := by decide) (hsetch : op ≠ 0x04#8 := by decide) :
    decode (h :: ws) = .ok (i, ws) :=
  decode_of_selects (ops := []) (by simp [commandLength, hop, hsetper, hsetch]) hs

theorem decode_reserved {h : Word} (ws : List Word) (hres : reservedOpcode (opcodeOf h) = true) :
    decode (h :: ws) = .ok (.reserved (opcodeOf h), ws) := by
  obtain ⟨-, -, hsetper, hsetch, -⟩ := reservedOpcode_ne hres
  exact decode_oneWord (.reserved rfl hres) rfl hsetper hsetch

/-! ## Replies -/

theorem periodLine_getper (s : State) : periodLine 0x05 s = [0x05000001#32, s.periodUs] := by
  rw [periodLine, replyLine, List.length_singleton, replyHeader_fits _ _ (by decide)]
  rfl

/-- A reply without payload is its opcode above zero bits (R95, R96). -/
theorem replyLine_nil (opcode : BitVec 8) : replyLine opcode 0 [] = [opcode ++ 0#8 ++ 0#16] := by
  rw [replyLine, List.length_nil, replyHeader_fits _ _ (by decide)]

/-- The header of a channel's line where the count fits its field (R96). -/
theorem channelHeader_fits (ch : BitVec 8) {n : Nat} (hn : n < 2 ^ 16) :
    replyHeader 0x06 ch.toNat n = 0x06#8 ++ ch ++ BitVec.ofNat 16 n := by
  rw [replyHeader_fits _ _ hn, BitVec.ofNat_toNat, BitVec.setWidth_eq]
  rfl

/-- The channel lines of GETALL, channel by channel (R216). -/
theorem allLines_eq (s : State) :
    allLines s = periodLine 0x05 s ++ (List.range s.cfg.channelCount).flatMap fun ch =>
      if channelTimes s ch = [] then [] else channelLine s ch := by
  rw [allLines]
  congr 1
  induction List.range s.cfg.channelCount with
  | nil => rfl
  | cons ch chs ih =>
    rw [List.filter_cons, List.flatMap_cons, ← ih]
    by_cases hempty : channelTimes s ch = []
    · simp [hempty]
    · simp [hempty]

/-! ## The commands that only reply -/

/-- Settles O30: each opcode selects its command, and each reply fits its header. -/
theorem getperAndPingReply : Obligations.GetperAndPingReply := by
  refine ⟨fun h ws => ⟨fun hop => decode_oneWord (.getper hop) hop,
    fun hop => decode_oneWord (.ping hop) hop⟩, fun s hv => ⟨exec_of_next hv ?_, exec_of_next hv ?_⟩⟩
  · rw [commandResult, periodLine_getper]
    rfl
  · rw [commandResult, replyLine_nil]
    rfl

/-- Settles O33: each header selects its command, which moves `CMD_PC` alone. -/
theorem addressAndReservedCommandsDoNothing : Obligations.AddressAndReservedCommandsDoNothing := by
  refine ⟨fun h ws => ⟨fun hop => decode_oneWord (.setaddr hop rfl) hop,
    fun hop => decode_oneWord (.getaddr hop) hop, fun hop => decode_reserved ws ?_⟩,
    fun s addr op hv => ⟨exec_of_next hv rfl, exec_of_next hv rfl, exec_of_next hv rfl⟩⟩
  exact Bool.or_eq_true_iff.2 (hop.imp decide_eq_true decide_eq_true)

/-- GETCH of a channel in range completes with the channel's line (R212). -/
theorem exec_getch {s : State} {ch : BitVec 8} (hv : s.cfg.valid = true)
    (hch : ch.toNat < s.cfg.channelCount) (hlen : s.dmaLen ≤ s.cfg.maxStates) :
    exec (.getch ch) s = .next { s with
      respOut := s.respOut ++ channelLine s ch.toNat, cmdPc := s.cmdPc + 1 } := by
  refine exec_of_next hv ?_
  have hinside : ¬countOutside s s.dmaLen = true := fun h => Nat.not_lt.2 hlen (countOutside_iff.1 h)
  rw [commandResult, getchResult, channelInRange_iff.2 hch, if_neg hinside]
  rfl

/-- Settles O31: the channel's line is the header of its count and the reconstruction. -/
theorem getchReconstructsTheChannel : Obligations.GetchReconstructsTheChannel := by
  rintro s ch hv hch hlen times rfl
  exact ⟨_, channelHeader_fits ch, exec_getch hv hch hlen⟩

/-- GETALL completes with the period line and the channel lines (R216). -/
theorem exec_getall {s : State} (hv : s.cfg.valid = true) (hlen : s.dmaLen ≤ s.cfg.maxStates) :
    exec .getall s = .next { s with respOut := s.respOut ++ allLines s, cmdPc := s.cmdPc + 1 } := by
  refine exec_of_next hv ?_
  have hinside : ¬countOutside s s.dmaLen = true := fun h => Nat.not_lt.2 hlen (countOutside_iff.1 h)
  rw [commandResult, getallResult, if_neg hinside]
  rfl

/-- Settles O32: GETALL and GETCH reply the same channel lines. -/
theorem getallReportsEveryChannel : Obligations.GetallReportsEveryChannel := by
  intro s hv hlen
  refine ⟨fun ch => replyHeader 0x06 ch (channelTimes s ch).length,
    fun ch hfits => replyHeader_fits _ _ hfits, ?_, fun ch hch => exec_getch hv hch hlen⟩
  rw [exec_getall hv hlen, allLines_eq, periodLine_getper, List.append_assoc]
  rfl

/-! ## RESET -/

/-- Settles O10: `Reset()` clears the table spaces and no byte past them. -/
theorem resetCommandResets : Obligations.ResetCommandResets := by
  refine ⟨fun h ws hop => decode_oneWord (.reset hop) hop, fun s hv hm => ?_⟩
  obtain ⟨hshadow, hlive⟩ := memoriesCanonical_iff.1 hm
  have hcleared : ∀ {m : Memory}, m.wf = true → ∀ k, k < s.cfg.maxStates →
      (m.clearTable s.cfg).entry k = ⟨0, 0⟩ := fun hw k hk => by
    rw [Memory.entry_clearTable _ hw, if_pos hk]
  have hpast : ∀ {m : Memory}, m.wf = true → ∀ a, 8 * s.cfg.maxStates ≤ a →
      (m.clearTable s.cfg).readByte a = m.readByte a := fun hw a ha => by
    rw [Memory.readByte_clearTable _ hw, spaceBytes, if_neg (Nat.not_lt.2 ha)]
  refine ⟨advance 1 (resetBlock (reply (replyLine 0x0B 0 []) s)), exec_of_next hv rfl, ?_,
    fun k hk => ⟨hcleared hshadow k hk, hcleared hlive k hk⟩,
    fun a ha => ⟨hpast hshadow a ha, hpast hlive a ha⟩⟩
  rw [replyLine_nil]
  rfl

end Sys2Proof.Machine
end

section
/-! PROOF. The readback: GETCH undoes the rotation and the scaling of a correcting commit, and a list sent by
the first SETCH of a sequence stands in the table as it was sent (44_query_commands.md R214, R215). -/

namespace Sys2Proof.Machine

/-! ## The readback of a committed table -/

/-- The cyclic successor inverts the cyclic predecessor, by which GETCH reads (R143, R214). -/
theorem pred_succ_mod {k n : Nat} (hk : k < n) : ((k + n - 1) % n + 1) % n = k := by
  rw [Nat.mod_add_mod, show k + n - 1 + 1 = k + n by omega, Nat.add_mod_right, Nat.mod_eq_of_lt hk]

/-- GETCH undoes the rotation and the scaling of a correcting commit (R215). -/
theorem readbackTime_of_rotated {s t : State} (hcfg : t.cfg = s.cfg) (hmult : 1 ≤ s.cfg.tickMult)
    (hlen : t.dmaLen = s.shadowCount)
    (hrotated : ∀ k, k < s.shadowCount → (t.live.timeAt k).toNat =
      (s.shadow.timeAt ((k + 1) % s.shadowCount)).toNat * s.cfg.tickMult)
    {k : Nat} (hk : k < s.shadowCount) : readbackTime t k = s.shadow.timeAt k := by
  have hpred : (k + s.shadowCount - 1) % s.shadowCount < s.shadowCount :=
    Nat.mod_lt _ (Nat.zero_lt_of_lt hk)
  rw [readbackTime, hcfg, hlen, hrotated _ hpred, pred_succ_mod hk, Nat.mul_div_cancel _ hmult,
    BitVec.ofNat_toNat, BitVec.setWidth_eq]

/-- Settles O34: the masks stand where they stood, and GETCH undoes what the commit did to the times. -/
theorem readbackAfterCommit : Obligations.ReadbackAfterCommit := by
  intro s t hm hidle hpending hc hfit h hrun ch
  have hlive := timeCorrectionRotatesAndScales s t hm hidle hpending hc hfit h hrun
  obtain ⟨hv, -⟩ := runCommand_eq_next.1 h
  obtain ⟨-, -, -, -, hmult, -, -⟩ := config_valid_iff.1 hv
  obtain ⟨ht, -⟩ := eq_startedAfterCommit hidle hpending h hrun
  have hcfg : t.cfg = s.cfg := by rw [ht]; rfl
  have hlen : t.dmaLen = s.shadowCount := by rw [ht]; rfl
  have htouches : ∀ k ∈ List.range s.shadowCount,
      touches t.cfg (t.live.maskAt k) ch = touches s.cfg (s.shadow.maskAt k) ch := fun k hk => by
    obtain ⟨hmask, -⟩ := hlive k (List.mem_range.1 hk)
    rw [hcfg, hmask]
  rw [channelTimes, hlen, List.filter_congr htouches]
  refine List.map_congr_left fun k hk => ?_
  exact readbackTime_of_rotated hcfg hmult hlen (fun k hk => (hlive k hk).2)
    (List.mem_range.1 (List.mem_filter.1 hk).1)

/-! ## The table a fresh SETCH stages -/

/-- The entries of the shadow table, in table order (R39). -/
def shadowEntries (s : State) : List EventEntry := (List.range s.shadowCount).map s.shadow.entry

/-- The entry a merge puts in for a new time (R113). -/
def newEntry (tb : Word × Word) : EventEntry := ⟨tb.1, tb.2⟩

/-- The times of a list of entries strictly increase (R118). -/
def TimesAscend (es : List EventEntry) : Prop := es.Pairwise fun e e' => e.time < e'.time

@[simp] theorem length_shadowEntries (s : State) : (shadowEntries s).length = s.shadowCount := by
  simp [shadowEntries]

theorem entry_mem_shadowEntries {s : State} {j : Nat} (hj : j < s.shadowCount) :
    s.shadow.entry j ∈ shadowEntries s := List.mem_map_of_mem (List.mem_range.2 hj)

/-- A merge above every time of the table is an insert at its end (R113). -/
theorem mergeInsert_of_above {s : State} {t : Word} (hinc : TimesIncrease s.shadow s.shadowCount)
    (hbelow : ∀ j, j < s.shadowCount → s.shadow.timeAt j < t) (b : Word) :
    mergeInsert t b s = insertEntry s.shadowCount t b s := by
  have hne : ∀ j, j < s.shadowCount → s.shadow.timeAt j ≠ t :=
    fun j hj he => BitVec.lt_irrefl t (he ▸ hbelow j hj)
  have hlast : firstAbove s t = s.shadowCount := by
    refine Nat.le_antisymm (firstAbove_le s t) (Nat.not_lt.1 fun hlt => ?_)
    obtain ⟨-, habove⟩ := firstAbove_splits hinc hne
    exact BitVec.lt_asymm (habove _ le_rfl hlt) (hbelow _ hlt)
  rw [mergeInsert_of_new hinc hne, hlast]

/-- An insert at the end of a table with room adds its entry after the others (R113). -/
theorem shadowEntries_insertEntry_end {s : State} (hm : s.shadow.wf = true)
    (hr : s.shadowCount < s.cfg.maxStates) (t b : Word) :
    shadowEntries (insertEntry s.shadowCount t b s) = shadowEntries s ++ [⟨t, b⟩] := by
  obtain ⟨heq, hentry, -⟩ := insertEntry_room hm hr le_rfl t b
  have hcount : (insertEntry s.shadowCount t b s).shadowCount = s.shadowCount + 1 := by rw [heq]
  rw [shadowEntries, hcount, List.range_succ, List.map_append, List.map_singleton, hentry,
    if_neg (Nat.lt_irrefl _), if_pos rfl]
  refine congrArg (· ++ [_]) (List.map_congr_left fun k hk => ?_)
  rw [hentry, if_pos (List.mem_range.1 hk)]

/-- A merge above every time of a table with room adds its entry at the end (R113). -/
theorem Staged.shadowEntries_mergeInsert {s : State} (h : Staged s)
    (hr : s.shadowCount < s.cfg.maxStates) {tb : Word × Word}
    (hbelow : ∀ e ∈ shadowEntries s, e.time < tb.1) :
    shadowEntries (Machine.mergeInsert tb.1 tb.2 s) = shadowEntries s ++ [newEntry tb] := by
  rw [mergeInsert_of_above h.increase fun j hj => hbelow _ (entry_mem_shadowEntries hj)]
  exact shadowEntries_insertEntry_end h.canonical hr tb.1 tb.2

/-- The merges of an increasing list, all above the table's times and with room for each, add its entries in
list order (R113, R118). -/
theorem Staged.shadowEntries_mergeAll {s : State} (h : Staged s) {tbs : List (Word × Word)}
    (hz : ∀ tb ∈ tbs, tb.1 ≠ 0) (hr : s.shadowCount + tbs.length ≤ s.cfg.maxStates)
    (hasc : TimesAscend (shadowEntries s ++ tbs.map newEntry)) :
    shadowEntries (Machine.mergeAll tbs s) = shadowEntries s ++ tbs.map newEntry := by
  induction tbs generalizing s with
  | nil => exact (List.append_nil _).symm
  | cons tb tbs ih =>
    obtain ⟨htb, htbs⟩ := List.forall_mem_cons.1 hz
    rw [List.length_cons] at hr
    obtain ⟨-, -, hacross⟩ := List.pairwise_append.1 hasc
    have hbelow : ∀ e ∈ shadowEntries s, e.time < tb.1 := fun e he =>
      hacross e he (newEntry tb) List.mem_cons_self
    have hone := h.shadowEntries_mergeInsert (by omega) hbelow
    have hcount : (Machine.mergeInsert tb.1 tb.2 s).shadowCount = s.shadowCount + 1 := by
      rw [← length_shadowEntries, hone, List.length_append, length_shadowEntries]
      rfl
    have hsplit : shadowEntries s ++ (tb :: tbs).map newEntry =
        shadowEntries (Machine.mergeInsert tb.1 tb.2 s) ++ tbs.map newEntry := by
      rw [hone, List.append_assoc]
      rfl
    rw [hsplit] at hasc ⊢
    refine ih (h.mergeInsert htb tb.2) htbs ?_ hasc
    rw [hcount, mergeInsert_cfg]
    omega

/-- The values a SETCH merges are its used times, in list order (R110). -/
theorem map_time_toggles (c : Config) (ch : BitVec 8) (times : List Word) :
    ((toggles c ch times).map newEntry).map EventEntry.time = usedTimes c times := by
  rw [toggles, List.map_map, List.map_map]
  exact List.zipIdx_map_fst 0 _

/-- The first SETCH of a sequence, with an increasing list that fits the table, stages its toggles in list
order (R110, R111). -/
theorem shadowEntries_setchStaged_fresh {s : State} {ch : BitVec 8} {times : List Word}
    (h : TableInv s) (hf : s.freshSequence = true) (hz : hasZeroTime s.cfg times = false)
    (hasc : times.Pairwise (· < ·)) (hlen : times.length ≤ s.cfg.maxStates) :
    shadowEntries (setchStaged ch times s) = (toggles s.cfg ch times).map newEntry := by
  obtain ⟨htable, hcfg, -⟩ := freshSequenceCheck_table h.wf.1
  rw [if_pos hf] at htable
  obtain ⟨hcount, -⟩ := htable
  have hstaged : Staged (markPending (freshSequenceCheck s)) := { h.staged_freshSequenceCheck with }
  have hempty : shadowEntries (markPending (freshSequenceCheck s)) = [] := by
    rw [shadowEntries, markPending_shadowCount, hcount]
    rfl
  have hused : (toggles s.cfg ch times).length ≤ times.length := by
    simp [toggles, usedTimes]
  have htimes : TimesAscend ((toggles s.cfg ch times).map newEntry) := by
    refine List.pairwise_map.1 ?_
    rw [map_time_toggles]
    exact hasc.sublist (List.take_sublist _ _)
  have hmerge := hstaged.shadowEntries_mergeAll (toggles_ne_zero hz ch)
    (by rw [markPending_shadowCount, hcount, markPending_cfg, hcfg]; omega)
    (by rwa [hempty])
  rwa [hempty] at hmerge

/-! ## The round trip of a list -/

/-- The toggles of a channel touch it (R82, R112). -/
theorem touches_toggleBit {c : Config} {ch : Nat} (hpin : c.pin ch < 16) (i : Nat) :
    touches c (toggleBit c ch i) ch = true := by
  have hset : (setBit c ch).getLsbD (c.pin ch) = true := by
    rw [setBit, getLsbD_bit_of_lt (by omega), decide_eq_true rfl]
  have hreset : (resetBit c ch).getLsbD (16 + c.pin ch) = true := by
    rw [resetBit, getLsbD_bit_of_lt (by omega), decide_eq_true rfl]
  refine bne_iff_ne.2 fun hzero => ?_
  rw [toggleBit] at hzero
  split_ifs at hzero
  · simpa [hset] using congrArg (BitVec.getLsbD · (c.pin ch)) hzero
  · simpa [hreset] using congrArg (BitVec.getLsbD · (16 + c.pin ch)) hzero

/-- The times of the shadow entries that touch a channel, in table order (R215). -/
def stagedTimes (s : State) (ch : Nat) : List Word :=
  ((shadowEntries s).filter fun e => touches s.cfg e.mask ch).map EventEntry.time

theorem stagedTimes_eq (s : State) (ch : Nat) :
    stagedTimes s ch =
      ((List.range s.shadowCount).filter fun k => touches s.cfg (s.shadow.maskAt k) ch).map
        s.shadow.timeAt := by
  rw [stagedTimes, shadowEntries, List.filter_map, List.map_map]
  rfl

/-- The fields of the state that SETCH's effect leaves or sets whatever it merges (R110, R111). -/
theorem setchStaged_fields (ch : BitVec 8) (times : List Word) (s : State) :
    (setchStaged ch times s).cfg = s.cfg ∧ (setchStaged ch times s).engState = s.engState ∧
      (setchStaged ch times s).dmaEn = s.dmaEn ∧ (setchStaged ch times s).periodUs = s.periodUs ∧
      (setchStaged ch times s).commitPending = true ∧
      (setchStaged ch times s).needsCorrection = (s.freshSequence || s.needsCorrection) := by
  rw [setchStaged_eq]
  exact ⟨rfl, rfl, rfl, rfl, rfl, rfl⟩

/-- The shadow table holds the list for the channel and no other time, ready for the START that commits it. -/
structure ListStaged (ch : BitVec 8) (times : List Word) (t : State) : Prop where
  canonical : memoriesCanonical t = true
  idle : t.engState = .idle
  dma : t.dmaEn = false
  pending : t.commitPending = true
  correct : t.needsCorrection = true
  count_le : t.shadowCount ≤ t.cfg.maxStates
  times_eq : (shadowEntries t).map EventEntry.time = times
  staged_eq : stagedTimes t ch.toNat = times

theorem ListStaged.timeAt_mem {ch : BitVec 8} {times : List Word} {t : State}
    (h : ListStaged ch times t) {j : Nat} (hj : j < t.shadowCount) : t.shadow.timeAt j ∈ times :=
  h.times_eq ▸ List.mem_map_of_mem (entry_mem_shadowEntries hj)

/-- The first SETCH of a sequence stages its list (R110, R215). -/
theorem listStaged_setchStaged {s : State} {ch : BitVec 8} {times : List Word} (hb : BlockInv s)
    (hidle : s.engState = .idle) (hf : s.freshSequence = true) (hch : ch.toNat < s.cfg.channelCount)
    (hz : hasZeroTime s.cfg times = false) (hasc : times.Pairwise (· < ·))
    (hused : usedTimes s.cfg times = times) (hlen : times.length ≤ s.cfg.maxStates) :
    ListStaged ch times (setchStaged ch times s) := by
  obtain ⟨hcfg, heng, hdma, -, hpending, hcorrect⟩ := setchStaged_fields ch times s
  have hentries := shadowEntries_setchStaged_fresh (ch := ch) hb.tables hf hz hasc hlen
  have htimes : ((toggles s.cfg ch times).map newEntry).map EventEntry.time = times := by
    rw [map_time_toggles, hused]
  have htouch : ∀ e ∈ (toggles s.cfg ch times).map newEntry, touches s.cfg e.mask ch.toNat = true := by
    simp only [toggles, List.map_map, List.forall_mem_map]
    exact fun (_, i) _ => touches_toggleBit (pin_lt hb.config hch) i
  have hmodes := hb.modes
  simp only [engineModes, hidle, Bool.and_eq_true, Bool.not_eq_true'] at hmodes
  obtain ⟨⟨hoff, -⟩, -⟩ := hmodes
  exact {
    canonical := memoriesCanonical_setchStaged hb.tables.canonical ch times
    idle := heng.trans hidle
    dma := hdma.trans hoff
    pending := hpending
    correct := by rw [hcorrect, hf, Bool.true_or]
    count_le := (hb.tables.staged_setchStaged ch hz).count_le
    times_eq := by rw [hentries, htimes]
    staged_eq := by rw [stagedTimes, hcfg, hentries, List.filter_eq_self.2 htouch, htimes] }

/-- START commits a staged list of times that fit, and the readback is the list (R161, R215). -/
theorem ListStaged.exists_start {ch : BitVec 8} {times : List Word} {t1 : State}
    (h : ListStaged ch times t1) (hv : t1.cfg.valid = true)
    (hfit : ∀ t ∈ times, t.toNat * t1.cfg.tickMult < 2 ^ t1.cfg.timerBits ∧
      t.toNat * t1.cfg.tickMult < 2 ^ 32)
    (hperiod : t1.periodUs ≠ 0) (hperiodFit : t1.periodUs.toNat * t1.cfg.tickMult < 2 ^ t1.cfg.timerBits)
    (hlatency : t1.cfg.dmaLatencyTicks = 0) :
    ∃ t2, exec .start t1 = .next t2 ∧ t2.engState = .running ∧ t2.cfg = t1.cfg ∧
      t2.dmaLen ≤ t2.cfg.maxStates ∧ channelTimes t2 ch.toNat = times := by
  obtain ⟨t2, hstart, ht2, -⟩ := startCommitsAndArms t1 hv h.canonical h.idle h.pending h.dma h.count_le
    (fun _ j hj => (hfit _ (h.timeAt_mem hj)).1) hperiodFit hperiod
    fun hclose => absurd hlatency hclose.1.ne'
  have hrun : t2.engState = .running := by rw [ht2]
  have hread := readbackAfterCommit t1 t2 h.canonical h.idle h.pending h.correct
    (fun j hj => (hfit _ (h.timeAt_mem hj)).2) hstart hrun ch.toNat
  refine ⟨t2, hstart, hrun, by rw [ht2], ?_, ?_⟩
  · rw [ht2]
    exact h.count_le
  · rw [hread, ← stagedTimes_eq, h.staged_eq]

/-- Settles O35: SETCH stages the list, START commits it, and GETCH reads it back. -/
theorem readbackReturnsTheInputList : Obligations.ReadbackReturnsTheInputList := by
  intro s ch times hb hidle hf hch hwf hasc hnonzero htoggles hlen hfit hperiod hperiodFit hlatency
  have hused : usedTimes s.cfg times = times := List.take_of_length_le htoggles
  have hnone : (0 : Word) ∉ times.take s.cfg.maxToggles := fun h0 => hnonzero (List.mem_of_mem_take h0)
  have hcount : (freshSequenceCheck s).shadowCount ≤ s.cfg.maxStates := by
    obtain ⟨-, hkept, -⟩ := freshSequenceCheck_table hb.tables.wf.1
    exact hkept ▸ hb.tables.staged_freshSequenceCheck.count_le
  have hstaged := listStaged_setchStaged hb hidle hf hch (hasZeroTime_eq_false.2 hnone) hasc hused hlen
  obtain ⟨hcfg, -, -, hus, -, -⟩ := setchStaged_fields ch times s
  have hdone : ListStaged ch times (advance (1 + times.length)
      (reply (replyLine 0x04 ch.toNat (usedTimes s.cfg times)) (setchStaged ch times s))) :=
    { hstaged with }
  obtain ⟨t2, hstart, hrun, hcfg2, hlen2, hread⟩ := hdone.exists_start (by simpa [hcfg] using hb.config)
    (by simpa [hcfg] using hfit) (by simpa [hus] using hperiod) (by simpa [hcfg, hus] using hperiodFit)
    (by simpa [hcfg] using hlatency)
  replace hcfg2 : t2.cfg = s.cfg := hcfg2.trans hcfg
  have hshort : times.length ≤ 255 := of_decide_eq_true hwf
  refine ⟨_, t2, exec_of_next hb.config (setchResult_of_inRange hch hnone hcount), hstart, hrun, ?_⟩
  rw [exec_getch (hcfg2 ▸ hb.config) (hcfg2 ▸ hch) hlen2, channelLine, hread, replyLine,
    channelHeader_fits ch (by omega)]

end Sys2Proof.Machine
end

section
/-! PROOF. The exceptions: no command and no turn stops or is refused in a state of the block, and a fault is
one more bit of `FAULT` with nothing else, raised by commands only. -/

namespace Sys2Proof.Machine

/-! ## Outcomes that have a next state -/

/-- An outcome of R11 that settles to a next state: it neither refuses nor reaches outside a table space. -/
inductive Result.Settles : Result → Prop
  | next (s : State) : Settles (.next s)
  | hold : Settles .hold
  | raise (k : FaultKind) : Settles (.raise k)

theorem Result.Settles.exists_next {r : Result} (h : r.Settles) (s : State) :
    ∃ t, settle s r = .next t := by
  cases h with
  | next t => exact ⟨t, rfl⟩
  | hold => exact ⟨s, rfl⟩
  | raise k => exact ⟨raiseFault k s, rfl⟩

/-- The later part of a step counts only where the earlier part reaches a next state. -/
theorem Result.Settles.andThen {r : Result} {k : State → Result} (h : r.Settles)
    (hk : ∀ s, r = .next s → (k s).Settles) : (r.andThen k).Settles := by
  cases h with
  | next s => exact hk s rfl
  | hold => exact .hold
  | raise f => exact .raise f

/-! ## Commands within the table spaces -/

theorem countOutside_eq_false {s : State} {n : Nat} (h : n ≤ s.cfg.maxStates) :
    countOutside s n = false := decide_eq_false (Nat.not_lt.2 h)

theorem settles_commit {s : State} (hcount : s.shadowCount ≤ s.cfg.maxStates) : (commit s).Settles := by
  unfold commit
  rw [countOutside_eq_false hcount, if_neg Bool.false_ne_true]
  split_ifs
  · exact .hold
  · exact .raise _
  · exact .raise _
  · exact .next _

theorem settles_armAndComplete {s : State} (hlen : s.dmaLen ≤ s.cfg.maxStates) :
    (armAndComplete s).Settles := by
  have harm : (arm s).Settles := by
    unfold arm
    rw [countOutside_eq_false hlen, if_neg Bool.false_ne_true]
    split_ifs
    · exact .raise _
    · exact .raise _
    · exact .next _
  exact harm.andThen fun _ _ => .next _

/-- A START arms the live table, or the shadow table its commit has copied there (R161). -/
theorem settles_startResult {s : State} (hcount : s.shadowCount ≤ s.cfg.maxStates)
    (hlen : s.dmaLen ≤ s.cfg.maxStates) : (startResult s).Settles := by
  cases hs : s.engState with
  | running => rw [startResult_eq_next.2 (.inl ⟨hs, rfl⟩)]; exact .next _
  | stopRequested => rw [startResult_of_stop (.inl hs)]; exact .hold
  | stopping => rw [startResult_of_stop (.inr hs)]; exact .hold
  | idle =>
    cases hpending : s.commitPending with
    | false => rw [startResult_of_not_pending hs hpending]; exact settles_armAndComplete hlen
    | true =>
      rw [startResult_of_pending hs hpending]
      refine (settles_commit hcount).andThen fun s1 h1 => ?_
      obtain ⟨-, -, -, -, rfl⟩ := commit_eq_next.1 h1
      exact settles_armAndComplete hcount

/-- The fresh-sequence check keeps the count or empties the table (R111). -/
theorem shadowCount_freshSequenceCheck_le (s : State) :
    (freshSequenceCheck s).shadowCount ≤ s.shadowCount := by
  rcases freshSequenceCheck_cases s with ⟨-, h⟩ | ⟨-, h⟩ <;> rw [h]
  exact Nat.zero_le _

theorem settles_setchResult (ch : BitVec 8) (times : List Word) {s : State}
    (hcount : s.shadowCount ≤ s.cfg.maxStates) : (setchResult ch times s).Settles := by
  rcases setchResult_cases ch times s with ⟨-, h⟩ | ⟨-, -, h⟩ | ⟨-, -, hout, -⟩ | ⟨-, -, -, h⟩
  · rw [h]; exact .next _
  · rw [h]; exact .raise _
  · exact absurd ((shadowCount_freshSequenceCheck_le s).trans hcount) (Nat.not_le.2 hout)
  · rw [h]; exact .next _

/-- With both counts within their table spaces (R36, R39) no command refuses or stops. -/
theorem settles_commandResult (i : Instr) {s : State} (hcount : s.shadowCount ≤ s.cfg.maxStates)
    (hlen : s.dmaLen ≤ s.cfg.maxStates) : (commandResult i s).Settles := by
  have hin := countOutside_eq_false hlen
  cases i with
  | start => exact settles_startResult hcount hlen
  | setch ch times => exact settles_setchResult ch times hcount
  | getch ch =>
    rw [commandResult, getchResult, hin, if_neg Bool.false_ne_true]
    split <;> exact .next _
  | getall => rw [commandResult, getallResult, hin]; exact .next _
  | stop => exact .next _
  | setper p => exact .next _
  | getper => exact .next _
  | ping => exact .next _
  | setaddr addr => exact .next _
  | getaddr => exact .next _
  | reset => exact .next _
  | reserved op => exact .next _

theorem exists_exec_of_blockInv {s : State} (hb : BlockInv s) (i : Instr) :
    ∃ t, exec i s = .next t := by
  rw [exec_eq_runCommand, runCommand_valid hb.config]
  exact (settles_commandResult i hb.tables.shadowCount_le hb.tables.dmaLen_le).exists_next s

/-! ## Every turn has a next state -/

theorem exists_commandTurn_of_blockInv {s : State} (hb : BlockInv s) :
    ∃ t, commandTurn s = .next t := by
  unfold commandTurn
  split
  · exact exists_exec_of_blockInv hb _
  · exact ⟨s, rfl⟩

theorem exists_timerTurn_of_blockInv {s : State} (hb : BlockInv s) :
    ∃ t, settle s (timerResult s) = .next t := by
  cases hcen : s.timCen with
  | false => exact ⟨s, settle_timerResult_eq_next.2 (.inr ⟨hcen, rfl⟩)⟩
  | true =>
    obtain ⟨t, ht⟩ := exists_tick_of_blockInv hb hcen
    exact ⟨t, settle_timerResult_eq_next.2 (.inl ⟨hcen, ht⟩)⟩

theorem exists_step_of_blockInv {s : State} (hb : BlockInv s) : ∃ t, step s = .next t := by
  have hstart : BlockInv (turnTaken s) := (sameEngine_turnTaken s).blockInv hb
  cases hn : nextTurn s with
  | host ws => exact ⟨_, step_of_host hb.config hn⟩
  | command => rw [step_of_command hb.config hn]; exact exists_commandTurn_of_blockInv hstart
  | timer => rw [step_of_timer hb.config hn]; exact exists_timerTurn_of_blockInv hstart

/-- Settles O47: the invariant keeps the counts and the index within the table spaces, and its
configuration is valid, which leaves nothing to stop or to refuse. -/
theorem nothingStopsTheMachine : Obligations.NothingStopsTheMachine := fun _ hb =>
  ⟨exists_exec_of_blockInv hb, exists_step_of_blockInv hb⟩

/-! ## Who writes FAULT -/

/-- A completed or held command keeps `FAULT`; one that faults sets its bit alone (R11, R242). -/
theorem fault_of_exec {i : Instr} {s t : State} (h : exec i s = .next t) :
    t.fault = s.fault ∨ ∃ k : FaultKind, t = raiseFault k s := by
  rcases exec_eq_next h with ⟨n, ws, u, hu, rfl⟩ | rfl | hraise
  · obtain ⟨-, hfault, -, -⟩ := hu.streams
    exact .inl hfault
  · exact .inl rfl
  · exact .inr hraise

theorem timerResult_ne_raise (s : State) (k : FaultKind) : timerResult s ≠ .raise k := by
  rcases timerResult_cases s with ⟨-, h⟩ | ⟨-, t, -, h⟩ | ⟨-, -, h⟩ <;> rw [h] <;> exact nofun

/-- The timer agent's turn, a tick or a hold, keeps `FAULT` (R180, R240). -/
theorem fault_of_timerTurn {s t : State} (h : settle s (timerResult s) = .next t) :
    t.fault = s.fault := by
  rcases settle_timerResult_eq_next.1 h with ⟨-, htick⟩ | ⟨-, rfl⟩
  · rw [tick_frame htick]
  · rfl

/-- A step of the host or of the timer agent keeps `FAULT` (R242). -/
theorem fault_of_step_of_ne_command {s t : State} (hn : nextTurn s ≠ .command)
    (h : step s = .next t) : t.fault = s.fault := by
  obtain ⟨-, ⟨ws, -, rfl⟩ | ⟨hc, -⟩ | ⟨-, ht⟩⟩ := step_eq_next.1 h
  · rfl
  · exact absurd hc hn
  · exact fault_of_timerTurn (s := turnTaken s) ht

/-- Settles O50: a command's effect never reaches `FAULT`, and only a command's outcome raises. -/
theorem faultsAreSetAloneOrNotAtAll : Obligations.FaultsAreSetAloneOrNotAtAll :=
  ⟨fun _ _ _ => fault_of_exec, timerResult_ne_raise, fun _ _ => fault_of_timerTurn,
    fun _ _ => fault_of_step_of_ne_command⟩

end Sys2Proof.Machine
end

section
/-! PROOF. Reset: the idle levels pin by pin, the state at the start of a run and its invariant, and what the
host observes there (70_reset_and_hazards.md R270 to R273). -/

namespace Sys2Proof.Machine

/-! ## The idle levels -/

/-- `IDLE_LEVELS` is high at the pins of the inverted channels alone (R270). -/
theorem getLsbD_idleLevels (c : Config) {p : Nat} (hp : p < 16) :
    (idleLevels c).getLsbD p = true ↔ ∃ ch, ch < c.channelCount ∧ c.inv ch = true ∧ c.pin ch = p := by
  simp only [idleLevels, getLsbD_foldl_or, BitVec.ofNat_eq_ofNat, BitVec.getLsbD_zero, Bool.false_or,
    List.any_eq_true, List.mem_range]
  refine exists_congr fun ch => and_congr_right fun _ => ?_
  cases c.inv ch
  · simp
  · simp only [if_true, getLsbD_levelBit, hp, decide_true, Bool.true_and, decide_eq_true_eq, true_and]

/-- A channel's pin has the inversion of that channel, for no other channel has its pin (R7, R270). -/
theorem getLsbD_idleLevels_pin {c : Config} (hv : c.valid = true) {ch : Nat} (hch : ch < c.channelCount) :
    (idleLevels c).getLsbD (c.pin ch) = c.inv ch := by
  rw [Bool.eq_iff_iff, getLsbD_idleLevels c (pin_lt hv hch)]
  refine ⟨fun ⟨d, hd, hinv, hpin⟩ => ?_, fun hinv => ⟨ch, hch, hinv, rfl⟩⟩
  rwa [← pin_injective hv hd hch hpin]

/-- Settles O12: a high pin is the pin of an inverted channel. -/
theorem idleLevelsOfEveryPin : Obligations.IdleLevelsOfEveryPin := by
  intro c hv
  refine ⟨fun ch hch => getLsbD_idleLevels_pin hv hch, fun p hp hunused => ?_⟩
  rw [Bool.eq_false_iff, ne_eq, getLsbD_idleLevels c hp]
  rintro ⟨ch, hch, -, hpin⟩
  exact hunused ch hch hpin

/-! ## The start of a run -/

/-- `Reset()` finds nothing to clear in the empty table spaces of a run's start (R271). -/
theorem resetBlock_boot (c : Config) (ws : List Word) (ts : List Turn) :
    resetBlock (State.boot c ws ts) = State.boot c ws ts := rfl

/-- `FLAGS` with only `FRESH_SEQUENCE` set (R24 to R26, R44). -/
theorem flagsWord_of_fresh {s : State} (hneeds : s.needsCorrection = false)
    (hfresh : s.freshSequence = true) (hpending : s.commitPending = false) : flagsWord s = 0b010#3 := by
  rw [flagsWord, hneeds, hfresh, hpending]
  rfl

/-- `TIM_CR` is 0 when neither of its bits is set (R34). -/
theorem timCrWord_of_off {s : State} (hcen : s.timCen = false) (hopm : s.timOpm = false) :
    timCrWord s = 0 := by
  rw [timCrWord, hcen, hopm]
  rfl

/-- Settles O9: the fields stand as written, and the entries of an empty table space are zero. -/
theorem startOfRunValues : Obligations.StartOfRunValues := fun c ws ts =>
  ⟨rfl, flagsWord_of_fresh rfl rfl rfl, rfl, rfl, rfl, rfl, rfl, timCrWord_of_off rfl rfl, rfl, rfl, rfl,
    rfl, Memory.entry_nil, rfl, Memory.entry_nil, rfl, rfl, rfl, resetBlock_boot c ws ts⟩

/-- No sequence is staged, nothing is loaded, and both tables are empty (R270, R271). -/
theorem tableInv_boot (c : Config) (ws : List Word) (ts : List Turn) : TableInv (State.boot c ws ts) where
  canonical := rfl
  shadowCount_le := Nat.zero_le _
  dmaLen_le := Nat.zero_le _
  dmaIdx_lt := .inl rfl
  tail k _ := Memory.entry_nil k
  staged hfresh := absurd hfresh.symm Bool.false_ne_true
  increase hneeds := absurd hneeds Bool.false_ne_true
  nonzero hneeds := absurd hneeds Bool.false_ne_true

/-- A valid configuration is all that the start of a run needs (R271). -/
theorem blockInv_boot {c : Config} (hv : c.valid = true) (ws : List Word) (ts : List Turn) :
    BlockInv (State.boot c ws ts) where
  config := hv
  modes := rfl
  tables := tableInv_boot c ws ts
  timer := resetBlock_boot c ws ts ▸ timerInv_resetBlock (State.boot c ws ts)

/-- Settles O43: `State.reset` is the start of a run of the default configuration, a valid one. -/
theorem startOfRunMeetsTheInvariant : Obligations.StartOfRunMeetsTheInvariant :=
  ⟨fun _ ws ts hv => blockInv_boot hv ws ts, blockInv_boot (by decide) [] []⟩

/-! ## What the host observes -/

/-- With no event loaded no channel has a time to report (R214). -/
theorem channelTimes_of_empty {s : State} (h : s.dmaLen = 0) (ch : Nat) : channelTimes s ch = [] := by
  simp [channelTimes, h]

/-- With no event loaded a channel's line has no payload (R96, R273). -/
theorem channelLine_of_empty {s : State} (h : s.dmaLen = 0) (ch : BitVec 8) :
    channelLine s ch.toNat = [0x06#8 ++ ch ++ 0#16] := by
  rw [channelLine, channelTimes_of_empty h, replyLine, List.length_nil, channelHeader_fits ch (by decide)]

/-- With no event loaded GETALL has the period line alone (R216, R273). -/
theorem allLines_of_empty {s : State} (h : s.dmaLen = 0) : allLines s = periodLine 0x05 s := by
  simp [allLines_eq, channelTimes_of_empty h]

/-- A START from IDLE with nothing to commit and no period faults (R163). -/
theorem exec_start_of_zero_period {s : State} (hv : s.cfg.valid = true) (hidle : s.engState = .idle)
    (hpending : s.commitPending = false) (hperiod : s.timPeriod = 0) :
    exec .start s = .next { s with fault := s.fault ||| FaultKind.zeroPeriod.bit } := by
  refine exec_of_raise hv ?_
  rw [commandResult, startResult_of_not_pending hidle hpending, armAndComplete_of_zero_period hperiod]

/-- Settles O11: no event is loaded, nothing is staged and `TIM_PERIOD` is 0. -/
theorem hostSeesTheResetState : Obligations.HostSeesTheResetState := by
  rintro c ws ts s hv rfl
  have hvalid : (State.boot c ws ts).cfg.valid = true := hv
  have hempty : (State.boot c ws ts).dmaLen = 0 := rfl
  have hlen : (State.boot c ws ts).dmaLen ≤ (State.boot c ws ts).cfg.maxStates := Nat.zero_le _
  have hbit : (State.boot c ws ts).fault ||| FaultKind.zeroPeriod.bit = 0b01000#5 :=
    (by decide : 0#5 ||| FaultKind.zeroPeriod.bit = 0b01000#5)
  refine ⟨(getperAndPingReply.2 _ hvalid).1, fun ch hch => ?_, ?_,
    fun ch hch => getLsbD_idleLevels_pin hv hch, ?_⟩
  · rw [exec_getch hvalid hch hlen, channelLine_of_empty hempty]
    rfl
  · rw [exec_getall hvalid hlen, allLines_of_empty hempty, periodLine_getper]
    rfl
  · rw [exec_start_of_zero_period hvalid rfl rfl rfl, hbit]

end Sys2Proof.Machine
end
